-- ==== Sys2Proof/Word.lean ====
section
/-! DEFINITION. The word and byte types of P264-TQE (00_scope.md R8, R9). -/

namespace Sys2Proof

/-- A 32-bit word: uint32 when read with `toNat`, int32 when read with `toInt` (R9). Its `+`, `-`, `*` and
`<<<` are the wrapping operations of R13 (every result reduced by wrap32). -/
abbrev Word := BitVec 32

/-- One byte. -/
abbrev Byte := BitVec 8

end Sys2Proof
end

