-- ==== Sys2Proof/Config.lean ====
section
/-! DEFINITION. The parameters of 00_scope.md R7, with the value this hardware takes, and the two values the spec
leaves open (93_implementation_defined.md Part 1 rows 1, 3 and 4), as constants without a body. -/

namespace Sys2Proof.Config

/-- BRAM_WORDS (R7). -/
abbrev bramWords : Nat := 1024

/-- CMDQ_DEPTH (R7). -/
abbrev cmdqDepth : Nat := 16

/-- OUT_SIZE (R7). -/
abbrev outSize : Nat := 65536

/-- DESC_DEPTH (R7). -/
abbrev descDepth : Nat := 64

/-- N_CTX (R7, R262). -/
abbrev nCtx : Nat := 460

/-- N_SCALING_LISTS (R7). -/
abbrev nScalingLists : Nat := 8

/-- How many of the scaling lists, the first ones, are 4x4 (R7, R44). -/
abbrev nScalingLists4 : Nat := 6

/-- Bytes of the scaling RAM: 16 weights for each 4x4 list, 64 for each 8x8 list (R44). -/
abbrev scalBytes : Nat := nScalingLists4 * 16 + (nScalingLists - nScalingLists4) * 64

/-- BIT_DEPTH (R7): bits of a sample. -/
abbrev bitDepth : Nat := 8

/-- The chroma formats of the block: one, fixed (R7). -/
inductive ChromaFormat where
  | yuv420
  deriving DecidableEq, Repr

/-- CHROMA_FORMAT (R7): 4:2:0. -/
abbrev chromaFormat : ChromaFormat := .yuv420

/-- OUTST_MAX (R7, R272). -/
abbrev outstMax : Nat := 2 ^ 32 - 1

/-- QROUND_INTRA = 1/3 as numerator and denominator (R7, R155, D11). -/
abbrev qroundIntra : Nat × Nat := (1, 3)

/-- QROUND_INTER = 1/6 as numerator and denominator (R7, R155, D11). -/
abbrev qroundInter : Nat × Nat := (1, 6)

/-- CABAC_INIT_MN (R7, R264): the pair (m, n) of a model 0..3 and a ctxIdx, each read as a signed 8-bit number, so in
-128..127. The spec leaves the table open (D22): nothing is known of a value (log 2). -/
opaque cabacInitMN : BitVec 2 → Nat → BitVec 8 × BitVec 8

/-- What a host read of a BRAM word that nothing has written returns, for the k-th such draw (R45, R402): any 32-bit
value (log 1). -/
opaque freeWord : Nat → Word

end Sys2Proof.Config
end

