-- ==== Sys2Proof/Syntax.lean ====
section
/-! DEFINITION. The command set of 30_encoding.md as syntax: one constructor of `Instr` for each of the 26 rows of
opcode_table.json. A field keeps the width its format gives it (R111), so that a command whose field value R115 does
not admit is still a term: the block decodes it and raises the error R115 names. -/

namespace Sys2Proof

/-- A queued command: the two words of R110. -/
structure Command where
  lo : Word
  hi : Word
  deriving DecidableEq, Repr

/-- The error codes of 60_exceptions.md R371. -/
inductive ErrCode where
  | illegalOpcode | reservedNonzero | badField | qpRange | bramRange | uninitRead | inputRange | ctxRange
  | cabacState | nalState | bwAlign | outOverflow | descOverflow | emptyBlock | valueRange | outstOverflow
  | cmdqOverflow | hostBusyWrite | mmioAlign | mmioAccess | cfgValue
  deriving DecidableEq, Repr

/-- The operands of Format T (R111). -/
structure TOps where
  intra : Bool
  plane : BitVec 2
  ac : Bool
  src : BitVec 10
  dst : BitVec 10
  deriving DecidableEq, Repr

/-- The commands (R113). Field names are those of the formats of R111. -/
inductive Instr where
  | nop
  | setqp (qpy : BitVec 6) (cboff croff : BitVec 5)
  | tq4 (o : TOps)
  | tq8 (o : TOps)
  | tqldc (o : TOps)
  | tqcdc (o : TOps)
  | dq4 (o : TOps)
  | dq8 (o : TOps)
  | dqldc (o : TOps)
  | dqcdc (o : TOps)
  | rlscan (src dst : BitVec 10) (cat : BitVec 3)
  | cinit (model : BitVec 2) (sliceqp : BitVec 6) (eng : Bool)
  | cdec (ctx : BitVec 10) (bin : Bool)
  | cbyp (bin : Bool)
  | cbypn (n : BitVec 6) (value : Word)
  | cterm (bin : Bool)
  | cres (src : BitVec 10) (cat : BitVec 3) (cbfinc : BitVec 2) (codeCbf : Bool)
  | nalb (refIdc : BitVec 2) (nalType : BitVec 5)
  | nale
  | nalx
  | putb (n : BitVec 6) (value : Word)
  | putue (value : Word)
  | putse (value : Word)
  | align
  | trail
  | putbytes (src : BitVec 10) (count : BitVec 11)
  deriving DecidableEq, Repr

end Sys2Proof
end

