-- ==== Sys2Proof/WellFormed.lean ====
section
/-! DEFINITION. Which commands have only field values that 30_encoding.md R115 admits. -/

namespace Sys2Proof

/-- A chroma offset in -12..12 (R115, row SETQP). -/
def offsetAdmitted (v : BitVec 5) : Bool :=
  -12 ≤ v.toInt && v.toInt ≤ 12

/-- The table of R115, one line per command. -/
def Instr.wellFormed : Instr → Bool
  | .setqp qpy cboff croff => qpy.toNat ≤ 51 && offsetAdmitted cboff && offsetAdmitted croff
  | .tq4 o | .dq4 o => o.plane.toNat ≤ 2
  | .tq8 o | .dq8 o => o.plane == 0 && !o.ac
  | .tqldc o | .dqldc o => o.plane == 0 && !o.ac && o.intra
  | .tqcdc o | .dqcdc o => (o.plane == 1 || o.plane == 2) && !o.ac
  | .rlscan _ _ cat => cat.toNat ≤ 5
  | .cres _ cat _ codeCbf => cat.toNat ≤ 5 && !(cat == 5 && codeCbf)
  | .cinit model sliceqp eng => sliceqp.toNat ≤ 51 && (!eng || (model == 0 && sliceqp == 0))
  | .cdec ctx _ => ctx.toNat < 460 && ctx.toNat != 276
  | .putb n _ | .cbypn n _ => n.toNat ≤ 32
  | .nalb _ nalType => nalType != 0
  | .putbytes _ count => count.toNat ≤ 1024
  | .nop | .cbyp _ | .cterm _ | .nale | .nalx | .putue _ | .putse _ | .align | .trail => true

end Sys2Proof
end

