-- ==== Sys2Proof/Decode.lean ====
section
/-! DEFINITION. Decoding and encoding of commands (30_encoding.md R110 to R116). `decode` makes the first two checks of
R114 (opcode, then reserved bits) and assembles the operands; the third (field values, R115) is the first check of every
meaning (`checkFields`, Machine/Operands.lean). -/

namespace Sys2Proof

/-- The formats of R111. Format S leaves other bits reserved for RLSCAN than for CRES. -/
inductive Format where
  | n | q | t | sRlscan | sCres | ci | cd | cb | v | u | h | p
  deriving DecidableEq, Repr

/-- The reserved bits of a format, as masks over lo and hi (R111: bits not named are reserved). -/
def reservedBits : Format → Word × Word
  | .n => (0x03FFFFFF, 0xFFFFFFFF)
  | .q => (0x03E0E0C0, 0xFFFFFFFF)
  | .t => (0x00000003, 0xFFFFFFFF)
  | .sRlscan => (0x03C00003, 0xFFFFFFF8)
  | .sCres => (0x03C00FFF, 0xFFFFFFC0)
  | .ci => (0x00C0FFFE, 0xFFFFFFFF)
  | .cd => (0x0000FFFE, 0xFFFFFFFF)
  | .cb => (0x03FFFFFE, 0xFFFFFFFF)
  | .v => (0x03C0FFFF, 0x00000000)
  | .u => (0x03FFFFFF, 0x00000000)
  | .h => (0x00E0FFFF, 0xFFFFFFFF)
  | .p => (0x03C00FFF, 0xFFFFF800)

/-- The field v[lo + len - 1 : lo] (R8). -/
def field (v : Word) (lo len : Nat) : BitVec len :=
  v.extractLsb' lo len

/-- The opcode, lo[31:26] (R110). -/
def Command.opcode (c : Command) : BitVec 6 :=
  field c.lo 26 6

/-- The operands of Format T (R111). -/
def tOps (c : Command) : TOps :=
  ⟨c.lo.getLsbD 25, field c.lo 23 2, c.lo.getLsbD 22, field c.lo 12 10, field c.lo 2 10⟩

/-- The opcode map (R113) with each command's format and operand assembly (R111, R112). -/
def opcodeMap (c : Command) : Option (Format × Instr) :=
  match c.opcode.toNat with
  | 0x00 => some (.n, .nop)
  | 0x01 => some (.q, .setqp (field c.lo 0 6) (field c.lo 8 5) (field c.lo 16 5))
  | 0x08 => some (.t, .tq4 (tOps c))
  | 0x09 => some (.t, .tq8 (tOps c))
  | 0x0A => some (.t, .tqldc (tOps c))
  | 0x0B => some (.t, .tqcdc (tOps c))
  | 0x0C => some (.t, .dq4 (tOps c))
  | 0x0D => some (.t, .dq8 (tOps c))
  | 0x0E => some (.t, .dqldc (tOps c))
  | 0x0F => some (.t, .dqcdc (tOps c))
  | 0x10 => some (.sRlscan, .rlscan (field c.lo 12 10) (field c.lo 2 10) (field c.hi 0 3))
  | 0x18 => some (.ci, .cinit (field c.lo 24 2) (field c.lo 16 6) (c.lo.getLsbD 0))
  | 0x19 => some (.cd, .cdec (field c.lo 16 10) (c.lo.getLsbD 0))
  | 0x1A => some (.cb, .cbyp (c.lo.getLsbD 0))
  | 0x1B => some (.v, .cbypn (field c.lo 16 6) c.hi)
  | 0x1C => some (.cb, .cterm (c.lo.getLsbD 0))
  | 0x1D => some (.sCres, .cres (field c.lo 12 10) (field c.hi 0 3) (field c.hi 3 2) (c.hi.getLsbD 5))
  | 0x20 => some (.h, .nalb (field c.lo 24 2) (field c.lo 16 5))
  | 0x21 => some (.n, .nale)
  | 0x22 => some (.n, .nalx)
  | 0x23 => some (.v, .putb (field c.lo 16 6) c.hi)
  | 0x24 => some (.u, .putue c.hi)
  | 0x25 => some (.u, .putse c.hi)
  | 0x26 => some (.n, .align)
  | 0x27 => some (.n, .trail)
  | 0x28 => some (.p, .putbytes (field c.lo 12 10) (field c.hi 0 11))
  | _ => none

/-- No reserved bit of the format is 1 (R114 check 2). -/
def reservedClear (f : Format) (c : Command) : Bool :=
  c.lo &&& (reservedBits f).1 == 0 && c.hi &&& (reservedBits f).2 == 0

/-- The decode checks 1 and 2 of R114, in that order, and the operands of R112. -/
def decode (c : Command) : Except ErrCode Instr :=
  match opcodeMap c with
  | none => .error .illegalOpcode
  | some (f, i) => if reservedClear f c then .ok i else .error .reservedNonzero

/-- A one-bit field. -/
def bit (b : Bool) : BitVec 1 :=
  BitVec.ofBool b

/-- The low word of a Format T command (R111). -/
def encodeT (opcode : BitVec 6) (o : TOps) : Command :=
  ⟨opcode ++ bit o.intra ++ o.plane ++ bit o.ac ++ o.src ++ o.dst ++ 0#2, 0⟩

/-- The words of a command, written field by field, high bits first, from R111 and R113. -/
def encode : Instr → Command
  | .nop => ⟨0x00#6 ++ 0#26, 0⟩
  | .setqp qpy cboff croff => ⟨0x01#6 ++ 0#5 ++ croff ++ 0#3 ++ cboff ++ 0#2 ++ qpy, 0⟩
  | .tq4 o => encodeT 0x08 o
  | .tq8 o => encodeT 0x09 o
  | .tqldc o => encodeT 0x0A o
  | .tqcdc o => encodeT 0x0B o
  | .dq4 o => encodeT 0x0C o
  | .dq8 o => encodeT 0x0D o
  | .dqldc o => encodeT 0x0E o
  | .dqcdc o => encodeT 0x0F o
  | .rlscan src dst cat => ⟨0x10#6 ++ 0#4 ++ src ++ dst ++ 0#2, 0#29 ++ cat⟩
  | .cinit model sliceqp eng => ⟨0x18#6 ++ model ++ 0#2 ++ sliceqp ++ 0#15 ++ bit eng, 0⟩
  | .cdec ctx bin => ⟨0x19#6 ++ ctx ++ 0#15 ++ bit bin, 0⟩
  | .cbyp bin => ⟨0x1A#6 ++ 0#25 ++ bit bin, 0⟩
  | .cbypn n value => ⟨0x1B#6 ++ 0#4 ++ n ++ 0#16, value⟩
  | .cterm bin => ⟨0x1C#6 ++ 0#25 ++ bit bin, 0⟩
  | .cres src cat cbfinc codeCbf => ⟨0x1D#6 ++ 0#4 ++ src ++ 0#12, 0#26 ++ bit codeCbf ++ cbfinc ++ cat⟩
  | .nalb refIdc nalType => ⟨0x20#6 ++ refIdc ++ 0#3 ++ nalType ++ 0#16, 0⟩
  | .nale => ⟨0x21#6 ++ 0#26, 0⟩
  | .nalx => ⟨0x22#6 ++ 0#26, 0⟩
  | .putb n value => ⟨0x23#6 ++ 0#4 ++ n ++ 0#16, value⟩
  | .putue value => ⟨0x24#6 ++ 0#26, value⟩
  | .putse value => ⟨0x25#6 ++ 0#26, value⟩
  | .align => ⟨0x26#6 ++ 0#26, 0⟩
  | .trail => ⟨0x27#6 ++ 0#26, 0⟩
  | .putbytes src count => ⟨0x28#6 ++ 0#4 ++ src ++ 0#12, 0#21 ++ count⟩

/-- The command whose {hi, lo} has the bits of w below nbits, and 0 above: opcode_table.json numbers lo's bits 0..31
and hi's 32..63. -/
def commandOfBits (nbits w : Nat) : Command :=
  ⟨BitVec.ofNat 32 (w % 2 ^ nbits), BitVec.ofNat 32 ((w % 2 ^ nbits) / 2 ^ 32)⟩

/-- What the decoder reads from an instruction whose bits are w, numbered as opcode_table.json numbers them. -/
def decodeTableWord (nbits w : Nat) : Option Instr :=
  match decode (commandOfBits nbits w) with
  | .ok i => some i
  | .error _ => none

end Sys2Proof
end

