-- ==== Sys2Proof/Machine/State.lean ====
section
/-! DEFINITION. The state of P264-TQE: the record of 10_state.md R30, field for field, and the model's own three fields
(`agenda`, `readData`, `draws`). -/

namespace Sys2Proof.Machine

/-- No step of this hardware stops the machine: every error is recorded in the state and the block waits for the host
(60_exceptions.md R372, R375, R376, R378). So no fault is ever raised, and the type has no constructor. -/
inductive Fault
  deriving DecidableEq, Repr

/-- Why `exec` has no meaning for a command. -/
inductive Refusal where
  /-- Raised by `exec` for a command with no meaning yet (safe: the run stops). No arm raises it now. -/
  | notModelled (mnemonic : String)
  deriving DecidableEq, Repr

/-- The CABAC engine state (R42). -/
inductive CabacState where
  | idle | active | terminated
  deriving DecidableEq, Repr

/-- The arithmetic coder registers (R41, R42). -/
structure Cabac where
  state : CabacState
  range : Nat
  low : Nat
  outst : Nat
  first : Bool
  deriving DecidableEq, Repr

/-- One context: (pStateIdx 0..63, valMPS) (R43). -/
structure Ctx where
  pStateIdx : Nat
  valMPS : Bool
  deriving DecidableEq, Repr

/-- The bit writer (R46). `acc` is oldest bit first. -/
structure BitWriter where
  nalOpen : Bool
  acc : List Bool
  zeros : Nat
  lastZero : Bool
  nalStart : Word
  nalBits : Word
  hdr : Byte
  deriving DecidableEq, Repr

/-- One NAL descriptor (R49). -/
structure Desc where
  offset : Nat
  length : Nat
  hdr : Byte
  deriving DecidableEq, Repr

/-- What moves next in the whole system (20_memory.md R80): a host access of `bytes` bytes at an MMIO byte address, the
engine's turn, or the reset input (R400). -/
inductive Event where
  | read (bytes : Nat) (addr : BitVec 17)
  | write (bytes : Nat) (addr : BitVec 17) (data : Word)
  | engineTurn
  | resetInput
  deriving DecidableEq, Repr

/-- The output memory, sparse: bytes at rising addresses, none 0x00 (an unlisted byte reads 0x00, R47). -/
abbrev Memory := List Host.Cell

/-- The buffer RAM, sparse: the words whose valid bit is 1, at rising word addresses (an unlisted word has valid bit 0
and no value, R45). -/
abbrev Bram := List (Nat × Word)

/-- The machine's state (R30). -/
structure State where
  /-- CTRL.ENABLE and CTRL.LOSSLESS (R32). -/
  enable : Bool
  lossless : Bool
  /-- STATUS.ERR, ERRCODE, ERRINFO_LO, ERRINFO_HI (R33 to R35). -/
  err : Bool
  errcode : Byte
  errinfoLo : Word
  errinfoHi : Word
  /-- STATUS.SAT (R33). -/
  sat : Bool
  /-- The QP register's fields (R36). -/
  qpy : Nat
  cboff : Int
  croff : Int
  /-- RESULT (R37). -/
  result : Word
  /-- cmd_hi_stage (R38). -/
  cmdHiStage : Word
  /-- The command FIFO, head first (R48). -/
  fifo : List Command
  /-- IRQ_EN and IRQ_PEND (R39, R40): bit 0 ERR, bit 1 IDLE, bit 2 NALDONE. -/
  irqEn : BitVec 3
  irqPend : BitVec 3
  /-- The CABAC engine (R41 to R43). -/
  cabac : Cabac
  ctx : Vector Ctx Config.nCtx
  /-- The scaling RAM (R44): lists 0..5 (16 weights each), then lists 6 and 7 (64 each). -/
  scal : Vector Byte Config.scalBytes
  /-- The buffer RAM (R45). -/
  bram : Bram
  /-- The bit writer (R46). -/
  bw : BitWriter
  /-- The output memory and its write pointer OUT_WPTR (R47). -/
  out : Memory
  wptr : Nat
  /-- The NAL descriptor table, oldest first (R49). -/
  desc : List Desc
  /-- The model's own (log 3): the events to come, next first. -/
  agenda : List Event
  /-- The model's own (log 4): what the last host read returned. -/
  readData : Word
  /-- The model's own (log 1): how many free words have been drawn. -/
  draws : Nat
  deriving DecidableEq, Repr

/-- The state after reset (70_reset_and_hazards.md R402). -/
def State.reset : State where
  enable := false
  lossless := false
  err := false
  errcode := 0
  errinfoLo := 0
  errinfoHi := 0
  sat := false
  qpy := 0
  cboff := 0
  croff := 0
  result := 0
  cmdHiStage := 0
  fifo := []
  irqEn := 0
  irqPend := 0
  cabac := ⟨.idle, 510, 0, 0, true⟩
  ctx := Vector.replicate Config.nCtx ⟨0, false⟩
  scal := Vector.replicate Config.scalBytes 16
  bram := []
  bw := ⟨false, [], 0, false, 0, 0, 0⟩
  out := []
  wptr := 0
  desc := []
  agenda := []
  readData := 0
  draws := 0

end Sys2Proof.Machine
end

