-- ==== Sys2Proof/Machine/Flags.lean ====
section
/-! DEFINITION. The flags: STATUS and its derived bits (10_state.md R33, R50), the interrupt bits and line (R39, R40,
60_exceptions.md R380), RESULT and SAT. -/

namespace Sys2Proof.Machine

/-- STATUS.BUSY: the FIFO holds at least one command (R33). -/
def State.busy (s : State) : Bool :=
  !s.fifo.isEmpty

/-- FIFO_COUNT (R33). -/
def State.fifoCount (s : State) : Nat :=
  s.fifo.length

/-- NAL_COUNT (R49). -/
def State.nalCount (s : State) : Nat :=
  s.desc.length

/-- BITPOS (R33, R46). -/
def State.bitpos (s : State) : Nat :=
  s.bw.acc.length

/-- The number of a CABAC state: IDLE 0, ACTIVE 1, TERMINATED 2 (R42). -/
def cstateCode : CabacState → Nat
  | .idle => 0
  | .active => 1
  | .terminated => 2

/-- A one-bit flag as a number. -/
def flag (b : Bool) : Nat :=
  if b then 1 else 0

/-- The STATUS word (R33). -/
def State.statusWord (s : State) : Word :=
  BitVec.ofNat 32 (flag s.busy + 2 * flag s.err + 4 * flag s.sat + 16 * cstateCode s.cabac.state
    + 64 * flag s.bw.nalOpen + 256 * s.bitpos + 65536 * s.fifoCount)

/-- IRQ_PEND bit 0, ERR (R40). -/
def irqErr : BitVec 3 := 0b001

/-- IRQ_PEND bit 1, IDLE (R40). -/
def irqIdle : BitVec 3 := 0b010

/-- IRQ_PEND bit 2, NALDONE (R40). -/
def irqNalDone : BitVec 3 := 0b100

/-- Sets pending bits, enabled or not (R380). -/
def State.raiseIrq (s : State) (bits : BitVec 3) : State :=
  { s with irqPend := s.irqPend ||| bits }

/-- The interrupt output: the OR over i of IRQ_PEND[i] AND IRQ_EN[i] (R40). -/
def State.irqLine (s : State) : Bool :=
  s.irqPend &&& s.irqEn != 0

/-- Writes RESULT (R37). -/
def State.setResult (s : State) (n : Nat) : State :=
  { s with result := BitVec.ofNat 32 n }

/-- Sets STATUS.SAT if a level saturated, and never clears it (R50, R160). -/
def State.markSat (s : State) (saturated : Bool) : State :=
  { s with sat := s.sat || saturated }

end Sys2Proof.Machine
end

