-- ==== Sys2Proof/Machine/Ops.lean ====
section
/-! DEFINITION. The shared operations over the state: sparse memories, the buffer RAM and the output memory, error
entry (60_exceptions.md R372 to R376) and CLR_ERR beside it (R378), reset (R401), and the completion of a command. -/

namespace Sys2Proof.Machine

/-! ### Sparse memories -/

/-- The value listed at an address. -/
def cellAt {α : Type} : List (Nat × α) → Nat → Option α
  | [], _ => none
  | (k, v) :: m, a => if k = a then some v else cellAt m a

/-- Lists a value at an address, keeping the addresses rising. -/
def putCell {α : Type} : List (Nat × α) → Nat → α → List (Nat × α)
  | [], a, v => [(a, v)]
  | (k, w) :: m, a, v =>
    if a < k then (a, v) :: (k, w) :: m
    else if a = k then (a, v) :: m
    else (k, w) :: putCell m a v

/-- Lists nothing at an address. -/
def dropCell {α : Type} (m : List (Nat × α)) (a : Nat) : List (Nat × α) :=
  m.filter fun c => c.1 != a

/-- Addresses strictly rising and below a size. -/
def cellsRising {α : Type} (size : Nat) (m : List (Nat × α)) : Bool :=
  decide (m.Pairwise fun a b => a.1 < b.1) && m.all fun c => c.1 < size

/-! ### The output memory (R47, R92) -/

/-- What an unlisted byte of the output memory reads as (R47, R402). -/
def unlistedByte : Byte := 0x00

/-- The canonical form: rising addresses below OUT_SIZE, no byte that an unlisted address reads as. -/
def Memory.wf (m : Memory) : Bool :=
  cellsRising Config.outSize m && m.all fun c => c.2 != unlistedByte

/-- Reads one byte. -/
def Memory.read (m : Memory) (a : Nat) : Byte :=
  (cellAt m a).getD unlistedByte

/-- Writes one byte, keeping the canonical form. -/
def Memory.write (m : Memory) (a : Nat) (b : Byte) : Memory :=
  if b = unlistedByte then dropCell m a else putCell m a b

/-- Writes bytes at rising addresses from `a` on. -/
def Memory.writeAll (m : Memory) (a : Nat) : List Byte → Memory
  | [] => m
  | b :: bs => Memory.writeAll (m.write a b) (a + 1) bs

/-- Keeps the bytes below an address only. -/
def Memory.truncate (m : Memory) (a : Nat) : Memory :=
  m.filter fun c => c.1 < a

/-- The byte at offset k of the output memory: 0x00 at and above wptr (R47). -/
def State.outByte (s : State) (k : Nat) : Byte :=
  if k < s.wptr then s.out.read k else unlistedByte

/-- Four bytes as a word, the first in bits 7:0 (R83). -/
def littleEndian (b0 b1 b2 b3 : Byte) : Word :=
  b3 ++ b2 ++ b1 ++ b0

/-- Byte k (0..3) of a word (R83). -/
def byteOf (w : Word) (k : Nat) : Byte :=
  w.extractLsb' (8 * k) 8

/-! ### The buffer RAM (R45) -/

/-- The canonical form: rising word addresses below BRAM_WORDS. -/
def Bram.wf (m : Bram) : Bool :=
  cellsRising Config.bramWords m

/-- The word at an address, or none where its valid bit is 0. -/
def Bram.read (m : Bram) (a : Nat) : Option Word :=
  cellAt m a

/-- Writes a word and sets its valid bit. -/
def Bram.write (m : Bram) (a : Nat) (w : Word) : Bram :=
  putCell m a w

/-- Writes words at rising addresses from `a` on. -/
def Bram.writeAll (m : Bram) (a : Nat) : List Word → Bram
  | [] => m
  | w :: ws => Bram.writeAll (m.write a w) (a + 1) ws

/-- Writes a block of words to the buffer RAM. -/
def State.writeBlock (s : State) (a : Nat) (ws : List Word) : State :=
  { s with bram := s.bram.writeAll a ws }

/-! ### Errors: entry, and the way back -/

/-- The number of an error code (R371). -/
def errorNumber : ErrCode → Byte
  | .illegalOpcode => 0x01
  | .reservedNonzero => 0x02
  | .badField => 0x03
  | .qpRange => 0x04
  | .bramRange => 0x05
  | .uninitRead => 0x06
  | .inputRange => 0x07
  | .ctxRange => 0x08
  | .cabacState => 0x09
  | .nalState => 0x0A
  | .bwAlign => 0x0B
  | .outOverflow => 0x0C
  | .descOverflow => 0x0D
  | .emptyBlock => 0x0E
  | .valueRange => 0x0F
  | .outstOverflow => 0x10
  | .cmdqOverflow => 0x11
  | .hostBusyWrite => 0x12
  | .mmioAlign => 0x13
  | .mmioAccess => 0x14
  | .cfgValue => 0x15

/-- Records an error, the one entry for command, MMIO and host errors (R372, R375, R376): nothing changes while an
error is already recorded (R374). -/
def State.recordError (s : State) (e : ErrCode) (lo hi : Word) : State :=
  if s.err then s
  else { s with err := true, errcode := errorNumber e, errinfoLo := lo, errinfoHi := hi,
                irqPend := s.irqPend ||| irqErr }

/-- CLR_ERR, the recovery from an error (R378). -/
def State.clearError (s : State) : State :=
  { s with err := false, errcode := 0, errinfoLo := 0, errinfoHi := 0, fifo := [] }

/-- The reset of R402, by the reset input or by SOFT_RESET (R400, R401). The model's own fields are not the block's
and stay. -/
def State.resetBlock (s : State) : State :=
  { State.reset with agenda := s.agenda, readData := s.readData, draws := s.draws }

/-! ### The completion of a command -/

/-- The engine has completed a command without error: IDLE is set if the FIFO is then empty (R380). -/
def State.retire (s : State) : State :=
  if s.fifo.isEmpty then s.raiseIrq irqIdle else s

/-- The end of every command: its effect and completion, or its error and nothing else (R372). The command's own words
are those of its encoding. -/
def finish (i : Instr) (s : State) (effect : Except ErrCode State) : Host.Outcome State Fault Refusal :=
  match effect with
  | .ok t => .next t.retire
  | .error e => .next (s.recordError e (encode i).lo (encode i).hi)

/-- A check of a command: its error if the condition does not hold (R11, `raise Error`). -/
def require (condition : Bool) (e : ErrCode) : Except ErrCode Unit :=
  if condition then .ok () else .error e

end Sys2Proof.Machine
end

