-- ==== Sys2Proof/Machine/Tables.lean ====
section
/-! DEFINITION. The constant tables (10_state.md R52), as the spec's files print them. -/

namespace Sys2Proof.Machine

/-- MF4[qp%6][cls] (40_transform_quant.md R152). -/
def mf4 : List (List Nat) :=
  [[13107, 5243, 8066], [11916, 4660, 7490], [10082, 4194, 6554],
   [9362, 3647, 5825], [8192, 3355, 5243], [7282, 2893, 4559]]

/-- MF8[qp%6][cls] (R152). -/
def mf8 : List (List Nat) :=
  [[13107, 11428, 20972, 12222, 16777, 15481], [11916, 10826, 19174, 11058, 14980, 14290],
   [10082, 8943, 15978, 9675, 12710, 11985], [9362, 8228, 14913, 8931, 11984, 11259],
   [8192, 7346, 13159, 7740, 10486, 9777], [7282, 6428, 11570, 6830, 9118, 8640]]

/-- V4[qp%6][cls] (41_dequant_inverse.md R201). -/
def v4 : List (List Nat) :=
  [[10, 16, 13], [11, 18, 14], [13, 20, 16], [14, 23, 18], [16, 25, 20], [18, 29, 23]]

/-- V8[qp%6][cls] (R201). -/
def v8 : List (List Nat) :=
  [[20, 18, 32, 19, 25, 24], [22, 19, 35, 21, 28, 26], [26, 23, 42, 24, 33, 31],
   [28, 25, 45, 26, 35, 33], [32, 28, 51, 30, 40, 38], [36, 32, 58, 34, 46, 43]]

/-- The entry of a table of rows. -/
def entry (t : List (List Nat)) (row column : Nat) : Nat :=
  (t.getD row []).getD column 0

/-- QPC for qPI 30..51 (R153). -/
def qpcTable : List Nat :=
  [29, 30, 31, 32, 32, 33, 34, 34, 35, 35, 36, 36, 37, 37, 37, 38, 38, 38, 39, 39, 39, 39]

/-- ZZ4 (42_scan_runlevel.md R240). -/
def zz4 : List Nat :=
  [0, 1, 4, 8, 5, 2, 3, 6, 9, 12, 13, 10, 7, 11, 14, 15]

/-- ZZ8 (R240). -/
def zz8 : List Nat :=
  [0, 1, 8, 16, 9, 2, 3, 10, 17, 24, 32, 25, 18, 11, 4, 5,
   12, 19, 26, 33, 40, 48, 41, 34, 27, 20, 13, 6, 7, 14, 21, 28] ++
  [35, 42, 49, 56, 57, 50, 43, 36, 29, 22, 15, 23, 30, 37, 44, 51,
   58, 59, 52, 45, 38, 31, 39, 46, 53, 60, 61, 54, 47, 55, 62, 63]

/-- rangeTabLPS[pStateIdx][qIdx] (43_cabac_engine.md R261). -/
def rangeTabLPS : List (List Nat) :=
  [[128, 176, 208, 240], [128, 167, 197, 227], [128, 158, 187, 216], [123, 150, 178, 205],
   [116, 142, 169, 195], [111, 135, 160, 185], [105, 128, 152, 175], [100, 122, 144, 166],
   [95, 116, 137, 158], [90, 110, 130, 150], [85, 104, 123, 142], [81, 99, 117, 135],
   [77, 94, 111, 128], [73, 89, 105, 122], [69, 85, 100, 116], [66, 80, 95, 110]] ++
  [[62, 76, 90, 104], [59, 72, 86, 99], [56, 69, 81, 94], [53, 65, 77, 89],
   [51, 62, 73, 85], [48, 59, 69, 80], [46, 56, 66, 76], [43, 53, 63, 72],
   [41, 50, 59, 69], [39, 48, 56, 65], [37, 45, 54, 62], [35, 43, 51, 59],
   [33, 41, 48, 56], [32, 39, 46, 53], [30, 37, 43, 50], [29, 35, 41, 48]] ++
  [[27, 33, 39, 45], [26, 31, 37, 43], [24, 30, 35, 41], [23, 28, 33, 39],
   [22, 27, 32, 37], [21, 26, 30, 35], [20, 24, 29, 33], [19, 23, 27, 31],
   [18, 22, 26, 30], [17, 21, 25, 28], [16, 20, 23, 27], [15, 19, 22, 25],
   [14, 18, 21, 24], [14, 17, 20, 23], [13, 16, 19, 22], [12, 15, 18, 21]] ++
  [[12, 14, 17, 20], [11, 14, 16, 19], [11, 13, 15, 18], [10, 12, 15, 17],
   [10, 12, 14, 16], [9, 11, 13, 15], [9, 11, 12, 14], [8, 10, 12, 14],
   [8, 9, 11, 13], [7, 9, 11, 12], [7, 9, 10, 12], [7, 8, 10, 11],
   [6, 8, 9, 11], [6, 7, 9, 10], [6, 7, 8, 9], [2, 2, 2, 2]]

/-- transIdxLPS[pStateIdx] (R261). -/
def transIdxLPS : List Nat :=
  [0, 0, 1, 2, 2, 4, 4, 5, 6, 7, 8, 9, 9, 11, 11, 12,
   13, 13, 15, 15, 16, 16, 18, 18, 19, 19, 21, 21, 22, 22, 23, 24] ++
  [24, 25, 26, 26, 27, 27, 28, 29, 29, 30, 30, 30, 31, 32, 32, 33,
   33, 33, 34, 34, 35, 35, 35, 36, 36, 36, 37, 37, 37, 38, 38, 63]

/-- transIdxMPS[pStateIdx] (R261): pStateIdx + 1 up to 61, then pStateIdx. -/
def transIdxMPS (p : Nat) : Nat :=
  if p ≤ 61 then p + 1 else p

/-- SIG8 (44_cabac_residual.md R303). -/
def sig8 : List Nat :=
  [0, 1, 2, 3, 4, 5, 5, 4, 4, 3, 3, 4, 4, 4, 5, 5,
   4, 4, 4, 4, 3, 3, 6, 7, 7, 7, 8, 9, 10, 9, 8, 7] ++
  [7, 6, 11, 12, 13, 11, 6, 7, 8, 9, 14, 10, 9, 8, 6, 11,
   12, 13, 11, 6, 9, 14, 10, 9, 11, 12, 13, 11, 14, 10, 12]

/-- LAST8 (R303), all 79 entries as printed. R303 indexes it by i = 0..62 only, so the last sixteen are never used (log
11). -/
def last8 : List Nat :=
  [0, 1, 1, 1, 1, 1, 1, 1, 1, 1, 1, 1, 1, 1, 1, 1,
   2, 2, 2, 2, 2, 2, 2, 2, 2, 2, 2, 2, 2, 2, 2, 2] ++
  [2, 2, 2, 2, 2, 2, 2, 2, 2, 2, 2, 2, 2, 2, 2, 2,
   3, 3, 3, 3, 3, 3, 3, 3, 4, 4, 4, 4, 4, 4, 4, 4,
   5, 5, 5, 5, 6, 6, 6, 6, 7, 7, 7, 7, 8, 8, 8]

end Sys2Proof.Machine
end

