-- ==== Sys2Proof/Machine/Operands.lean ====
section
/-! DEFINITION. The operand forms of the commands: the field checks of R115, the BRAM blocks of R90 with their range,
valid-bit and input checks, the QP and scaling-list selection of R153, R154 and R44, and the storing of results. -/

namespace Sys2Proof.Machine

/-! ### Field values (R115) -/

/-- A value in lo..hi. -/
def within (lo hi v : Int) : Bool :=
  lo ≤ v && v ≤ hi

/-- The admitted QP register values: QPY 0..51, each offset -12..12 (R36, R115). -/
def qpAdmitted (qpy : Nat) (cboff croff : Int) : Bool :=
  qpy ≤ 51 && within (-12) 12 cboff && within (-12) 12 croff

/-- The third decode check of R114: the table of R115, with its errors. Of CINIT's two checks QP_RANGE comes first, as
R275 lists them. -/
def checkFields : Instr → Except ErrCode Unit
  | .setqp qpy cboff croff => require (qpAdmitted qpy.toNat cboff.toInt croff.toInt) .qpRange
  | .tq4 o => require (o.plane.toNat ≤ 2) .badField
  | .dq4 o => require (o.plane.toNat ≤ 2) .badField
  | .tq8 o => require (o.plane.toNat = 0 && !o.ac) .badField
  | .dq8 o => require (o.plane.toNat = 0 && !o.ac) .badField
  | .tqldc o => require (o.plane.toNat = 0 && !o.ac && o.intra) .badField
  | .dqldc o => require (o.plane.toNat = 0 && !o.ac && o.intra) .badField
  | .tqcdc o => require ((o.plane.toNat = 1 || o.plane.toNat = 2) && !o.ac) .badField
  | .dqcdc o => require ((o.plane.toNat = 1 || o.plane.toNat = 2) && !o.ac) .badField
  | .rlscan _ _ cat => require (cat.toNat ≤ 5) .badField
  | .cres _ cat _ codeCbf => require (cat.toNat ≤ 5 && !(cat.toNat = 5 && codeCbf)) .badField
  | .cinit model sliceqp eng => do
    require (sliceqp.toNat ≤ 51) .qpRange
    require (!eng || (model.toNat = 0 && sliceqp.toNat = 0)) .badField
  | .cdec ctx _ => require (ctx.toNat < Config.nCtx && ctx.toNat ≠ 276) .ctxRange
  | .putb n _ => require (n.toNat ≤ 32) .badField
  | .cbypn n _ => require (n.toNat ≤ 32) .badField
  | .nalb _ nalType => require (nalType.toNat ≠ 0) .badField
  | .putbytes _ count => require (count.toNat ≤ 1024) .badField
  | .nop | .cbyp _ | .cterm _ | .nale | .nalx | .putue _ | .putse _ | .align | .trail => .ok ()

/-! ### Blocks in the buffer RAM (R90, R45) -/

/-- A block of len words from a on lies in the buffer RAM, else BRAM_RANGE (R90). -/
def checkRange (a len : Nat) : Except ErrCode Unit :=
  require (a + len ≤ Config.bramWords) .bramRange

/-- The words at the given addresses, in that order; UNINIT_READ if the valid bit of one is 0 (R45). -/
def readWords (m : Bram) : List Nat → Except ErrCode (List Word)
  | [] => .ok []
  | a :: as =>
    match m.read a with
    | none => .error .uninitRead
    | some w => do
      let ws ← readWords m as
      .ok (w :: ws)

/-- The addresses of a block of len words. -/
def blockAddrs (a len : Nat) : List Nat :=
  (List.range len).map (a + ·)

/-- The range checks of a source and a destination block and then the words of the source (R150). -/
def readBlock (m : Bram) (src dst len : Nat) : Except ErrCode (List Word) := do
  checkRange src len
  checkRange dst len
  readWords m (blockAddrs src len)

/-- Every value lies in lo..hi, else INPUT_RANGE (R161, R200, R242). -/
def checkInput (lo hi : Int) (xs : List Int) : Except ErrCode Unit :=
  require (xs.all (within lo hi)) .inputRange

/-! ### QP and scaling list -/

/-- Clip3 (R10). -/
def clip3 (lo hi v : Int) : Int :=
  min hi (max lo v)

/-- QPC of an index qPI in 0..51 (R153). -/
def qpcOf (qPI : Nat) : Nat :=
  if qPI < 30 then qPI else qpcTable.getD (qPI - 30) 0

/-- The QP a command uses for a plane: QPY for 0, QPC for 1 (Cb) and 2 (Cr) (R153, R154). -/
def qpOf (s : State) (plane : Nat) : Nat :=
  if plane = 0 then s.qpy
  else qpcOf (clip3 0 51 (s.qpy + if plane = 1 then s.cboff else s.croff)).toNat

/-- The 4x4 scaling list of a command (R44). -/
def list4 (intra : Bool) (plane : Nat) : Nat :=
  (if intra then 0 else 3) + plane

/-- The 8x8 scaling list of a command (R44). -/
def list8 (intra : Bool) : Nat :=
  if intra then 6 else 7

/-- The words of a chroma DC block, one for each 4x4 chroma block of a macroblock (R159, R241). -/
abbrev chromaDcWords : Nat :=
  match Config.chromaFormat with
  | .yuv420 => 4

/-- NumC8x8 (R303). -/
abbrev numC8x8 : Nat :=
  match Config.chromaFormat with
  | .yuv420 => 1

/-- A byte of the scaling RAM. -/
def scalByte (s : State) (k : Nat) : Byte :=
  s.scal[k]?.getD 0

/-- The weight scal[list][k], list 0..7 (R44). -/
def weight (s : State) (list k : Nat) : Nat :=
  (scalByte s (if list < Config.nScalingLists4 then 16 * list + k
    else 16 * Config.nScalingLists4 + 64 * (list - Config.nScalingLists4) + k)).toNat

/-- The lossless bypass: CTRL.LOSSLESS = 1 and QPY = 0 (R156). -/
def State.bypass (s : State) : Bool :=
  s.lossless && s.qpy = 0

/-! ### Block arithmetic shared by the two transform families -/

/-- The n rows of n elements of a raster block (R12). -/
def rowsOf {α : Type} (n : Nat) (xs : List α) : List (List α) :=
  (List.range n).map fun r => (xs.drop (n * r)).take n

/-- Rows and columns exchanged, for n columns. -/
def transposed {α : Type} [Inhabited α] (n : Nat) (rows : List (List α)) : List (List α) :=
  (List.range n).map fun c => rows.map fun row => row.getD c default

/-- A one-dimensional transform on each row, then on each column of the result (R12, R151, R157, R204, R206), from
raster to raster. -/
def rowsThenColumns {α : Type} [Inhabited α] (n : Nat) (f : List α → List α) (xs : List α) : List α :=
  (transposed n ((transposed n ((rowsOf n xs).map f)).map f)).flatten

/-- The product with H4 (R158) of a row of four. -/
def hadamard4 {α : Type} [Add α] [Sub α] : List α → List α
  | [a, b, c, d] => [a + b + c + d, a + b - c - d, a - b - c + d, a - b + c - d]
  | xs => xs

/-- The product with H2 (R159) of a row of two. -/
def hadamard2 {α : Type} [Add α] [Sub α] : List α → List α
  | [a, b] => [a + b, a - b]
  | xs => xs

/-- The 4x4 position class (R152). -/
def cls4 (r c : Nat) : Nat :=
  if r % 2 = 0 ∧ c % 2 = 0 then 0
  else if r % 2 = 1 ∧ c % 2 = 1 then 1
  else 2

/-- The 8x8 position class (R152). -/
def cls8 (r c : Nat) : Nat :=
  if r % 4 = 0 ∧ c % 4 = 0 then 0
  else if r % 2 = 1 ∧ c % 2 = 1 then 1
  else if r % 4 = 2 ∧ c % 4 = 2 then 2
  else if (r % 4 = 0 ∧ c % 2 = 1) ∨ (r % 2 = 1 ∧ c % 4 = 0) then 3
  else if (r % 4 = 0 ∧ c % 4 = 2) ∨ (r % 4 = 2 ∧ c % 4 = 0) then 4
  else 5

/-! ### Bits of a value (R328) -/

/-- The n low bits of a value, from bit n-1 down to bit 0. -/
def bitsMsb (n v : Nat) : List Bool :=
  (List.range n).reverse.map v.testBit

end Sys2Proof.Machine
end

