-- ==== Sys2Proof/Machine/Control.lean ====
section
/-! DEFINITION. The control commands NOP and SETQP (46_control.md). -/

namespace Sys2Proof.Machine

/-- NOP (R360). -/
def execNop (s : State) : Host.Outcome State Fault Refusal :=
  finish .nop s (.ok s)

/-- Stores the QP register's fields (R36). -/
def State.setQp (s : State) (qpy : Nat) (cboff croff : Int) : State :=
  { s with qpy := qpy, cboff := cboff, croff := croff }

/-- SETQP (R361). -/
def execSetqp (qpy : BitVec 6) (cboff croff : BitVec 5) (s : State) : Host.Outcome State Fault Refusal :=
  finish (.setqp qpy cboff croff) s (do
    checkFields (.setqp qpy cboff croff)
    .ok (s.setQp qpy.toNat cboff.toInt croff.toInt))

end Sys2Proof.Machine
end

