-- ==== Sys2Proof/Machine/Forward.lean ====
section
/-! DEFINITION. Forward transform and quantization: TQ4, TQ8, TQLDC, TQCDC (40_transform_quant.md). Values are exact
integers (R13, R161). -/

namespace Sys2Proof.Machine

/-- The 1-D butterfly t4 (R151). -/
def t4 : List Int → List Int
  | [a0, a1, a2, a3] =>
    let s03 := a0 + a3
    let s12 := a1 + a2
    let d03 := a0 - a3
    let d12 := a1 - a2
    [s03 + s12, 2 * d03 + d12, s03 - s12, d03 - 2 * d12]
  | xs => xs

/-- The 1-D butterfly t8 (R157); `>>>` on Int is the arithmetic shift of R10. -/
def t8 : List Int → List Int
  | [s0, s1, s2, s3, s4, s5, s6, s7] =>
    let s07 := s0 + s7
    let s16 := s1 + s6
    let s25 := s2 + s5
    let s34 := s3 + s4
    let a0 := s07 + s34
    let a1 := s16 + s25
    let a2 := s07 - s34
    let a3 := s16 - s25
    let d07 := s0 - s7
    let d16 := s1 - s6
    let d25 := s2 - s5
    let d34 := s3 - s4
    let a4 := d16 + d25 + (d07 + (d07 >>> 1))
    let a5 := d07 - d34 - (d25 + (d25 >>> 1))
    let a6 := d07 + d34 - (d16 + (d16 >>> 1))
    let a7 := d16 - d25 + (d34 + (d34 >>> 1))
    [a0 + a1, a4 + (a7 >>> 2), a2 + (a3 >>> 1), a5 + (a6 >>> 2),
     a0 - a1, a6 - (a5 >>> 2), (a2 >>> 1) - a3, (a4 >>> 2) - a7]
  | xs => xs

/-- T4(X) (R151). -/
def forward4 (xs : List Int) : List Int :=
  rowsThenColumns 4 t4 xs

/-- T8(X) (R157). -/
def forward8 (xs : List Int) : List Int :=
  rowsThenColumns 8 t8 xs

/-- TLDC(X): (H4 X H4 + 1) >> 1 (R158). -/
def forwardLumaDc (xs : List Int) : List Int :=
  (rowsThenColumns 4 hadamard4 xs).map fun (z : Int) => (z + 1) >>> 1

/-- TCDC(X): H2 X H2 (R159). -/
def forwardChromaDc (xs : List Int) : List Int :=
  rowsThenColumns 2 hadamard2 xs

/-- The rounding offset f(qbits, intra) (R155), from QROUND_INTRA and QROUND_INTER. -/
def roundOffset (qbits : Nat) (intra : Bool) : Nat :=
  let q := if intra then Config.qroundIntra else Config.qroundInter
  2 ^ qbits * q.1 / q.2

/-- The weighted factor MFw(MF, w) (R155). A weight is never 0 (R44). -/
def weightedFactor (mf w : Nat) : Nat :=
  (mf * 16 + w / 2) / w

/-- The quantizer Q(Y, m, s, f) (R160): the level, and whether it saturated. -/
def quantize (y : Int) (m s f : Nat) : Int × Bool :=
  let lv := y.sign * (((y.natAbs * m + f) / 2 ^ s : Nat) : Int)
  if 32767 < lv ∨ lv < -32768 then (clip3 (-32768) 32767 lv, true) else (lv, false)

/-- The levels of a block of coefficients, the k-th with its own factor (R160). -/
def quantizeBlock (factor : Nat → Nat) (s f : Nat) (ys : List Int) : List (Int × Bool) :=
  ys.mapIdx fun k y => quantize y (factor k) s f

/-- The levels of TQ4 (R162). With ac = 1 element 0 is the raw transform DC. -/
def levels4 (s : State) (intra : Bool) (plane : Nat) (ac : Bool) (xs : List Int) : List (Int × Bool) :=
  let qp := qpOf s plane
  let qb := 15 + qp / 6
  let factor := fun k => weightedFactor (entry mf4 (qp % 6) (cls4 (k / 4) (k % 4))) (weight s (list4 intra plane) k)
  let ys := forward4 xs
  let ls := quantizeBlock factor qb (roundOffset qb intra) ys
  if ac then (ys.getD 0 0, false) :: ls.drop 1 else ls

/-- The levels of TQ8 (R163). -/
def levels8 (s : State) (intra : Bool) (xs : List Int) : List (Int × Bool) :=
  let qp := qpOf s 0
  let qb := 16 + qp / 6
  let factor := fun k => weightedFactor (entry mf8 (qp % 6) (cls8 (k / 8) (k % 8))) (weight s (list8 intra) k)
  quantizeBlock factor qb (roundOffset qb intra) (forward8 xs)

/-- The DC factor: class 0 of MF4, weight 0 of the list (R160). -/
def dcFactor (s : State) (qp list : Nat) : Nat :=
  weightedFactor (entry mf4 (qp % 6) 0) (weight s list 0)

/-- The levels of TQLDC (R164). -/
def levelsLumaDc (s : State) (xs : List Int) : List (Int × Bool) :=
  let qp := qpOf s 0
  let qb := 15 + qp / 6
  quantizeBlock (fun _ => dcFactor s qp 0) (qb + 1) (2 * roundOffset qb true) (forwardLumaDc xs)

/-- The levels of TQCDC (R165). -/
def levelsChromaDc (s : State) (intra : Bool) (plane : Nat) (xs : List Int) : List (Int × Bool) :=
  let qp := qpOf s plane
  let qb := 15 + qp / 6
  quantizeBlock (fun _ => dcFactor s qp (list4 intra plane)) (qb + 1) (2 * roundOffset qb intra) (forwardChromaDc xs)

/-- How many of the levels RESULT counts: the non-zero ones, without element 0 when ac = 1 (R162 to R165). -/
def countLevels (ac : Bool) (ls : List Int) : Nat :=
  ((if ac then ls.drop 1 else ls).filter (· ≠ 0)).length

/-- Stores the levels, RESULT and SAT (R150). -/
def storeLevels (s : State) (dst : Nat) (ac : Bool) (ls : List (Int × Bool)) : State :=
  (((s.writeBlock dst (ls.map fun l => BitVec.ofInt 32 l.1)).setResult (countLevels ac (ls.map Prod.fst))).markSat
    (ls.any Prod.snd))

/-- The template of the family (R150): checks in its order, the lossless bypass (R156) or the levels, the results. -/
def forwardBlock (i : Instr) (o : TOps) (len : Nat) (bound : Int) (levels : List Int → List (Int × Bool)) (s : State) :
    Except ErrCode State := do
  checkFields i
  let ws ← readBlock s.bram o.src.toNat o.dst.toNat len
  let xs := ws.map BitVec.toInt
  checkInput (-bound) bound xs
  .ok (storeLevels s o.dst.toNat o.ac (if s.bypass then xs.map fun x => (x, false) else levels xs))

/-- The largest magnitude of a residual, the difference of two samples (R161). -/
def residualBound : Int :=
  2 ^ Config.bitDepth - 1

/-- The largest magnitude of a core-transform DC, a sum of 16 residuals (R161). -/
def dcBound : Int :=
  16 * residualBound

/-- TQ4 (R162). -/
def execTq4 (o : TOps) (s : State) : Host.Outcome State Fault Refusal :=
  finish (.tq4 o) s (forwardBlock (.tq4 o) o 16 residualBound (levels4 s o.intra o.plane.toNat o.ac) s)

/-- TQ8 (R163). -/
def execTq8 (o : TOps) (s : State) : Host.Outcome State Fault Refusal :=
  finish (.tq8 o) s (forwardBlock (.tq8 o) o 64 residualBound (levels8 s o.intra) s)

/-- TQLDC (R164). -/
def execTqldc (o : TOps) (s : State) : Host.Outcome State Fault Refusal :=
  finish (.tqldc o) s (forwardBlock (.tqldc o) o 16 dcBound (levelsLumaDc s) s)

/-- TQCDC (R165). -/
def execTqcdc (o : TOps) (s : State) : Host.Outcome State Fault Refusal :=
  finish (.tqcdc o) s (forwardBlock (.tqcdc o) o chromaDcWords dcBound (levelsChromaDc s o.intra o.plane.toNat) s)

end Sys2Proof.Machine
end

