-- ==== Sys2Proof/Machine/Inverse.lean ====
section
/-! DEFINITION. Dequantization and inverse transform: DQ4, DQ8, DQLDC, DQCDC (41_dequant_inverse.md). Values are int32
words whose +, -, * and << wrap (R13, R200); >> is the arithmetic shift. -/

namespace Sys2Proof.Machine

/-- The arithmetic right shift of an int32 (R10). -/
def sar (w : Word) (k : Nat) : Word :=
  w.sshiftRight k

/-- A non-negative constant as an int32. -/
def int32 (n : Nat) : Word :=
  BitVec.ofNat 32 n

/-- LS4(qp, list, k) (R202). -/
def levelScale4 (s : State) (qp list k : Nat) : Word :=
  int32 (weight s list k * entry v4 (qp % 6) (cls4 (k / 4) (k % 4)))

/-- LS8(qp, list, k) (R202). -/
def levelScale8 (s : State) (qp list k : Nat) : Word :=
  int32 (weight s list k * entry v8 (qp % 6) (cls8 (k / 8) (k % 8)))

/-- Scales x by ls and 2 to the qp/6, over 2 to the `unit`: exactly from qp/6 = unit on, rounded below (the form of
R203, R205 and R207). -/
def scale (unit qp : Nat) (x ls : Word) : Word :=
  if unit ≤ qp / 6 then (x * ls) <<< (qp / 6 - unit)
  else sar (x * ls + int32 (2 ^ (unit - 1 - qp / 6))) (unit - qp / 6)

/-- DQ4c(c, k) (R203). -/
def dequant4 (s : State) (qp list k : Nat) (c : Word) : Word :=
  scale 4 qp c (levelScale4 s qp list k)

/-- DQ8c(c, k) (R205). -/
def dequant8 (s : State) (qp list k : Nat) (c : Word) : Word :=
  scale 6 qp c (levelScale8 s qp list k)

/-- dcY(f) (R207). -/
def dequantLumaDc (s : State) (qp : Nat) (f : Word) : Word :=
  scale 6 qp f (levelScale4 s qp 0 0)

/-- dcC(f) (R208). -/
def dequantChromaDc (s : State) (qpc list : Nat) (f : Word) : Word :=
  sar ((f * levelScale4 s qpc list 0) <<< (qpc / 6)) 5

/-- The 1-D butterfly it4 (R204). -/
def it4 : List Word → List Word
  | [d0, d1, d2, d3] =>
    let e0 := d0 + d2
    let e1 := d0 - d2
    let e2 := sar d1 1 - d3
    let e3 := d1 + sar d3 1
    [e0 + e3, e1 + e2, e1 - e2, e0 - e3]
  | ds => ds

/-- The 1-D butterfly it8 (R206). -/
def it8 : List Word → List Word
  | [d0, d1, d2, d3, d4, d5, d6, d7] =>
    let a0 := d0 + d4
    let a4 := d0 - d4
    let a2 := sar d2 1 - d6
    let a6 := d2 + sar d6 1
    let b0 := a0 + a6
    let b2 := a4 + a2
    let b4 := a4 - a2
    let b6 := a0 - a6
    let a1 := -d3 + d5 - d7 - sar d7 1
    let a3 := d1 + d7 - d3 - sar d3 1
    let a5 := -d1 + d7 + d5 + sar d5 1
    let a7 := d3 + d5 + d1 + sar d1 1
    let b1 := a1 + sar a7 2
    let b7 := a7 - sar a1 2
    let b3 := a3 + sar a5 2
    let b5 := sar a3 2 - a5
    [b0 + b7, b2 + b5, b4 + b3, b6 + b1, b6 - b1, b4 - b3, b2 - b5, b0 - b7]
  | ds => ds

/-- The final rounding (h + 32) >> 6 of R204 and R206. -/
def roundResidual (h : Word) : Word :=
  sar (h + 32) 6

/-- IT4(D) (R204). -/
def inverse4 (ds : List Word) : List Word :=
  (rowsThenColumns 4 it4 ds).map roundResidual

/-- IT8(D) (R206). -/
def inverse8 (ds : List Word) : List Word :=
  (rowsThenColumns 8 it8 ds).map roundResidual

/-- The residuals of DQ4 (R210). With ac = 1 element 0 is a dequantized DC already. -/
def residual4 (s : State) (intra : Bool) (plane : Nat) (ac : Bool) (cs : List Word) : List Word :=
  inverse4 (cs.mapIdx fun k c => if ac ∧ k = 0 then c else dequant4 s (qpOf s plane) (list4 intra plane) k c)

/-- The residuals of DQ8 (R211). -/
def residual8 (s : State) (intra : Bool) (cs : List Word) : List Word :=
  inverse8 (cs.mapIdx fun k c => dequant8 s (qpOf s 0) (list8 intra) k c)

/-- The DCs of DQLDC (R212). -/
def residualLumaDc (s : State) (cs : List Word) : List Word :=
  (rowsThenColumns 4 hadamard4 cs).map (dequantLumaDc s (qpOf s 0))

/-- The DCs of DQCDC (R213). -/
def residualChromaDc (s : State) (intra : Bool) (plane : Nat) (cs : List Word) : List Word :=
  (rowsThenColumns 2 hadamard2 cs).map (dequantChromaDc s (qpOf s plane) (list4 intra plane))

/-- The template of the family (R150 with the differences of R200): the input range is int16, but for element 0 of a
command with ac = 1 (which DQ4 alone admits); only the destination block is written. -/
def inverseBlock (i : Instr) (o : TOps) (len : Nat) (residuals : List Word → List Word) (s : State) :
    Except ErrCode State := do
  checkFields i
  let cs ← readBlock s.bram o.src.toNat o.dst.toNat len
  checkInput (-32768) 32767 ((if o.ac then cs.drop 1 else cs).map BitVec.toInt)
  .ok (s.writeBlock o.dst.toNat (if s.bypass then cs else residuals cs))

/-- DQ4 (R210). -/
def execDq4 (o : TOps) (s : State) : Host.Outcome State Fault Refusal :=
  finish (.dq4 o) s (inverseBlock (.dq4 o) o 16 (residual4 s o.intra o.plane.toNat o.ac) s)

/-- DQ8 (R211). -/
def execDq8 (o : TOps) (s : State) : Host.Outcome State Fault Refusal :=
  finish (.dq8 o) s (inverseBlock (.dq8 o) o 64 (residual8 s o.intra) s)

/-- DQLDC (R212). -/
def execDqldc (o : TOps) (s : State) : Host.Outcome State Fault Refusal :=
  finish (.dqldc o) s (inverseBlock (.dqldc o) o 16 (residualLumaDc s) s)

/-- DQCDC (R213). -/
def execDqcdc (o : TOps) (s : State) : Host.Outcome State Fault Refusal :=
  finish (.dqcdc o) s (inverseBlock (.dqcdc o) o chromaDcWords (residualChromaDc s o.intra o.plane.toNat) s)

end Sys2Proof.Machine
end

