-- ==== Sys2Proof/Machine/Writer.lean ====
section
/-! DEFINITION. The bit writer and emulation prevention (45_bitstream_nal.md R321 to R335): the shared operations of
every command that produces bits. A command's bytes are computed first and checked against OUT_SIZE once, as R321
allows. -/

namespace Sys2Proof.Machine

/-- Eight bits as a byte, the first in bit 7 (R324, R328). -/
def byteOfBits (bits : List Bool) : Byte :=
  BitVec.ofNat 8 (bits.foldl (fun v b => 2 * v + flag b) 0)

/-- EmitByte(b) (R326): the bit writer after it, and the bytes it passes to OutByte. -/
def emitByte (w : BitWriter) (b : Byte) : BitWriter × List Byte :=
  let inserted := 2 ≤ w.zeros ∧ b.toNat ≤ 0x03
  let z := if inserted then 0 else w.zeros
  ({ w with zeros := if b = 0x00 then min 2 (z + 1) else 0, lastZero := b = 0x00 },
   if inserted then [0x03, b] else [b])

/-- PutBitRaw(b) (R324). -/
def putBitRaw (w : BitWriter) (b : Bool) : BitWriter × List Byte :=
  let acc := w.acc ++ [b]
  let w := { w with nalBits := w.nalBits + 1 }
  if acc.length = 8 then emitByte { w with acc := [] } (byteOfBits acc) else ({ w with acc := acc }, [])

/-- PutBitRaw of each bit in turn. -/
def putBitsRaw (w : BitWriter) : List Bool → BitWriter × List Byte
  | [] => (w, [])
  | b :: bs =>
    let first := putBitRaw w b
    let rest := putBitsRaw first.1 bs
    (rest.1, first.2 ++ rest.2)

/-- EmitByte of each byte in turn, with the count of R349: 8 bits for each. -/
def emitBytes (w : BitWriter) : List Byte → BitWriter × List Byte
  | [] => (w, [])
  | b :: bs =>
    let first := emitByte w b
    let rest := emitBytes { first.1 with nalBits := first.1.nalBits + 8 } bs
    (rest.1, first.2 ++ rest.2)

/-- OutByte of each byte in turn, or OUT_OVERFLOW (R321, R92). -/
def outBytes (s : State) (bytes : List Byte) : Except ErrCode State :=
  if s.wptr + bytes.length ≤ Config.outSize then
    .ok { s with out := s.out.writeAll s.wptr bytes, wptr := s.wptr + bytes.length }
  else .error .outOverflow

/-- Writes raw bits through the bit writer (R324). -/
def writeBits (s : State) (bits : List Bool) : Except ErrCode State :=
  let r := putBitsRaw s.bw bits
  outBytes { s with bw := r.1 } r.2

/-- The checks of the raw bit commands, in this order (R335). -/
def checkRawBits (s : State) : Except ErrCode Unit := do
  require s.bw.nalOpen .nalState
  require (s.cabac.state ≠ .active) .cabacState

/-- The 0 bits up to the next byte boundary after n pending bits (R332). -/
def padding (n : Nat) : List Bool :=
  List.replicate ((8 - n % 8) % 8) false

/-- ue(v) of a codeNum k (R330). -/
def ueBits (k : Nat) : List Bool :=
  let x := k + 1
  let lz := Nat.log2 x
  List.replicate lz false ++ bitsMsb (lz + 1) x

/-- The codeNum of a signed value (R331). -/
def seCodeNum (v : Int) : Nat :=
  if 0 < v then (2 * v - 1).toNat else (-2 * v).toNat

/-- NAL abort, the common action of NALX and of OUT_RESET with a NAL open (R334). -/
def State.abortNal (s : State) : State :=
  { s with
    out := s.out.truncate s.bw.nalStart.toNat
    wptr := s.bw.nalStart.toNat
    bw := { s.bw with nalOpen := false, acc := [], zeros := 0, lastZero := false, nalBits := 0, hdr := 0 }
    cabac := { s.cabac with state := .idle } }

/-- OUT_RESET (R341): every byte of out is then at or above wptr. -/
def State.resetOutput (s : State) : State :=
  let t := if s.bw.nalOpen then s.abortNal else s
  { t with
    cabac := { t.cabac with state := .idle }
    out := []
    wptr := 0
    desc := []
    bw := { t.bw with nalStart := 0, nalBits := 0 } }

end Sys2Proof.Machine
end

