-- ==== Sys2Proof/Machine/Nal.lean ====
section
/-! DEFINITION. The NAL framing and raw bit commands: NALB, NALE, NALX, PUTB, PUTUE, PUTSE, ALIGN, TRAIL, PUTBYTES
(45_bitstream_nal.md). -/

namespace Sys2Proof.Machine

/-- The NAL header byte (R322). -/
def nalHeader (refIdc : BitVec 2) (nalType : BitVec 5) : Byte :=
  0#1 ++ refIdc ++ nalType

/-- The effect of NALB (R340). -/
def nalbEffect (refIdc : BitVec 2) (nalType : BitVec 5) (s : State) : Except ErrCode State := do
  require (!s.bw.nalOpen) .nalState
  require (s.nalCount ≠ Config.descDepth) .descOverflow
  let hdr := nalHeader refIdc nalType
  let t ← outBytes s [hdr]
  .ok { t with bw := ⟨true, [], 0, false, BitVec.ofNat 32 s.wptr, 0, hdr⟩ }

/-- NALB (R340). -/
def execNalb (refIdc : BitVec 2) (nalType : BitVec 5) (s : State) : Host.Outcome State Fault Refusal :=
  finish (.nalb refIdc nalType) s (do
    checkFields (.nalb refIdc nalType)
    nalbEffect refIdc nalType s)

/-- The open unit is recorded and closed; nal_start, nal_bits and hdr keep its values (R342, R333). -/
def State.closeNal (s : State) : State :=
  let start := s.bw.nalStart.toNat
  let closed : Desc := ⟨start, s.wptr - start, s.bw.hdr⟩
  let t : State := { s with
    desc := s.desc ++ [closed]
    bw := { s.bw with nalOpen := false, zeros := 0, lastZero := false }
    cabac := { s.cabac with state := .idle } }
  t.raiseIrq irqNalDone

/-- The effect of NALE (R342, R329). -/
def naleEffect (s : State) : Except ErrCode State := do
  require s.bw.nalOpen .nalState
  require (s.bw.acc.length = 0) .bwAlign
  require (s.cabac.state ≠ .active) .cabacState
  let t ← outBytes s (if s.bw.lastZero then [0x03] else [])
  .ok t.closeNal

/-- NALE (R342). -/
def execNale (s : State) : Host.Outcome State Fault Refusal :=
  finish .nale s (naleEffect s)

/-- The effect of NALX (R343). -/
def nalxEffect (s : State) : Except ErrCode State := do
  require s.bw.nalOpen .nalState
  .ok s.abortNal

/-- NALX (R343). A NALX that empties the FIFO sets IDLE, as every command does (R380; log 18). -/
def execNalx (s : State) : Host.Outcome State Fault Refusal :=
  finish .nalx s (nalxEffect s)

/-- PUTB (R344). -/
def execPutb (n : BitVec 6) (value : Word) (s : State) : Host.Outcome State Fault Refusal :=
  finish (.putb n value) s (do
    checkFields (.putb n value)
    checkRawBits s
    writeBits s (bitsMsb n.toNat value.toNat))

/-- PUTUE (R345). -/
def execPutue (value : Word) (s : State) : Host.Outcome State Fault Refusal :=
  finish (.putue value) s (do
    checkRawBits s
    require (value.toNat ≠ 2 ^ 32 - 1) .valueRange
    writeBits s (ueBits value.toNat))

/-- PUTSE (R346). -/
def execPutse (value : Word) (s : State) : Host.Outcome State Fault Refusal :=
  finish (.putse value) s (do
    checkRawBits s
    require (value.toInt ≠ -2 ^ 31) .valueRange
    writeBits s (ueBits (seCodeNum value.toInt)))

/-- ALIGN (R347). -/
def execAlign (s : State) : Host.Outcome State Fault Refusal :=
  finish .align s (do
    checkRawBits s
    writeBits s (padding s.bitpos))

/-- TRAIL (R348). -/
def execTrail (s : State) : Host.Outcome State Fault Refusal :=
  finish .trail s (do
    checkRawBits s
    writeBits s (true :: padding (s.bitpos + 1)))

/-- The effect of PUTBYTES (R349). -/
def putbytesEffect (src count : Nat) (s : State) : Except ErrCode State := do
  checkRawBits s
  require (s.bw.acc.length = 0) .bwAlign
  require (count = 0 || src + count ≤ Config.bramWords) .bramRange
  let ws ← readWords s.bram (blockAddrs src count)
  let r := emitBytes s.bw (ws.map fun w => byteOf w 0)
  outBytes { s with bw := r.1 } r.2

/-- PUTBYTES (R349). -/
def execPutbytes (src : BitVec 10) (count : BitVec 11) (s : State) : Host.Outcome State Fault Refusal :=
  finish (.putbytes src count) s (do
    checkFields (.putbytes src count)
    putbytesEffect src.toNat count.toNat s)

end Sys2Proof.Machine
end

