-- ==== Sys2Proof/Machine/Coder.lean ====
section
/-! DEFINITION. The CABAC arithmetic coder (43_cabac_engine.md R265 to R272) and its commands CINIT, CDEC, CBYP, CBYPN,
CTERM. A command's bins are coded over a working copy of the coder that collects the bits for PutBitRaw; the bits are
then written (R324). OUTST_OVERFLOW is found while coding, OUT_OVERFLOW when the bits are written (log 8). -/

namespace Sys2Proof.Machine

/-- The coder at work: its registers and contexts, and the bits passed to PutBitRaw so far, oldest first. -/
structure Coder where
  range : Nat
  low : Nat
  outst : Nat
  first : Bool
  ctx : Vector Ctx Config.nCtx
  bits : List Bool
  deriving DecidableEq, Repr

/-- One bin to code: context coded, bypass, or terminate. -/
inductive Bin where
  | decision (ctxIdx : Nat) (bin : Bool)
  | bypass (bin : Bool)
  | terminate (bin : Bool)
  deriving DecidableEq, Repr

/-- PutBit(b) (R268). -/
def putBit (c : Coder) (b : Bool) : Coder :=
  { c with
    first := false
    outst := 0
    bits := c.bits ++ (if c.first then [] else [b]) ++ List.replicate c.outst (!b) }

/-- outst <- outst + 1, or OUTST_OVERFLOW (R272). -/
def addOutstanding (c : Coder) : Except ErrCode Coder :=
  if c.outst + 1 ≤ Config.outstMax then .ok { c with outst := c.outst + 1 } else .error .outstOverflow

/-- The body of RenormE's loop (R265). -/
def renormStep (c : Coder) : Except ErrCode Coder := do
  let d ←
    if c.low < 256 then .ok (putBit c false)
    else if 512 ≤ c.low then .ok (putBit { c with low := c.low - 512 } true)
    else addOutstanding { c with low := c.low - 256 }
  .ok { d with range := 2 * d.range, low := 2 * d.low }

/-- At most `fuel` turns of RenormE's loop (R265). -/
def renormLoop : Nat → Coder → Except ErrCode Coder
  | 0, c => .ok c
  | fuel + 1, c =>
    if c.range < 256 then do
      let d ← renormStep c
      renormLoop fuel d
    else .ok c

/-- RenormE (R265). A range of 1 or more reaches 256 in at most 8 turns. -/
def renorm (c : Coder) : Except ErrCode Coder :=
  renormLoop 8 c

/-- A context of the bank. -/
def ctxAt (ctx : Vector Ctx Config.nCtx) (i : Nat) : Ctx :=
  ctx[i]?.getD ⟨0, false⟩

/-- EncodeDecision(ctxIdx, bin) (R266). -/
def encodeDecision (c : Coder) (ctxIdx : Nat) (bin : Bool) : Except ErrCode Coder :=
  let x := ctxAt c.ctx ctxIdx
  let rLPS := entry rangeTabLPS x.pStateIdx (c.range / 64 % 4)
  let range := c.range - rLPS
  if bin ≠ x.valMPS then
    let y : Ctx := ⟨transIdxLPS.getD x.pStateIdx 0, if x.pStateIdx = 0 then !x.valMPS else x.valMPS⟩
    renorm { c with low := c.low + range, range := rLPS, ctx := c.ctx.setIfInBounds ctxIdx y }
  else
    renorm { c with range := range, ctx := c.ctx.setIfInBounds ctxIdx ⟨transIdxMPS x.pStateIdx, x.valMPS⟩ }

/-- EncodeBypass(bin) (R267). -/
def encodeBypass (c : Coder) (bin : Bool) : Except ErrCode Coder :=
  let low := 2 * c.low + if bin then c.range else 0
  if 1024 ≤ low then .ok { putBit c true with low := low - 1024 }
  else if low < 512 then .ok { putBit c false with low := low }
  else addOutstanding { c with low := low - 512 }

/-- EncodeFlush (R269). -/
def encodeFlush (c : Coder) : Except ErrCode Coder := do
  let d ← renorm { c with range := 2 }
  let e := putBit d (d.low.testBit 9)
  .ok { e with bits := e.bits ++ [d.low.testBit 8, true] }

/-- EncodeTerminate(bin) (R269). -/
def encodeTerminate (c : Coder) (bin : Bool) : Except ErrCode Coder :=
  let range := c.range - 2
  if bin then encodeFlush { c with range := range, low := c.low + range } else renorm { c with range := range }

/-- Codes one bin. -/
def codeBin (c : Coder) : Bin → Except ErrCode Coder
  | .decision ctxIdx bin => encodeDecision c ctxIdx bin
  | .bypass bin => encodeBypass c bin
  | .terminate bin => encodeTerminate c bin

/-- Codes bins in order. -/
def codeBins (c : Coder) : List Bin → Except ErrCode Coder
  | [] => .ok c
  | b :: bs => do
    let d ← codeBin c b
    codeBins d bs

/-- The working copy of the coder. -/
def State.loadCoder (s : State) : Coder :=
  ⟨s.cabac.range, s.cabac.low, s.cabac.outst, s.cabac.first, s.ctx, []⟩

/-- The coder's registers and contexts written back. -/
def State.storeCoder (s : State) (c : Coder) : State :=
  { s with
    cabac := { s.cabac with range := c.range, low := c.low, outst := c.outst, first := c.first }
    ctx := c.ctx }

/-- Codes bins and writes the bits they resolve. -/
def codeAndWrite (bins : List Bin) (s : State) : Except ErrCode State := do
  let c ← codeBins s.loadCoder bins
  writeBits (s.storeCoder c) c.bits

/-- The preconditions of the coding commands, in this order (R271). -/
def checkCoding (s : State) : Except ErrCode Unit := do
  require (s.cabac.state = .active) .cabacState
  require s.bw.nalOpen .nalState

/-- cabac.state <- v. -/
def State.setCabacState (s : State) (v : CabacState) : State :=
  { s with cabac := { s.cabac with state := v } }

/-! ### CINIT -/

/-- The context of an (m, n) entry at a slice QP (R270); `>>>` is arithmetic. -/
def initialContext (m n : Int) (sliceqp : Nat) : Ctx :=
  let pre := clip3 1 126 (((m * clip3 0 51 sliceqp) >>> 4) + n)
  if pre ≤ 63 then ⟨(63 - pre).toNat, false⟩ else ⟨(pre - 64).toNat, true⟩

/-- Context initialisation from a table of (m, n) by ctxIdx (R270, R263). -/
def initialContexts (table : Nat → BitVec 8 × BitVec 8) (sliceqp : Nat) : Vector Ctx Config.nCtx :=
  Vector.ofFn fun i =>
    if i.val = 276 then ⟨63, false⟩
    else initialContext (table i.val).1.toInt (table i.val).2.toInt sliceqp

/-- The coder registers after CINIT (R275). -/
def State.startCoder (s : State) : State :=
  { s with cabac := ⟨.active, 510, 0, 0, true⟩ }

/-- The effect of CINIT (R275). -/
def cinitEffect (model : BitVec 2) (sliceqp : BitVec 6) (eng : Bool) (s : State) : Except ErrCode State := do
  require (!(s.bw.nalOpen && s.bw.acc.length ≠ 0)) .bwAlign
  let ctx := if eng then s.ctx else initialContexts (Config.cabacInitMN model) sliceqp.toNat
  .ok { s.startCoder with ctx := ctx }

/-- CINIT (R275). -/
def execCinit (model : BitVec 2) (sliceqp : BitVec 6) (eng : Bool) (s : State) : Host.Outcome State Fault Refusal :=
  finish (.cinit model sliceqp eng) s (do
    checkFields (.cinit model sliceqp eng)
    cinitEffect model sliceqp eng s)

/-! ### Coding commands -/

/-- CDEC (R276). -/
def execCdec (ctx : BitVec 10) (bin : Bool) (s : State) : Host.Outcome State Fault Refusal :=
  finish (.cdec ctx bin) s (do
    checkFields (.cdec ctx bin)
    checkCoding s
    codeAndWrite [.decision ctx.toNat bin] s)

/-- CBYP (R277). -/
def execCbyp (bin : Bool) (s : State) : Host.Outcome State Fault Refusal :=
  finish (.cbyp bin) s (do
    checkCoding s
    codeAndWrite [.bypass bin] s)

/-- CBYPN (R278). -/
def execCbypn (n : BitVec 6) (value : Word) (s : State) : Host.Outcome State Fault Refusal :=
  finish (.cbypn n value) s (do
    checkFields (.cbypn n value)
    checkCoding s
    codeAndWrite ((bitsMsb n.toNat value.toNat).map .bypass) s)

/-- CTERM (R279). -/
def execCterm (bin : Bool) (s : State) : Host.Outcome State Fault Refusal :=
  finish (.cterm bin) s (do
    checkCoding s
    let t ← codeAndWrite [.terminate bin] s
    .ok (if bin then t.setCabacState .terminated else t))

end Sys2Proof.Machine
end

