-- ==== Sys2Proof/Machine/Scan.lean ====
section
/-! DEFINITION. Coefficient scan and run/level extraction: RLSCAN (42_scan_runlevel.md). -/

namespace Sys2Proof.Machine

/-- The scan list of a block category (R241): the offsets read, in scan order. -/
def scanList : Nat → List Nat
  | 0 => zz4
  | 1 => zz4.drop 1
  | 2 => zz4
  | 3 => List.range chromaDcWords
  | 4 => zz4.drop 1
  | 5 => zz8
  | _ => []

/-- The length of the range checked for a category (R241). -/
def scanRange : Nat → Nat
  | 3 => chromaDcWords
  | 5 => 64
  | _ => 16

/-- Scan(src, cat) with its checks (R241, R242): BRAM_RANGE over the block, UNINIT_READ over the words read,
INPUT_RANGE over the values. -/
def scanBlock (m : Bram) (src cat : Nat) : Except ErrCode (List Int) := do
  checkRange src (scanRange cat)
  let ws ← readWords m ((scanList cat).map (src + ·))
  let coeffs := ws.map BitVec.toInt
  checkInput (-32768) 32767 coeffs
  .ok coeffs

/-- The (run, level) pairs of a scanned list, after `run` zeros (R243). -/
def runLevels (run : Nat) : List Int → List (Nat × Int)
  | [] => []
  | c :: cs => if c = 0 then runLevels (run + 1) cs else (run, c) :: runLevels 0 cs

/-- A pair as a word: run in bits 31:16, the level's low 16 bits below (R244). -/
def packPair (p : Nat × Int) : Word :=
  BitVec.ofNat 16 p.1 ++ BitVec.ofInt 16 p.2

/-- The effect of RLSCAN (R245). The destination is checked when the number of pairs is known. -/
def rlscanEffect (src dst cat : Nat) (s : State) : Except ErrCode State := do
  let coeffs ← scanBlock s.bram src cat
  let pairs := runLevels 0 coeffs
  checkRange dst (1 + pairs.length)
  .ok ((s.writeBlock dst (BitVec.ofNat 32 pairs.length :: pairs.map packPair)).setResult pairs.length)

/-- RLSCAN (R245). -/
def execRlscan (src dst : BitVec 10) (cat : BitVec 3) (s : State) : Host.Outcome State Fault Refusal :=
  finish (.rlscan src dst cat) s (do
    checkFields (.rlscan src dst cat)
    rlscanEffect src.toNat dst.toNat cat.toNat s)

end Sys2Proof.Machine
end

