-- ==== Sys2Proof/Machine/Residual.lean ====
section
/-! DEFINITION. CABAC residual block coding: CRES (44_cabac_residual.md). The bins of a block depend on its coefficients
only, so they are listed first and then coded. -/

namespace Sys2Proof.Machine

/-- ctxBlockCatOffset of coded_block_flag (R300). -/
def cbfCatOffset (cat : Nat) : Nat :=
  [0, 4, 8, 12, 16].getD cat 0

/-- ctxBlockCatOffset of significant_coeff_flag and last_significant_coeff_flag (R300). -/
def mapCatOffset (cat : Nat) : Nat :=
  [0, 15, 29, 44, 47, 0].getD cat 0

/-- ctxBlockCatOffset of coeff_abs_level_minus1 (R300). -/
def absCatOffset (cat : Nat) : Nat :=
  [0, 10, 20, 30, 39, 0].getD cat 0

/-- The context of coded_block_flag (R301). -/
def cbfCtx (cat cbfinc : Nat) : Nat :=
  85 + cbfCatOffset cat + cbfinc

/-- The context of significant_coeff_flag at scan position i (R300, R303). -/
def sigCtx (cat i : Nat) : Nat :=
  (if cat = 5 then 402 else 105) + mapCatOffset cat +
    (if cat = 3 then min (i / numC8x8) 2 else if cat = 5 then sig8.getD i 0 else i)

/-- The context of last_significant_coeff_flag at scan position i (R300, R303). -/
def lastCtx (cat i : Nat) : Nat :=
  (if cat = 5 then 417 else 166) + mapCatOffset cat +
    (if cat = 3 then min (i / numC8x8) 2 else if cat = 5 then last8.getD i 0 else i)

/-- absBase (R304). -/
def absBase (cat : Nat) : Nat :=
  (if cat = 5 then 426 else 227) + absCatOffset cat

/-- The significance map from scan position i on (R302): it ends at the last significant coefficient, and the last
scan position has no flags. -/
def mapBins (cat : Nat) (i : Nat) : List Int → List Bin
  | [] => []
  | [_] => []
  | c :: d :: rest =>
    if c = 0 then .decision (sigCtx cat i) false :: mapBins cat (i + 1) (d :: rest)
    else if (d :: rest).all (· = 0) then [.decision (sigCtx cat i) true, .decision (lastCtx cat i) true]
    else .decision (sigCtx cat i) true :: .decision (lastCtx cat i) false :: mapBins cat (i + 1) (d :: rest)

/-- The prefix of coeff_abs_level_minus1 = a (R305). -/
def prefixBins (base inc0 incN a : Nat) : List Bin :=
  (List.range (min a 14)).map (fun b => .decision (base + if b = 0 then inc0 else incN) true) ++
    if a < 14 then [.decision (base + if a = 0 then inc0 else incN) false] else []

/-- The suffix's loop (R306): from s and k, with at most `fuel` turns of the first loop. -/
def suffixLoop : Nat → Nat → Nat → List Bin
  | 0, _, _ => []
  | fuel + 1, s, k =>
    if 2 ^ k ≤ s then .bypass true :: suffixLoop fuel (s - 2 ^ k) (k + 1)
    else .bypass false :: (bitsMsb k s).map .bypass

/-- The suffix of coeff_abs_level_minus1 (R306). An int16 level takes at most 15 turns of the loop. -/
def suffixBins (s : Nat) : List Bin :=
  suffixLoop 17 s 0

/-- One significant coefficient (R304): prefix, suffix, sign. -/
def levelBins (cat eq1 gt1 : Nat) (c : Int) : List Bin :=
  let a := c.natAbs - 1
  let inc0 := if gt1 ≠ 0 then 0 else min 4 (1 + eq1)
  let incN := 5 + min (4 - if cat = 3 then 1 else 0) gt1
  prefixBins (absBase cat) inc0 incN a ++ (if 14 ≤ a then suffixBins (a - 14) else []) ++ [.bypass (c < 0)]

/-- The significant coefficients in coding order, with the counters eq1 and gt1 (R304). -/
def levelsBins (cat eq1 gt1 : Nat) : List Int → List Bin
  | [] => []
  | c :: cs =>
    levelBins cat eq1 gt1 c ++
      if c.natAbs = 1 then levelsBins cat (eq1 + 1) gt1 cs else levelsBins cat eq1 (gt1 + 1) cs

/-- The bins of a block (R310): coded_block_flag if asked for, then the map and the levels of a non-zero block. -/
def residualBins (cat cbfinc : Nat) (codeCbf : Bool) (coeffs : List Int) : List Bin :=
  let significant := coeffs.filter (· ≠ 0)
  (if codeCbf then [.decision (cbfCtx cat cbfinc) (!significant.isEmpty)] else []) ++
    if significant.isEmpty then [] else mapBins cat 0 coeffs ++ levelsBins cat 0 0 significant.reverse

/-- The effect of CRES, with the checks of R307 in their order (R310). -/
def cresEffect (src cat cbfinc : Nat) (codeCbf : Bool) (s : State) : Except ErrCode State := do
  let coeffs ← scanBlock s.bram src cat
  checkCoding s
  let nz := (coeffs.filter (· ≠ 0)).length
  require (nz ≠ 0 || codeCbf) .emptyBlock
  let t ← codeAndWrite (residualBins cat cbfinc codeCbf coeffs) s
  .ok (t.setResult nz)

/-- CRES (R310). -/
def execCres (src : BitVec 10) (cat : BitVec 3) (cbfinc : BitVec 2) (codeCbf : Bool) (s : State) :
    Host.Outcome State Fault Refusal :=
  finish (.cres src cat cbfinc codeCbf) s (do
    checkFields (.cres src cat cbfinc codeCbf)
    cresEffect src.toNat cat.toNat cbfinc.toNat codeCbf s)

end Sys2Proof.Machine
end

