-- ==== Sys2Proof/Machine/Dispatch.lean ====
section
/-! DEFINITION. One command, executed at a state whose FIFO it has left: one arm per constructor of `Instr`. -/

namespace Sys2Proof.Machine

def exec (i : Instr) (s : State) : Host.Outcome State Fault Refusal :=
  match i with
  | .nop => Sys2Proof.Machine.execNop s
  | .setqp qpy cboff croff => Sys2Proof.Machine.execSetqp qpy cboff croff s
  | .tq4 o => Sys2Proof.Machine.execTq4 o s
  | .tq8 o => Sys2Proof.Machine.execTq8 o s
  | .tqldc o => Sys2Proof.Machine.execTqldc o s
  | .tqcdc o => Sys2Proof.Machine.execTqcdc o s
  | .dq4 o => Sys2Proof.Machine.execDq4 o s
  | .dq8 o => Sys2Proof.Machine.execDq8 o s
  | .dqldc o => Sys2Proof.Machine.execDqldc o s
  | .dqcdc o => Sys2Proof.Machine.execDqcdc o s
  | .rlscan src dst cat => Sys2Proof.Machine.execRlscan src dst cat s
  | .cinit model sliceqp eng => Sys2Proof.Machine.execCinit model sliceqp eng s
  | .cdec ctx bin => Sys2Proof.Machine.execCdec ctx bin s
  | .cbyp bin => Sys2Proof.Machine.execCbyp bin s
  | .cbypn n value => Sys2Proof.Machine.execCbypn n value s
  | .cterm bin => Sys2Proof.Machine.execCterm bin s
  | .cres src cat cbfinc codeCbf => Sys2Proof.Machine.execCres src cat cbfinc codeCbf s
  | .nalb refIdc nalType => Sys2Proof.Machine.execNalb refIdc nalType s
  | .nale => Sys2Proof.Machine.execNale s
  | .nalx => Sys2Proof.Machine.execNalx s
  | .putb n value => Sys2Proof.Machine.execPutb n value s
  | .putue value => Sys2Proof.Machine.execPutue value s
  | .putse value => Sys2Proof.Machine.execPutse value s
  | .align => Sys2Proof.Machine.execAlign s
  | .trail => Sys2Proof.Machine.execTrail s
  | .putbytes src count => Sys2Proof.Machine.execPutbytes src count s

end Sys2Proof.Machine
end

