-- ==== Sys2Proof/Machine/HostPort.lean ====
section
/-! DEFINITION. The host interface: MMIO reads and writes of every register and window (20_memory.md R82 to R89,
10_state.md R31 to R49), with the errors of R375 and R376. -/

namespace Sys2Proof.Machine

/-- The registers of the map of R84. -/
inductive Reg where
  | id | ctrl | status | errcode | errinfoLo | errinfoHi | qp | result | cmdHi | cmdLo | irqEn | irqPend
  | cabacRange | cabacLow | cabacOutst | cabacFirst | outWptr | nalCount | nalBits | epbZeros | nalStart
  deriving DecidableEq, Repr

/-- What an MMIO word address names (R84): a register, a word of a window, or nothing. -/
inductive Target where
  | reg (r : Reg)
  | bram (a : Nat)
  /-- The weights k..k+3 of the scaling RAM. -/
  | scaling (k : Nat)
  | ctxBank (i : Nat)
  /-- Word 0 or 1 of descriptor k. -/
  | nalDesc (k : Nat) (word : Nat)
  /-- The bytes k..k+3 of the output memory. -/
  | out (k : Nat)
  | unmapped
  deriving DecidableEq, Repr

/-- The registers in address order, from 0x00000 on (R84). -/
def registerMap : List Reg :=
  [.id, .ctrl, .status, .errcode, .errinfoLo, .errinfoHi, .qp, .result, .cmdHi, .cmdLo, .irqEn, .irqPend] ++
  [.cabacRange, .cabacLow, .cabacOutst, .cabacFirst, .outWptr, .nalCount, .nalBits, .epbZeros, .nalStart]

/-- The MMIO address map (R84), for a 4-byte-aligned address. -/
def target (a : Nat) : Target :=
  if a < 0x54 then
    match registerMap[a / 4]? with
    | some r => .reg r
    | none => .unmapped
  else if 0x01000 ≤ a ∧ a < 0x02000 then .bram ((a - 0x01000) / 4)
  else if 0x02000 ≤ a ∧ a < 0x020E0 then .scaling (a - 0x02000)
  else if 0x03000 ≤ a ∧ a < 0x03730 then .ctxBank ((a - 0x03000) / 4)
  else if 0x04000 ≤ a ∧ a < 0x04200 then .nalDesc ((a - 0x04000) / 8) ((a - 0x04000) / 4 % 2)
  else if 0x10000 ≤ a ∧ a < 0x20000 then .out (a - 0x10000)
  else .unmapped

/-- A 32-bit access at a 4-byte-aligned address (R82). -/
def accessAligned (bytes : Nat) (addr : BitVec 17) : Bool :=
  bytes = 4 && addr.toNat % 4 = 0

/-- Records an MMIO or host error of an access: the byte address and the data, 0 for a read (R35, R375, R376). -/
def State.accessError (s : State) (e : ErrCode) (addr : BitVec 17) (data : Word) : State :=
  s.recordError e (addr.setWidth 32) data

/-! ### Reads -/

/-- The word of a register (R31 to R49); CMD_HI and CMD_LO read 0 (R38). -/
def readReg (s : State) : Reg → Word
  | .id => 0x54514531
  | .ctrl => BitVec.ofNat 32 (flag s.enable + 2 * flag s.lossless)
  | .status => s.statusWord
  | .errcode => s.errcode.setWidth 32
  | .errinfoLo => s.errinfoLo
  | .errinfoHi => s.errinfoHi
  | .qp => 0#11 ++ BitVec.ofInt 5 s.croff ++ 0#3 ++ BitVec.ofInt 5 s.cboff ++ 0#2 ++ BitVec.ofNat 6 s.qpy
  | .result => s.result
  | .cmdHi => 0
  | .cmdLo => 0
  | .irqEn => s.irqEn.setWidth 32
  | .irqPend => s.irqPend.setWidth 32
  | .cabacRange => BitVec.ofNat 32 s.cabac.range
  | .cabacLow => BitVec.ofNat 32 s.cabac.low
  | .cabacOutst => BitVec.ofNat 32 s.cabac.outst
  | .cabacFirst => BitVec.ofNat 32 (flag s.cabac.first)
  | .outWptr => BitVec.ofNat 32 s.wptr
  | .nalCount => BitVec.ofNat 32 s.nalCount
  | .nalBits => s.bw.nalBits
  | .epbZeros => BitVec.ofNat 32 (s.bw.zeros + 4 * flag s.bw.lastZero)
  | .nalStart => s.bw.nalStart

/-- A context as its word: valMPS in bit 6, pStateIdx in bits 5:0 (R43). -/
def ctxWord (x : Ctx) : Word :=
  BitVec.ofNat 32 (x.pStateIdx + 64 * flag x.valMPS)

/-- A word of a descriptor; an entry at or above NAL_COUNT reads 0 (R49). -/
def descWord (desc : List Desc) (k word : Nat) : Word :=
  match desc[k]? with
  | none => 0
  | some d => if word = 0 then BitVec.ofNat 32 d.offset else BitVec.ofNat 24 d.length ++ d.hdr

/-- The read data bus. -/
def State.answer (s : State) (w : Word) : State :=
  { s with readData := w }

/-- The host reads a BRAM word (R86): a word never written since reset gives a free value (R45, log 1). -/
def readBram (s : State) (a : Nat) : State :=
  match s.bram.read a with
  | some w => s.answer w
  | none => { s.answer (Config.freeWord s.draws) with draws := s.draws + 1 }

/-- A host read of `bytes` bytes (R82, R85, R89). -/
def hostRead (s : State) (bytes : Nat) (addr : BitVec 17) : State :=
  if accessAligned bytes addr then
    match target addr.toNat with
    | .reg r => s.answer (readReg s r)
    | .bram a => readBram s a
    | .scaling k => s.answer (littleEndian (scalByte s k) (scalByte s (k + 1)) (scalByte s (k + 2)) (scalByte s (k + 3)))
    | .ctxBank i => s.answer (ctxWord (s.ctx[i]?.getD ⟨0, false⟩))
    | .nalDesc k word => s.answer (descWord s.desc k word)
    | .out k => s.answer (littleEndian (s.outByte k) (s.outByte (k + 1)) (s.outByte (k + 2)) (s.outByte (k + 3)))
    | .unmapped => (s.answer 0).accessError .mmioAccess addr 0
  else (s.answer 0).accessError .mmioAlign addr 0

/-! ### Writes -/

/-- A write of CTRL (R32, R341, R378, R401): SOFT_RESET first; a busy write is refused whole; else CLR_ERR, OUT_RESET,
then ENABLE and LOSSLESS. -/
def writeCtrl (s : State) (addr : BitVec 17) (v : Word) : State :=
  if v.getLsbD 10 then s.resetBlock
  else if s.busy && (v.getLsbD 1 != s.lossless || v.getLsbD 9) then s.accessError .hostBusyWrite addr v
  else
    let t := if v.getLsbD 8 then s.clearError else s
    let u := if v.getLsbD 9 then t.resetOutput else t
    { u with enable := v.getLsbD 0, lossless := v.getLsbD 1 }

/-- A write of STATUS: bit 2 clears SAT, the other bits are ignored (R33). -/
def writeStatus (s : State) (v : Word) : State :=
  { s with sat := s.sat && !v.getLsbD 2 }

/-- A write of QP (R36): a reserved bit of 1 is out of range. -/
def writeQp (s : State) (addr : BitVec 17) (v : Word) : State :=
  let qpy := (field v 0 6).toNat
  let cboff := (field v 8 5).toInt
  let croff := (field v 16 5).toInt
  if s.busy then s.accessError .hostBusyWrite addr v
  else if v &&& 0xFFE0E0C0 == 0 && qpAdmitted qpy cboff croff then s.setQp qpy cboff croff
  else s.accessError .qpRange addr v

/-- A write of CMD_LO: it pushes a command, or drops it into a full FIFO (R38, R376). -/
def pushCommand (s : State) (addr : BitVec 17) (v : Word) : State :=
  if s.fifo.length < Config.cmdqDepth then { s with fifo := s.fifo ++ [⟨v, s.cmdHiStage⟩], cmdHiStage := 0 }
  else { s with cmdHiStage := 0 }.accessError .cmdqOverflow addr v

/-- A write of the BRAM window (R86). -/
def writeBram (s : State) (a : Nat) (addr : BitVec 17) (v : Word) : State :=
  if s.busy then s.accessError .hostBusyWrite addr v else s.writeBlock a [v]

/-- A write of a SCALING window: four weights at once, none of them 0 (R44, R87). -/
def writeScaling (s : State) (k : Nat) (addr : BitVec 17) (v : Word) : State :=
  if s.busy then s.accessError .hostBusyWrite addr v
  else if byteOf v 0 = 0 ∨ byteOf v 1 = 0 ∨ byteOf v 2 = 0 ∨ byteOf v 3 = 0 then s.accessError .cfgValue addr v
  else { s with scal := (((s.scal.setIfInBounds k (byteOf v 0)).setIfInBounds (k + 1) (byteOf v 1)).setIfInBounds
    (k + 2) (byteOf v 2)).setIfInBounds (k + 3) (byteOf v 3) }

/-- A write of a register (R85): a read-only register records MMIO_ACCESS. -/
def writeReg (s : State) (addr : BitVec 17) (v : Word) : Reg → State
  | .ctrl => writeCtrl s addr v
  | .status => writeStatus s v
  | .qp => writeQp s addr v
  | .cmdHi => { s with cmdHiStage := v }
  | .cmdLo => pushCommand s addr v
  | .irqEn => { s with irqEn := field v 0 3 }
  | .irqPend => { s with irqPend := s.irqPend &&& ~~~(field v 0 3) }
  | .id | .errcode | .errinfoLo | .errinfoHi | .result | .cabacRange | .cabacLow | .cabacOutst | .cabacFirst
  | .outWptr | .nalCount | .nalBits | .epbZeros | .nalStart => s.accessError .mmioAccess addr v

/-- A host write of `bytes` bytes (R82, R85). -/
def hostWrite (s : State) (bytes : Nat) (addr : BitVec 17) (v : Word) : State :=
  if accessAligned bytes addr then
    match target addr.toNat with
    | .reg r => writeReg s addr v r
    | .bram a => writeBram s a addr v
    | .scaling k => writeScaling s k addr v
    | .ctxBank _ | .nalDesc _ _ | .out _ | .unmapped => s.accessError .mmioAccess addr v
  else s.accessError .mmioAlign addr v

end Sys2Proof.Machine
end

