-- ==== Sys2Proof/Machine/Step.lean ====
section
/-! DEFINITION. One step of the whole system (20_memory.md R80): the next event of the agenda, or the engine's turn. -/

namespace Sys2Proof.Machine

/-- The engine has a step (R80). -/
def State.engineReady (s : State) : Bool :=
  s.enable && !s.err && s.busy

/-- The engine's turn: it takes the command at the FIFO head and executes it, or records its decode error (R114,
R372). Without a step to make it waits (R33, R384; log 3). -/
def engineStep (s : State) : Host.Outcome State Fault Refusal :=
  match s.engineReady, s.fifo with
  | true, c :: rest =>
    match decode c with
    | .ok i => exec i { s with fifo := rest }
    | .error e => .next ({ s with fifo := rest }.recordError e c.lo c.hi)
  | _, _ => .next s

/-- One step. -/
def step (s : State) : Host.Outcome State Fault Refusal :=
  match s.agenda with
  | [] => engineStep s
  | .engineTurn :: rest => engineStep { s with agenda := rest }
  | .read bytes addr :: rest => .next (hostRead { s with agenda := rest } bytes addr)
  | .write bytes addr data :: rest => .next (hostWrite { s with agenda := rest } bytes addr data)
  | .resetInput :: rest => .next { s with agenda := rest }.resetBlock

/-- The state with a command at the FIFO head and the engine about to take it (log 10): the host has enabled the
engine, no error is recorded, and no other event comes first. -/
def State.withFetchWord (s : State) (nbits w : Nat) : State :=
  { s with enable := true, err := false, errcode := 0, errinfoLo := 0, errinfoHi := 0, agenda := [],
           fifo := commandOfBits nbits w :: s.fifo.tail }

end Sys2Proof.Machine
end

