-- ==== Sys2Proof/Safety.lean ====
section
/-! DEFINITION. The terms claims about runs are stated in: the invariants of the state, what a command leaves alone, and
the room a bit-producing command needs. -/

namespace Sys2Proof.Machine

/-! ### Invariants -/

/-- The ranges R30 gives the fields (10_state.md R33 to R49), with the facts between fields they rest on. -/
structure State.Ranges (s : State) : Prop where
  /-- ERRCODE and ERRINFO read 0 when ERR = 0 (R34, R35). -/
  errorClear : s.err = false → s.errcode = 0 ∧ s.errinfoLo = 0 ∧ s.errinfoHi = 0
  /-- QPY 0..51, CBOFF and CROFF -12..12 (R36). -/
  qp : s.qpy ≤ 51 ∧ (-12 ≤ s.cboff ∧ s.cboff ≤ 12) ∧ (-12 ≤ s.croff ∧ s.croff ≤ 12)
  /-- At most CMDQ_DEPTH commands are queued (R48). -/
  fifo : s.fifo.length ≤ Config.cmdqDepth
  /-- The coder registers between commands (R41). -/
  coder : 256 ≤ s.cabac.range ∧ s.cabac.range ≤ 510 ∧ s.cabac.low + s.cabac.range ≤ 1024 ∧
    s.cabac.outst ≤ Config.outstMax
  /-- pStateIdx 0..63 (R43). -/
  contexts : ∀ (i : Nat) (h : i < Config.nCtx), (s.ctx[i]).pStateIdx ≤ 63
  /-- Weights 1..255 (R44). -/
  weights : ∀ (i : Nat) (h : i < Config.scalBytes), s.scal[i] ≠ 0
  /-- The sparse memories are in canonical form (R45, R47). -/
  bram : s.bram.wf = true
  out : s.out.wf = true
  /-- No byte is listed at or above wptr, and wptr is 0..OUT_SIZE (R47). -/
  written : (∀ c ∈ s.out, c.1 < s.wptr) ∧ s.wptr ≤ Config.outSize
  /-- 0..7 pending bits, zeros 0..2 (R46); NAL_BITS counts the pending bits (R325). -/
  writer : s.bw.acc.length ≤ 7 ∧ s.bw.zeros ≤ 2 ∧ s.bw.nalBits.toNat % 8 = s.bw.acc.length
  /-- With no NAL open the writer is at rest (R334, R342). -/
  closed : s.bw.nalOpen = false → s.bw.acc = [] ∧ s.bw.zeros = 0 ∧ s.bw.lastZero = false
  /-- An open unit starts below wptr and can be recorded (R340). -/
  opened : s.bw.nalOpen = true → s.bw.nalStart.toNat < s.wptr ∧ s.desc.length < Config.descDepth
  /-- At most DESC_DEPTH descriptors (R49). -/
  desc : s.desc.length ≤ Config.descDepth

/-- The units of a descriptor list lie back to back from `a` to `e`, none of them empty (R333). -/
def backToBack (a : Nat) : List Desc → Nat → Prop
  | [], e => a = e
  | d :: ds, e => d.offset = a ∧ 1 ≤ d.length ∧ backToBack (a + d.length) ds e

/-- The structure of the output stream (45_bitstream_nal.md R320 to R333). -/
structure State.Stream (s : State) : Prop where
  /-- No 00 00 00, 00 00 01 or 00 00 02 stands anywhere in the output (R326, R327, R329; log 9). -/
  noStartCode : ∀ k, k + 2 < s.wptr →
    ¬(s.outByte k = 0 ∧ s.outByte (k + 1) = 0 ∧ (s.outByte (k + 2)).toNat ≤ 2)
  /-- The closed units, and then the open one, lie back to back (R333). -/
  units : backToBack 0 s.desc (if s.bw.nalOpen then s.bw.nalStart.toNat else s.wptr)
  /-- Each closed unit begins with its header byte (R320, R333). -/
  headers : ∀ d ∈ s.desc, s.outByte d.offset = d.hdr
  /-- No closed unit ends in 0x00 (R329). -/
  closedEnd : s.bw.nalOpen = false → s.wptr = 0 ∨ s.outByte (s.wptr - 1) ≠ 0
  /-- The open unit's header, and the end of the unit before it (R323, R340). -/
  openStart : s.bw.nalOpen = true → s.outByte s.bw.nalStart.toNat = s.bw.hdr ∧ s.bw.hdr ≠ 0 ∧
    (s.bw.nalStart.toNat = 0 ∨ s.outByte (s.bw.nalStart.toNat - 1) ≠ 0)
  /-- bw.last_zero and bw.zeros describe the last bytes of the open unit (R46, R326). -/
  openEnd : s.bw.nalOpen = true → (s.bw.lastZero = true ↔ s.outByte (s.wptr - 1) = 0) ∧
    (s.bw.zeros = 0 ↔ s.outByte (s.wptr - 1) ≠ 0) ∧
    (s.bw.zeros = 2 ↔ s.outByte (s.wptr - 1) = 0 ∧ s.outByte (s.wptr - 2) = 0)

/-- Both invariants. -/
structure State.Inv (s : State) : Prop where
  ranges : s.Ranges
  stream : s.Stream

/-! ### What a command leaves alone -/

/-- The fields no command writes when it completes: the host's registers, the error registers, the queue, the scaling
RAM, and the model's own fields. -/
structure HostSideKept (s t : State) : Prop where
  enable : t.enable = s.enable
  lossless : t.lossless = s.lossless
  err : t.err = s.err
  errcode : t.errcode = s.errcode
  errinfoLo : t.errinfoLo = s.errinfoLo
  errinfoHi : t.errinfoHi = s.errinfoHi
  cmdHiStage : t.cmdHiStage = s.cmdHiStage
  fifo : t.fifo = s.fifo
  irqEn : t.irqEn = s.irqEn
  scal : t.scal = s.scal
  agenda : t.agenda = s.agenda
  readData : t.readData = s.readData
  draws : t.draws = s.draws

/-- The QP register is kept. -/
def QpKept (s t : State) : Prop :=
  t.qpy = s.qpy ∧ t.cboff = s.cboff ∧ t.croff = s.croff

/-- RESULT and SAT are kept. -/
def FlagsKept (s t : State) : Prop :=
  t.result = s.result ∧ t.sat = s.sat

/-- Every word of the buffer RAM, and every valid bit, is kept. -/
def BramKept (s t : State) : Prop :=
  ∀ a, t.bram.read a = s.bram.read a

/-- Every word outside a .. a + len - 1, and its valid bit, is kept. -/
def BramKeptOutside (s t : State) (a len : Nat) : Prop :=
  ∀ b, b < a ∨ a + len ≤ b → t.bram.read b = s.bram.read b

/-- The coder registers but for the state, and the contexts, are kept. -/
def CoderKept (s t : State) : Prop :=
  t.cabac.range = s.cabac.range ∧ t.cabac.low = s.cabac.low ∧ t.cabac.outst = s.cabac.outst ∧
    t.cabac.first = s.cabac.first ∧ t.ctx = s.ctx

/-- The output memory and its descriptors are kept. -/
def OutputKept (s t : State) : Prop :=
  t.wptr = s.wptr ∧ t.desc = s.desc ∧ ∀ k, t.outByte k = s.outByte k

/-- The output written before is kept, and at most more is written after it; the descriptors are kept. -/
def OutputExtended (s t : State) : Prop :=
  s.wptr ≤ t.wptr ∧ t.desc = s.desc ∧ ∀ k, k < s.wptr → t.outByte k = s.outByte k

/-- The open unit stays open, with its start and its header. -/
def UnitKept (s t : State) : Prop :=
  t.bw.nalOpen = s.bw.nalOpen ∧ t.bw.nalStart = s.bw.nalStart ∧ t.bw.hdr = s.bw.hdr

/-- The whole stream side is kept: coder, bit writer and output. -/
def StreamKept (s t : State) : Prop :=
  t.cabac = s.cabac ∧ t.ctx = s.ctx ∧ t.bw = s.bw ∧ OutputKept s t

/-- The pending interrupts after a command that completes: those before, those it sets itself, and IDLE if the FIFO is
empty (R380). -/
def IrqAfter (s t : State) (own : BitVec 3) : Prop :=
  t.irqPend = s.irqPend ||| own ||| (if s.fifo = [] then irqIdle else 0)

/-! ### Two-dimensional transforms, element by element -/

/-- Element (r, c) of a raster block x after a one-dimensional transform of each row and then of each column of the
result (R12, R157, R204, R206): entry r of the transform of the column made of entry c of each transformed row. -/
def twoPass {α : Type} [Inhabited α] (n : Nat) (f : List α → List α) (x : Nat → α) (r c : Nat) : α :=
  (f ((List.range n).map fun i => (f ((List.range n).map fun j => x (n * i + j))).getD c default)).getD r default

/-- Element (r, c) of A X B for n x n matrices, X in raster order (R151, R158, R159). -/
def matrixProduct {α : Type} [Add α] [Mul α] [Zero α] (n : Nat) (A : Nat → Nat → α) (x : Nat → α) (B : Nat → Nat → α)
    (r c : Nat) : α :=
  ((List.range n).map fun i => ((List.range n).map fun j => A r i * x (n * i + j) * B j c).sum).sum

/-- A matrix from its rows. -/
def matrixOf {α : Type} [Zero α] (rows : List (List α)) (r c : Nat) : α :=
  (rows.getD r []).getD c 0

/-! ### When a bit-producing command has room -/

/-- Room for the outstanding bits and for so many bytes more. The count of outstanding bits is then far below
OUTST_MAX. -/
def CodingRoom (s : State) (bytes : Nat) : Prop :=
  s.wptr + s.cabac.outst + bytes ≤ Config.outSize

/-- The coder may code and a NAL is open (R271). -/
def MayCode (s : State) : Prop :=
  s.cabac.state = .active ∧ s.bw.nalOpen = true

/-- Raw bits may be written (R335). -/
def MayWriteRaw (s : State) : Prop :=
  s.bw.nalOpen = true ∧ s.cabac.state ≠ .active

/-! ### Blocks, levels and residuals, as the spec's rules write them -/

/-- The words c 0 .. c (len - 1) stand at a .. a + len - 1, and each is lo..hi as an int32 (R90, R45, R161, R200). -/
def BlockAt (s : State) (a len : Nat) (c : Nat → Word) (lo hi : Int) : Prop :=
  a + len ≤ Config.bramWords ∧ ∀ k < len, s.bram.read (a + k) = some (c k) ∧ lo ≤ (c k).toInt ∧ (c k).toInt ≤ hi

/-- The words c 0 .. c (len - 1) have been stored at a .. a + len - 1, and no other word has changed. -/
def BlockStored (s t : State) (a len : Nat) (c : Nat → Word) : Prop :=
  (∀ k < len, t.bram.read (a + k) = some (c k)) ∧ BramKeptOutside s t a len

/-- sign(Y) * ((abs(Y) * m + f) >> s), the level of R160 before its clip. -/
def rawLevel (y : Int) (m s f : Nat) : Int :=
  y.sign * (((y.natAbs * m + f) / 2 ^ s : Nat) : Int)

/-- Q(Y, m, s, f) of R160. -/
def levelOf (y : Int) (m s f : Nat) : Int :=
  max (-32768) (min 32767 (rawLevel y m s f))

/-- The level saturates (R160). -/
def Saturates (y : Int) (m s f : Nat) : Prop :=
  32767 < rawLevel y m s f ∨ rawLevel y m s f < -32768

/-- f(qbits, intra) of R155. -/
def offsetOf (qbits : Nat) (intra : Bool) : Nat :=
  if intra then 2 ^ qbits / 3 else 2 ^ qbits / 6

/-- MFw(MF, w) of R155. -/
def factorOf (mf w : Nat) : Nat :=
  (mf * 16 + w / 2) / w

/-- What a forward command leaves that has levels L 0 .. L (len - 1), counted from `first` on in RESULT, of which those
with S saturated (R150): levels, RESULT, SAT, and all the rest as before. -/
structure ForwardDone (s t : State) (dst len first : Nat) (L : Nat → Int) (S : Nat → Prop) : Prop where
  levels : BlockStored s t dst len fun k => BitVec.ofInt 32 (L k)
  result : t.result = BitVec.ofNat 32 ((List.range len).filter fun k => first ≤ k ∧ L k ≠ 0).length
  sat : t.sat = true ↔ s.sat = true ∨ ∃ k < len, S k
  qp : QpKept s t
  stream : StreamKept s t
  host : HostSideKept s t
  irq : IrqAfter s t 0

/-- What an inverse command leaves that has residuals R 0 .. R (len - 1) (R200): them, and all the rest as before. -/
structure InverseDone (s t : State) (dst len : Nat) (R : Nat → Word) : Prop where
  residuals : BlockStored s t dst len R
  flags : FlagsKept s t
  qp : QpKept s t
  stream : StreamKept s t
  host : HostSideKept s t
  irq : IrqAfter s t 0

/-- (x * ls) << (qp/6 - unit), or with rounding (x * ls + (1 << (unit - 1 - qp/6))) >> (unit - qp/6), in int32 (the form
of R203 with unit 4, of R205 and R207 with unit 6). -/
def scaled (unit qp : Nat) (x ls : Word) : Word :=
  if 6 * unit ≤ qp then (x * ls) <<< (qp / 6 - unit)
  else (x * ls + BitVec.ofNat 32 (2 ^ (unit - 1 - qp / 6))).sshiftRight (unit - qp / 6)

/-- Cf of R151. -/
def matrixCf : List (List Int) :=
  [[1, 1, 1, 1], [2, 1, -1, -2], [1, -1, -1, 1], [1, -2, 2, -1]]

/-- H4 of R158, over the integers or over int32. -/
def matrixH4 {α : Type} [One α] [Neg α] : List (List α) :=
  [[1, 1, 1, 1], [1, 1, -1, -1], [1, -1, -1, 1], [1, -1, 1, -1]]

/-- H2 of R159, over the integers or over int32. -/
def matrixH2 {α : Type} [One α] [Neg α] : List (List α) :=
  [[1, 1], [1, -1]]

/-! ### Scanned blocks -/

/-- The scanned list of a block category stands in the buffer RAM: coefficient i at the word the scan names, each int16
(R241, R242). -/
def ScannedAt (s : State) (src cat : Nat) (cs : List Int) : Prop :=
  src + scanRange cat ≤ Config.bramWords ∧ cs.length = (scanList cat).length ∧
    ∀ i < cs.length, ∃ w, s.bram.read (src + (scanList cat).getD i 0) = some w ∧ w.toInt = cs.getD i 0 ∧
      -32768 ≤ w.toInt ∧ w.toInt ≤ 32767

/-- How many coefficients are not zero. -/
def nonZeros (cs : List Int) : Nat :=
  (cs.filter (· ≠ 0)).length

/-! ### Bits and bytes written -/

/-- Emulation prevention of R326 over payload bytes, after z zero bytes: the bytes that reach the output. -/
def escape (z : Nat) : List Byte → List Byte
  | [] => []
  | b :: bs =>
    if 2 ≤ z ∧ b.toNat ≤ 3 then 0x03 :: b :: escape (if b = 0 then 1 else 0) bs
    else b :: escape (if b = 0 then min 2 (z + 1) else 0) bs

/-- bw.zeros after those payload bytes (R326). -/
def zerosAfter (z : Nat) : List Byte → Nat
  | [] => z
  | b :: bs => zerosAfter (if b = 0 then (if 2 ≤ z then 1 else min 2 (z + 1)) else 0) bs

/-- What a reader of a NAL unit does: it drops the 0x03 after two zero bytes. -/
def unescape (z : Nat) : List Byte → List Byte
  | [] => []
  | b :: bs =>
    if 2 ≤ z ∧ b = 0x03 then unescape 0 bs
    else b :: unescape (if b = 0 then min 2 (z + 1) else 0) bs

/-- The bits of bytes, bit 7 of each first (R328). -/
def bitsOf (bytes : List Byte) : List Bool :=
  bytes.flatMap fun b => (List.range 8).map fun k => b.getLsbD (7 - k)

/-- These payload bytes have been written: after emulation prevention they stand at the old wptr and after, and the
emulation-prevention state follows them (R321, R326). -/
structure Emitted (s t : State) (bytes : List Byte) : Prop where
  wptr : t.wptr = s.wptr + (escape s.bw.zeros bytes).length
  fits : t.wptr ≤ Config.outSize
  new : ∀ k < (escape s.bw.zeros bytes).length, t.outByte (s.wptr + k) = (escape s.bw.zeros bytes).getD k 0
  old : ∀ k < s.wptr, t.outByte k = s.outByte k
  beyond : ∀ k, t.wptr ≤ k → t.outByte k = 0
  desc : t.desc = s.desc
  zeros : t.bw.zeros = zerosAfter s.bw.zeros bytes
  lastZero : t.bw.lastZero = if bytes = [] then s.bw.lastZero else decide (bytes.getLast? = some 0)
  unit : UnitKept s t

/-- These bits have been written (R324): with the pending bits before them they make whole bytes, which have been
written, and the pending bits after them; NAL_BITS counts them. -/
def Appended (s t : State) (bits : List Bool) : Prop :=
  t.bw.acc.length ≤ 7 ∧ t.bw.nalBits = s.bw.nalBits + BitVec.ofNat 32 bits.length ∧
    ∃ bytes, s.bw.acc ++ bits = bitsOf bytes ++ t.bw.acc ∧ Emitted s t bytes

/-- What a raw bit command leaves that wrote these bits. -/
structure RawDone (s t : State) (bits : List Bool) : Prop where
  bits : Appended s t bits
  cabac : t.cabac = s.cabac
  ctx : t.ctx = s.ctx
  bram : BramKept s t
  flags : FlagsKept s t
  qp : QpKept s t
  host : HostSideKept s t
  irq : IrqAfter s t 0

/-- What a coding command leaves whose coder ended in c: its registers, its contexts and its bits, and the CABAC state
`state`. -/
structure CodedDone (s t : State) (state : CabacState) (c : Coder) : Prop where
  cabac : t.cabac = ⟨state, c.range, c.low, c.outst, c.first⟩
  ctx : t.ctx = c.ctx
  bits : Appended s t c.bits
  bram : BramKept s t
  sat : t.sat = s.sat
  qp : QpKept s t
  host : HostSideKept s t
  irq : IrqAfter s t 0

/-! ### The arithmetic coder -/

/-- The coder registers' ranges between bins (R41, R266). -/
structure Coder.Fits (c : Coder) : Prop where
  range : 256 ≤ c.range ∧ c.range ≤ 510
  low : c.low + c.range ≤ 1024
  outst : c.outst ≤ Config.outstMax
  contexts : ∀ (i : Nat) (h : i < Config.nCtx), (c.ctx[i]).pStateIdx ≤ 63

/-- The coder after PutBit(b) (R268), with the range and low that RenormE gives it next (R265). -/
def Coder.resolved (c : Coder) (b : Bool) (range low : Nat) : Coder :=
  ⟨range, low, 0, false, c.ctx, c.bits ++ (if c.first then [] else [b]) ++ List.replicate c.outst (!b)⟩

/-- The number the bits so far, the waiting bits and low stand for together: the lower end of the coding interval, in
units of the last place. -/
def Coder.lower (c : Coder) : Nat :=
  (c.bits.foldl (fun v b => 2 * v + flag b) 0) * 2 ^ (10 + c.outst) + 512 * (2 ^ c.outst - 1) + c.low

/-- A suppressed first bit is 0: as long as no bit is resolved, none is out and the interval lies in the lower half
(R268). -/
def Coder.FirstIsZero (c : Coder) : Prop :=
  c.first = true → c.bits = [] ∧ c.low + c.range ≤ 512

/-! ### Refusals -/

/-- An access or command refused at s with an error (R372, R374 to R376): t is s with the error recorded, or s itself
where an error was recorded already. -/
def Refused (s t : State) (code : Byte) (lo hi : Word) : Prop :=
  t = if s.err then s
    else { s with err := true, errcode := code, errinfoLo := lo, errinfoHi := hi, irqPend := s.irqPend ||| 1 }

/-- exec refuses the command with this error, ERRINFO holding its own words (R372). -/
def CommandRefused (i : Instr) (s : State) (code : Byte) : Prop :=
  ∃ t, exec i s = .next t ∧ Refused s t code (encode i).lo (encode i).hi

/-! ### What a bit-producing command completes with, and where it stops -/

/-- The bytes the bits come to, up to seven bits left over (R324, R328). -/
def wholeBytes (bits : List Bool) : List Byte :=
  (List.range (bits.length / 8)).map fun k => byteOfBits ((bits.drop (8 * k)).take 8)

/-- Payload bytes fit below OUT_SIZE after emulation prevention (R92, R321, R326). -/
def BytesFit (s : State) (bytes : List Byte) : Prop :=
  s.wptr + (escape s.bw.zeros bytes).length ≤ Config.outSize

/-- The bytes that the pending bits and these bits come to fit. -/
def BitsFit (s : State) (bits : List Bool) : Prop :=
  BytesFit s (wholeBytes (s.bw.acc ++ bits))

/-- A raw bit command writes these bits exactly where they fit, and is refused with OUT_OVERFLOW where they do not. -/
structure WritesBits (i : Instr) (s : State) (bits : List Bool) : Prop where
  completes : BitsFit s bits → ∃ t, exec i s = .next t ∧ RawDone s t bits
  full : ¬BitsFit s bits → CommandRefused i s 0x0C

/-- A coding command whose coder comes to `coded`: it completes exactly where the count of outstanding bits does not
overflow and the bits fit, with RESULT `result` and the CABAC state `state`; else it is refused with OUTST_OVERFLOW, which
is found first (R272; log 8), or with OUT_OVERFLOW (R271). Room for `bytes` bytes and the outstanding bits is enough. -/
structure CodesTo (i : Instr) (s : State) (coded : Except ErrCode Coder) (state : CabacState) (result : Word)
    (bytes : Nat) : Prop where
  completes : ∀ c, coded = .ok c → BitsFit s c.bits →
    ∃ t, exec i s = .next t ∧ CodedDone s t state c ∧ t.result = result
  full : ∀ c, coded = .ok c → ¬BitsFit s c.bits → CommandRefused i s 0x0C
  overflow : ∀ e, coded = .error e → e = .outstOverflow ∧ CommandRefused i s 0x10
  room : CodingRoom s bytes → ∃ c, coded = .ok c ∧ BitsFit s c.bits

/-- The engine is about to take the command c: it is enabled, no error is recorded, and no other event comes first
(R80). -/
def AtHead (s : State) (c : Command) (rest : List Command) : Prop :=
  s.agenda = [] ∧ s.enable = true ∧ s.err = false ∧ s.fifo = c :: rest

/-! ### The address map and the opcode table, as the spec lists them -/

/-- The 4-byte-aligned addresses the map of R84 lists. -/
def Mapped (a : Nat) : Prop :=
  a < 0x54 ∨ (0x01000 ≤ a ∧ a < 0x02000) ∨ (0x02000 ≤ a ∧ a < 0x020E0) ∨ (0x03000 ≤ a ∧ a < 0x03730) ∨
    (0x04000 ≤ a ∧ a < 0x04200) ∨ 0x10000 ≤ a

/-- The addresses of read-only registers and windows, STATUS aside (R84, R85). -/
def ReadOnly (a : Nat) : Prop :=
  a ∈ [0x00, 0x0C, 0x10, 0x14, 0x1C] ∨ (0x30 ≤ a ∧ a < 0x54) ∨ (0x03000 ≤ a ∧ a < 0x03730) ∨
    (0x04000 ≤ a ∧ a < 0x04200) ∨ 0x10000 ≤ a

/-- The opcodes with the reserved masks of opcode_table.json, over lo and hi (R111, R113). -/
def reservedMasks : List (Nat × Word × Word) :=
  [(0x00, 0x03FFFFFF, 0xFFFFFFFF), (0x01, 0x03E0E0C0, 0xFFFFFFFF), (0x08, 0x00000003, 0xFFFFFFFF),
   (0x09, 0x00000003, 0xFFFFFFFF), (0x0A, 0x00000003, 0xFFFFFFFF), (0x0B, 0x00000003, 0xFFFFFFFF),
   (0x0C, 0x00000003, 0xFFFFFFFF), (0x0D, 0x00000003, 0xFFFFFFFF), (0x0E, 0x00000003, 0xFFFFFFFF)] ++
  [(0x0F, 0x00000003, 0xFFFFFFFF), (0x10, 0x03C00003, 0xFFFFFFF8), (0x18, 0x00C0FFFE, 0xFFFFFFFF),
   (0x19, 0x0000FFFE, 0xFFFFFFFF), (0x1A, 0x03FFFFFE, 0xFFFFFFFF), (0x1B, 0x03C0FFFF, 0x00000000),
   (0x1C, 0x03FFFFFE, 0xFFFFFFFF), (0x1D, 0x03C00FFF, 0xFFFFFFC0), (0x20, 0x00E0FFFF, 0xFFFFFFFF)] ++
  [(0x21, 0x03FFFFFF, 0xFFFFFFFF), (0x22, 0x03FFFFFF, 0xFFFFFFFF), (0x23, 0x03C0FFFF, 0x00000000),
   (0x24, 0x03FFFFFF, 0x00000000), (0x25, 0x03FFFFFF, 0x00000000), (0x26, 0x03FFFFFF, 0xFFFFFFFF),
   (0x27, 0x03FFFFFF, 0xFFFFFFFF), (0x28, 0x03C00FFF, 0xFFFFF800)]

/-- The error of a field value that R115 does not admit. -/
def fieldError : Instr → Byte
  | .setqp _ _ _ => 0x04
  | .cdec _ _ => 0x08
  | .cinit _ sliceqp _ => if 51 < sliceqp.toNat then 0x04 else 0x03
  | _ => 0x03

/-! ### Families of commands -/

/-- TQ4, TQ8, TQLDC, TQCDC. -/
def isForward : Instr → Bool
  | .tq4 _ | .tq8 _ | .tqldc _ | .tqcdc _ => true
  | _ => false

/-- The commands that write RESULT (R37). -/
def countsResult : Instr → Bool
  | .tq4 _ | .tq8 _ | .tqldc _ | .tqcdc _ | .rlscan _ _ _ | .cres _ _ _ _ => true
  | _ => false

/-- The commands that write the buffer RAM. -/
def writesBram : Instr → Bool
  | .tq4 _ | .tq8 _ | .tqldc _ | .tqcdc _ | .dq4 _ | .dq8 _ | .dqldc _ | .dqcdc _ | .rlscan _ _ _ => true
  | _ => false

/-- The commands of 43_cabac_engine.md. -/
def isEngine : Instr → Bool
  | .cinit _ _ _ | .cdec _ _ | .cbyp _ | .cbypn _ _ | .cterm _ => true
  | _ => false

/-- The commands that write the coder registers (R41). -/
def isCabac (i : Instr) : Bool :=
  isEngine i || match i with
    | .cres _ _ _ _ => true
    | _ => false

/-- CDEC, CBYP, CBYPN, CTERM (R271). -/
def codesBins : Instr → Bool
  | .cdec _ _ | .cbyp _ | .cbypn _ _ | .cterm _ => true
  | _ => false

/-- The raw bit commands (R335). -/
def isRaw : Instr → Bool
  | .putb _ _ | .putue _ | .putse _ | .align | .trail | .putbytes _ _ => true
  | _ => false

/-! ### The residual block syntax, in closed form -/

/-- The significance map with the last significant coefficient at `last` (R302). -/
def mapSyntax (cat last : Nat) (cs : List Int) : List Bin :=
  (List.range (min (last + 1) (cs.length - 1))).flatMap fun i =>
    .decision (sigCtx cat i) (cs.getD i 0 != 0) ::
      if cs.getD i 0 = 0 then [] else [.decision (lastCtx cat i) (i == last)]

/-- The suffix of coeff_abs_level_minus1, a 0th-order Exp-Golomb code in bypass bins (R306): k ones, a zero, and the k low
bits of s + 1 - 2^k, where k = floor(log2(s + 1)). -/
def suffixSyntax (s : Nat) : List Bin :=
  let k := Nat.log2 (s + 1)
  List.replicate k (.bypass true) ++ .bypass false ::
    (List.range k).map fun i => .bypass ((s + 1 - 2 ^ k).testBit (k - 1 - i))

/-- One level c after eq1 levels of absolute value 1 and gt1 above 1 (R304, R305). -/
def levelSyntax (cat eq1 gt1 : Nat) (c : Int) : List Bin :=
  let base := (if cat = 5 then 426 else 227) + [0, 10, 20, 30, 39, 0].getD cat 0
  let inc0 := if gt1 = 0 then min 4 (1 + eq1) else 0
  let incN := 5 + min (if cat = 3 then 3 else 4) gt1
  let a := c.natAbs - 1
  (List.range (min a 14)).map (fun b => .decision (base + if b = 0 then inc0 else incN) true) ++
    (if a < 14 then [.decision (base + if a = 0 then inc0 else incN) false] else suffixSyntax (a - 14)) ++
    [.bypass (decide (c < 0))]

/-- The levels in coding order, each with the counts of those before it (R304). -/
def levelsSyntax (cat : Nat) (ls : List Int) : List Bin :=
  (List.range ls.length).flatMap fun j =>
    levelSyntax cat ((ls.take j).filter fun c => c.natAbs == 1).length
      ((ls.take j).filter fun c => 1 < c.natAbs).length (ls.getD j 0)

end Sys2Proof.Machine
end

