-- ==== Sys2Proof/Certificates/Slice0/Obligations.lean ====
section
/-! DEFINITION. The statements about the machine. Each docstring names the rule of the spec it comes from; in a step's
statement `u` is the state the event has been taken from. -/

section Statements

open Sys2Proof Sys2Proof.Machine

/-! ### Encoding and decoding -/

/-- Every command decodes from its encoding, whatever its operands, and is the only one with those words (R110 to R113). -/
def Obligations.DecodeAndEncodeAgree : Prop :=
  (∀ i : Instr, decode (encode i) = .ok i ∧
    decodeTableWord 64 ((encode i).hi.toNat * 2 ^ 32 + (encode i).lo.toNat) = some i) ∧
  ∀ (c : Command) (i : Instr), decode c = .ok i → encode i = c

/-- Words of R361's example and of 95_test_vectors.md decode to the commands written beside them there. -/
def Obligations.PrintedWordsDecode : Prop :=
  decode ⟨0x04031E1C, 0⟩ = .ok (.setqp 28 (-2) 3) ∧
  decode ⟨0x22000040, 0⟩ = .ok (.tq4 ⟨true, 0, false, 0, 16⟩) ∧
  decode ⟨0x32010080, 0⟩ = .ok (.dq4 ⟨true, 0, false, 16, 32⟩) ∧
  decode ⟨0x400100C0, 2⟩ = .ok (.rlscan 16 48 2) ∧
  decode ⟨0x601A0000, 0⟩ = .ok (.cinit 0 26 false) ∧
  decode ⟨0x74000000, 0x22⟩ = .ok (.cres 0 2 0 true) ∧
  decode ⟨0x70000001, 0⟩ = .ok (.cterm true) ∧
  decode ⟨0x83050000, 0⟩ = .ok (.nalb 3 5) ∧
  decode ⟨0x8C200000, 1⟩ = .ok (.putb 32 1) ∧
  decode ⟨0x94000000, 0xFFFFFFFD⟩ = .ok (.putse (-3))

/-- R116: the opcodes of no command, and their error. -/
def Obligations.UnlistedOpcodesAreIllegal : Prop :=
  (∀ c : Command, decode c = .error .illegalOpcode ↔
    (0x02 ≤ (c.lo >>> 26).toNat ∧ (c.lo >>> 26).toNat ≤ 0x07) ∨ (0x11 ≤ (c.lo >>> 26).toNat ∧ (c.lo >>> 26).toNat ≤ 0x17) ∨
    (0x1E ≤ (c.lo >>> 26).toNat ∧ (c.lo >>> 26).toNat ≤ 0x1F) ∨ 0x29 ≤ (c.lo >>> 26).toNat) ∧
  ∀ (s : State) (c : Command) (rest : List Command), AtHead s c rest → decode c = .error .illegalOpcode →
    ∃ t, step s = .next t ∧ Refused { s with fifo := rest } t 0x01 c.lo c.hi

/-- R114 check 2 with the masks of opcode_table.json: a reserved bit of 1 is refused, and without one the command
decodes. -/
def Obligations.ReservedBitsAreRefused : Prop :=
  ∀ (c : Command) (opcode : Nat) (lo hi : Word), (opcode, lo, hi) ∈ reservedMasks → (c.lo >>> 26).toNat = opcode →
    (c.lo &&& lo = 0 ∧ c.hi &&& hi = 0 → ∃ i, decode c = .ok i) ∧
    (c.lo &&& lo ≠ 0 ∨ c.hi &&& hi ≠ 0 → ∀ (s : State) (rest : List Command), AtHead s c rest →
      ∃ t, step s = .next t ∧ Refused { s with fifo := rest } t 0x02 c.lo c.hi)

/-- R115: exactly the commands with a field value out of its table are refused with BAD_FIELD, QP_RANGE or CTX_RANGE. -/
def Obligations.FieldValuesAreChecked : Prop :=
  ∀ (i : Instr) (s : State), s.err = false → s.errcode = 0 →
    (i.wellFormed = false → CommandRefused i s (fieldError i)) ∧
    (i.wellFormed = true → ∀ t, exec i s = .next t → t.errcode ≠ 0x03 ∧ t.errcode ≠ 0x04 ∧ t.errcode ≠ 0x08)

/-! ### The engine's step -/

/-- R80, R48: the engine's turn executes the command at the FIFO head, with that command taken from the FIFO; without a
command it may execute, nothing changes (the waiting step is the model's own, log 3). -/
def Obligations.StepRunsTheHeadCommand : Prop :=
  (∀ (s : State) (c : Command) (rest : List Command) (i : Instr), s.enable = true → s.err = false →
    s.fifo = c :: rest → decode c = .ok i →
    (s.agenda = [] → step s = exec i { s with fifo := rest }) ∧
    ∀ later, s.agenda = .engineTurn :: later → step s = exec i { s with fifo := rest, agenda := later }) ∧
  ∀ s : State, s.enable = false ∨ s.err = true ∨ s.fifo = [] →
    (s.agenda = [] → step s = .next s) ∧
    ∀ later, s.agenda = .engineTurn :: later → step s = .next { s with agenda := later }

/-- R372: a command that raises an error leaves the FIFO and nothing else changes but the error's own record; while the
error stands the engine executes nothing. -/
def Obligations.CommandErrorChangesNothingElse : Prop :=
  (∀ (s t : State) (c : Command) (rest : List Command), AtHead s c rest → step s = .next t → t.err = true →
    t = { s with fifo := rest, err := true, errcode := t.errcode, errinfoLo := c.lo, errinfoHi := c.hi,
                 irqPend := s.irqPend ||| 1 } ∧
    1 ≤ t.errcode.toNat ∧ t.errcode.toNat ≤ 0x10) ∧
  ∀ s : State, s.err = true → s.agenda = [] → step s = .next s

/-- Every error is recorded in the state and no step stops the machine (R372, R375, R376). -/
def Obligations.EveryStepAnswersNext : Prop :=
  ∀ s : State, ∃ t, step s = .next t

/-- R374: while an error is recorded no host access changes the error registers or sets IRQ_PEND.ERR, but for CLR_ERR and
SOFT_RESET. -/
def Obligations.FirstErrorIsSticky : Prop :=
  ∀ (s t : State) (e : Event) (rest : List Event), s.err = true → s.agenda = e :: rest → e ≠ .resetInput →
    (∀ v, e = .write 4 0x00004 v → v.getLsbD 8 = false ∧ v.getLsbD 10 = false) → step s = .next t →
    t.err = true ∧ t.errcode = s.errcode ∧ t.errinfoLo = s.errinfoLo ∧ t.errinfoHi = s.errinfoHi ∧
      (s.irqPend.getLsbD 0 = false → t.irqPend.getLsbD 0 = false)

/-- R381, R380: what a command sets in IRQ_PEND. That NALX is no exception to R380 is log 18. -/
def Obligations.CommandsSetTheirInterrupts : Prop :=
  ∀ (s t : State) (c : Command) (rest : List Command), AtHead s c rest → step s = .next t →
    (t.err = false → t.irqPend =
      s.irqPend ||| (if rest = [] then 0b010 else 0) ||| (if c = ⟨0x84000000, 0⟩ then 0b100 else 0)) ∧
    (t.err = true → t.irqPend = s.irqPend ||| 0b001)

/-! ### Host accesses -/

/-- R82, of every address, an unmapped one among them (log 7). What ERRINFO_HI holds of a write that is not 32 bits wide is
the model's choice (log 5). -/
def Obligations.MisalignedAccessIsRefused : Prop :=
  ∀ (s : State) (bytes : Nat) (a : BitVec 17) (rest : List Event), ¬(bytes = 4 ∧ a.toNat % 4 = 0) →
    (s.agenda = .read bytes a :: rest →
      ∃ t, step s = .next t ∧ Refused { s with agenda := rest, readData := 0 } t 0x13 (a.setWidth 32) 0) ∧
    ∀ v, s.agenda = .write bytes a v :: rest →
      ∃ t, step s = .next t ∧ Refused { s with agenda := rest } t 0x13 (a.setWidth 32) v

/-- R85. -/
def Obligations.UnmappedAndReadOnlyAccesses : Prop :=
  ∀ (s : State) (a : BitVec 17) (rest : List Event), a.toNat % 4 = 0 →
    (¬Mapped a.toNat → s.agenda = .read 4 a :: rest →
      ∃ t, step s = .next t ∧ Refused { s with agenda := rest, readData := 0 } t 0x14 (a.setWidth 32) 0) ∧
    (a.toNat = 0x20 ∨ a.toNat = 0x24 → s.agenda = .read 4 a :: rest →
      step s = .next { s with agenda := rest, readData := 0 }) ∧
    (∀ v, ¬Mapped a.toNat ∨ ReadOnly a.toNat → s.agenda = .write 4 a v :: rest →
      ∃ t, step s = .next t ∧ Refused { s with agenda := rest } t 0x14 (a.setWidth 32) v) ∧
    ∀ v, a.toNat = 0x08 → s.agenda = .write 4 a v :: rest →
      step s = .next { s with agenda := rest, sat := s.sat && !v.getLsbD 2 }

/-- R89: an aligned read of a mapped address changes nothing of the block. What it returns, and the free value a BRAM word
never written gives, are the model's own fields (logs 1 and 4). -/
def Obligations.MappedReadsChangeNothing : Prop :=
  ∀ (s : State) (a : BitVec 17) (rest : List Event), a.toNat % 4 = 0 → Mapped a.toNat →
    s.agenda = .read 4 a :: rest →
    ∃ t, step s = .next t ∧ t = { s with agenda := rest, readData := t.readData, draws := t.draws } ∧
      ((0x01000 ≤ a.toNat ∧ a.toNat < 0x02000 → s.bram.read ((a.toNat - 0x01000) / 4) ≠ none) → t.draws = s.draws)

/-- What each register reads (R31 to R41, R46, R47, R49, R84), STATUS field by field (R33). -/
def Obligations.RegistersReadTheirState : Prop :=
  ∀ (s : State) (rest : List Event), s.qpy ≤ 51 → s.fifo.length ≤ 16 → s.bw.acc.length ≤ 7 →
    (∀ (a : BitVec 17) (v : Word), (a, v) ∈
      ([(0x00000, 0x54514531), (0x00004, BitVec.ofNat 32 (flag s.enable + 2 * flag s.lossless)),
        (0x0000C, s.errcode.setWidth 32), (0x00010, s.errinfoLo), (0x00014, s.errinfoHi),
        (0x00018, BitVec.ofNat 32 s.qpy ||| (BitVec.ofInt 5 s.cboff).setWidth 32 <<< 8 |||
          (BitVec.ofInt 5 s.croff).setWidth 32 <<< 16),
        (0x0001C, s.result), (0x00020, 0), (0x00024, 0), (0x00028, s.irqEn.setWidth 32),
        (0x0002C, s.irqPend.setWidth 32), (0x00030, BitVec.ofNat 32 s.cabac.range),
        (0x00034, BitVec.ofNat 32 s.cabac.low), (0x00038, BitVec.ofNat 32 s.cabac.outst),
        (0x0003C, BitVec.ofNat 32 (flag s.cabac.first)), (0x00040, BitVec.ofNat 32 s.wptr),
        (0x00044, BitVec.ofNat 32 s.desc.length), (0x00048, s.bw.nalBits),
        (0x0004C, BitVec.ofNat 32 (s.bw.zeros + 4 * flag s.bw.lastZero)), (0x00050, s.bw.nalStart)] :
        List (BitVec 17 × Word)) →
      s.agenda = .read 4 a :: rest → step s = .next { s with agenda := rest, readData := v }) ∧
    (s.agenda = .read 4 0x00008 :: rest → ∃ w : Word, step s = .next { s with agenda := rest, readData := w } ∧
      w.getLsbD 0 = !s.fifo.isEmpty ∧ w.getLsbD 1 = s.err ∧ w.getLsbD 2 = s.sat ∧ w.getLsbD 3 = false ∧
      w.toNat / 2 ^ 4 % 4 = (match s.cabac.state with | .idle => 0 | .active => 1 | .terminated => 2) ∧
      w.getLsbD 6 = s.bw.nalOpen ∧ w.getLsbD 7 = false ∧ w.toNat / 2 ^ 8 % 8 = s.bw.acc.length ∧
      w.toNat / 2 ^ 11 % 32 = 0 ∧ w.toNat / 2 ^ 16 = s.fifo.length)

/-- What the read-only windows read (R43, R47, R49, R83): a context, a descriptor word, four output bytes. -/
def Obligations.WindowsReadTheirState : Prop :=
  ∀ (s : State) (rest : List Event) (a : Nat), s.agenda = .read 4 (BitVec.ofNat 17 a) :: rest →
    (∀ i (h : i < 460), a = 0x03000 + 4 * i → (s.ctx[i]).pStateIdx ≤ 63 → step s = .next { s with
      agenda := rest, readData := 0#25 ++ BitVec.ofBool (s.ctx[i]).valMPS ++ BitVec.ofNat 6 (s.ctx[i]).pStateIdx }) ∧
    (∀ k, k < 64 → a = 0x04000 + 8 * k → step s = .next { s with
      agenda := rest, readData := match s.desc[k]? with | none => 0 | some d => BitVec.ofNat 32 d.offset }) ∧
    (∀ k, k < 64 → a = 0x04004 + 8 * k → step s = .next { s with
      agenda := rest, readData := match s.desc[k]? with | none => 0 | some d => BitVec.ofNat 24 d.length ++ d.hdr }) ∧
    ∀ k, k < 65536 → k % 4 = 0 → a = 0x10000 + k → step s = .next { s with
      agenda := rest, readData := s.outByte (k + 3) ++ s.outByte (k + 2) ++ s.outByte (k + 1) ++ s.outByte k }

/-- R86: the BRAM window. A read of a word never written returns a free value, about which nothing is stated. -/
def Obligations.HostAccessesBram : Prop :=
  ∀ (s : State) (rest : List Event) (a : Nat) (v : Word), a < 1024 →
    (∀ w, s.agenda = .read 4 (BitVec.ofNat 17 (0x01000 + 4 * a)) :: rest → s.bram.read a = some w →
      step s = .next { s with agenda := rest, readData := w }) ∧
    (s.agenda = .write 4 (BitVec.ofNat 17 (0x01000 + 4 * a)) v :: rest → s.fifo = [] →
      ∃ t, step s = .next t ∧ t = { s with agenda := rest, bram := t.bram } ∧
        ∀ b, t.bram.read b = if b = a then some v else s.bram.read b) ∧
    (s.agenda = .write 4 (BitVec.ofNat 17 (0x01000 + 4 * a)) v :: rest → s.fifo ≠ [] →
      ∃ t, step s = .next t ∧ Refused { s with agenda := rest } t 0x12 (BitVec.ofNat 32 (0x01000 + 4 * a)) v)

/-- R87: the SCALING windows. A write while BUSY is a busy write whatever its weights (log 6). -/
def Obligations.HostAccessesScaling : Prop :=
  ∀ (s : State) (rest : List Event) (k : Nat) (v : Word), k < 224 → k % 4 = 0 →
    (s.agenda = .read 4 (BitVec.ofNat 17 (0x02000 + k)) :: rest → step s = .next { s with
      agenda := rest, readData := scalByte s (k + 3) ++ scalByte s (k + 2) ++ scalByte s (k + 1) ++ scalByte s k }) ∧
    (s.agenda = .write 4 (BitVec.ofNat 17 (0x02000 + k)) v :: rest →
      (s.fifo ≠ [] →
        ∃ t, step s = .next t ∧ Refused { s with agenda := rest } t 0x12 (BitVec.ofNat 32 (0x02000 + k)) v) ∧
      (s.fifo = [] → (∃ j < 4, (v.extractLsb' (8 * j) 8) = 0) →
        ∃ t, step s = .next t ∧ Refused { s with agenda := rest } t 0x15 (BitVec.ofNat 32 (0x02000 + k)) v) ∧
      (s.fifo = [] → (∀ j < 4, (v.extractLsb' (8 * j) 8) ≠ 0) →
        ∃ t, step s = .next t ∧ t = { s with agenda := rest, scal := t.scal } ∧
          ∀ j (hj : j < 224), t.scal[j] = if k ≤ j ∧ j < k + 4 then v.extractLsb' (8 * (j - k)) 8 else s.scal[j]))

/-- R36, the host's write of QP: refused while BUSY whatever it holds (log 6), refused when a field is out of range or a
reserved bit is 1, else stored. -/
def Obligations.HostWritesQp : Prop :=
  ∀ (s : State) (rest : List Event) (v : Word), s.agenda = .write 4 0x00018 v :: rest →
    let qpy := (v.extractLsb' 0 6).toNat
    let cboff := (v.extractLsb' 8 5).toInt
    let croff := (v.extractLsb' 16 5).toInt
    let legal := qpy ≤ 51 ∧ -12 ≤ cboff ∧ cboff ≤ 12 ∧ -12 ≤ croff ∧ croff ≤ 12 ∧ v &&& 0xFFE0E0C0 = 0
    (s.fifo ≠ [] → ∃ t, step s = .next t ∧ Refused { s with agenda := rest } t 0x12 0x18 v) ∧
    (s.fifo = [] → ¬legal → ∃ t, step s = .next t ∧ Refused { s with agenda := rest } t 0x04 0x18 v) ∧
    (s.fifo = [] → legal → step s = .next { s with agenda := rest, qpy := qpy, cboff := cboff, croff := croff })

/-- R38: CMD_HI and CMD_LO. -/
def Obligations.HostPushesCommands : Prop :=
  ∀ (s : State) (rest : List Event) (v : Word),
    (s.agenda = .read 4 0x00020 :: rest ∨ s.agenda = .read 4 0x00024 :: rest →
      step s = .next { s with agenda := rest, readData := 0 }) ∧
    (s.agenda = .write 4 0x00020 v :: rest → step s = .next { s with agenda := rest, cmdHiStage := v }) ∧
    (s.agenda = .write 4 0x00024 v :: rest → s.fifo.length < 16 →
      step s = .next { s with agenda := rest, fifo := s.fifo ++ [⟨v, s.cmdHiStage⟩], cmdHiStage := 0 }) ∧
    (s.agenda = .write 4 0x00024 v :: rest → 16 ≤ s.fifo.length →
      ∃ t, step s = .next t ∧ Refused { s with agenda := rest, cmdHiStage := 0 } t 0x11 0x24 v) ∧
    State.reset.cmdHiStage = 0

/-- R400, R401: the reset input and SOFT_RESET, whatever BUSY, ERR and the other bits written. The model's own fields
(logs 1, 3 and 4) are no part of the block. -/
def Obligations.ResetByPinOrByCtrl : Prop :=
  ∀ (s : State) (rest : List Event), s.agenda = .resetInput :: rest ∨
      (∃ v : Word, v.getLsbD 10 = true ∧ s.agenda = .write 4 0x00004 v :: rest) →
    step s = .next { State.reset with agenda := rest, readData := s.readData, draws := s.draws }

/-- R378, R32: a write of CTRL without SOFT_RESET and OUT_RESET, with CLR_ERR and without it. It also stores ENABLE and
LOSSLESS, and it changes LOSSLESS only while BUSY = 0 (with CLR_ERR too, log 13). -/
def Obligations.ClearErrorRecovers : Prop :=
  ∀ (s : State) (rest : List Event) (v : Word), s.agenda = .write 4 0x00004 v :: rest →
    v.getLsbD 9 = false → v.getLsbD 10 = false → s.fifo = [] ∨ v.getLsbD 1 = s.lossless →
    (v.getLsbD 8 = true → step s = .next { s with
      agenda := rest, err := false, errcode := 0, errinfoLo := 0, errinfoHi := 0, fifo := []
      enable := v.getLsbD 0, lossless := v.getLsbD 1 }) ∧
    (v.getLsbD 8 = false → step s = .next { s with
      agenda := rest, enable := v.getLsbD 0, lossless := v.getLsbD 1 })

/-- R341, R334: OUT_RESET, with CLR_ERR before it or not (R32, R378). That a busy write is refused with its CLR_ERR too is
log 13. -/
def Obligations.OutResetDiscardsOutput : Prop :=
  ∀ (s : State) (rest : List Event) (v : Word), s.agenda = .write 4 0x00004 v :: rest →
    v.getLsbD 9 = true → v.getLsbD 10 = false →
    (s.fifo ≠ [] → ∃ t, step s = .next t ∧ Refused { s with agenda := rest } t 0x12 0x04 v) ∧
    (s.fifo = [] → ∃ t, step s = .next t ∧
      t = { s with agenda := rest, enable := v.getLsbD 0, lossless := v.getLsbD 1,
                   err := s.err && !v.getLsbD 8, errcode := if v.getLsbD 8 then 0 else s.errcode
                   errinfoLo := if v.getLsbD 8 then 0 else s.errinfoLo
                   errinfoHi := if v.getLsbD 8 then 0 else s.errinfoHi
                   cabac := { s.cabac with state := .idle }, out := t.out, wptr := 0, desc := [],
                   bw := if s.bw.nalOpen then ⟨false, [], 0, false, 0, 0, 0⟩
                         else { s.bw with nalStart := 0, nalBits := 0 } } ∧
      ∀ k, t.outByte k = 0)

/-- R411, R97, R32: while BUSY a host write changes no input data of a queued command and no queued command; a change of
LOSSLESS is refused whole, with a CLR_ERR in the same write too (log 13). -/
def Obligations.BusyWritesKeepInputs : Prop :=
  (∀ (s t : State) (bytes : Nat) (a : BitVec 17) (v : Word) (rest : List Event),
    s.agenda = .write bytes a v :: rest → s.fifo ≠ [] →
    ¬(bytes = 4 ∧ a = 0x00004 ∧ v.getLsbD 10 = true) → step s = .next t →
    t.bram = s.bram ∧ t.scal = s.scal ∧ QpKept s t ∧ t.lossless = s.lossless ∧ OutputKept s t ∧
      (t.fifo = s.fifo ∨ t.fifo = s.fifo ++ [⟨v, s.cmdHiStage⟩] ∨
        (t.fifo = [] ∧ bytes = 4 ∧ a = 0x00004 ∧ v.getLsbD 8 = true))) ∧
  ∀ (s : State) (v : Word) (rest : List Event), s.agenda = .write 4 0x00004 v :: rest → s.fifo ≠ [] →
    v.getLsbD 10 = false → v.getLsbD 1 ≠ s.lossless →
    ∃ t, step s = .next t ∧ Refused { s with agenda := rest } t 0x12 0x04 v

/-- R39, R40: IRQ_EN, IRQ_PEND and the interrupt line. -/
def Obligations.InterruptRegistersAndLine : Prop :=
  ∀ (s : State) (rest : List Event) (v : Word),
    (s.agenda = .write 4 0x00028 v :: rest →
      ∃ t, step s = .next t ∧ t = { s with agenda := rest, irqEn := t.irqEn } ∧
        ∀ i < 3, t.irqEn.getLsbD i = v.getLsbD i) ∧
    (s.agenda = .write 4 0x0002C v :: rest →
      ∃ t, step s = .next t ∧ t = { s with agenda := rest, irqPend := t.irqPend } ∧
        ∀ i < 3, t.irqPend.getLsbD i = (s.irqPend.getLsbD i && !v.getLsbD i)) ∧
    (s.irqLine = true ↔ ∃ i < 3, s.irqPend.getLsbD i = true ∧ s.irqEn.getLsbD i = true)

/-! ### Reset and invariants -/

/-- R402. -/
def Obligations.ResetValues : Prop :=
  let r := State.reset
  r.enable = false ∧ r.lossless = false ∧ r.err = false ∧ r.sat = false ∧ r.errcode = 0 ∧ r.errinfoLo = 0 ∧
  r.errinfoHi = 0 ∧ r.qpy = 0 ∧ r.cboff = 0 ∧ r.croff = 0 ∧ r.result = 0 ∧ r.cmdHiStage = 0 ∧ r.irqEn = 0 ∧
  r.irqPend = 0 ∧ r.cabac = ⟨.idle, 510, 0, 0, true⟩ ∧ (∀ i (h : i < 460), r.ctx[i] = ⟨0, false⟩) ∧
  (∀ i (h : i < 224), r.scal[i] = 16) ∧ (∀ a, r.bram.read a = none) ∧ r.bw = ⟨false, [], 0, false, 0, 0, 0⟩ ∧
  (∀ k, r.outByte k = 0) ∧ r.wptr = 0 ∧ r.fifo = [] ∧ r.desc = [] ∧ readReg r .id = 0x54514531 ∧ r.statusWord = 0

/-- The state after reset meets both invariants. -/
def Obligations.ResetMeetsInvariants : Prop :=
  State.reset.Inv

/-- Every step keeps every field in its range (R30, R33 to R49), whatever the host does: from any state that has them. -/
def Obligations.StepsKeepRanges : Prop :=
  ∀ s t : State, s.Ranges → step s = .next t → t.Ranges

/-- Every step keeps the output a sequence of well-framed units with no start code in it (R320, R326, R329, R333; R327 as
log 9 reads it). -/
def Obligations.StepsKeepStream : Prop :=
  ∀ s t : State, s.Inv → step s = .next t → t.Inv

/-! ### Who writes what -/

/-- No command writes the host's registers or the scaling RAM; RESULT (R37), SAT (R50), QP (R36) and the buffer RAM are
written by their own commands only, and no command clears SAT. -/
def Obligations.OnlyTheirCommandsWrite : Prop :=
  ∀ (i : Instr) (s t : State), exec i s = .next t →
    t.enable = s.enable ∧ t.lossless = s.lossless ∧ t.cmdHiStage = s.cmdHiStage ∧ t.irqEn = s.irqEn ∧
    t.scal = s.scal ∧ t.fifo = s.fifo ∧ t.agenda = s.agenda ∧ t.readData = s.readData ∧ t.draws = s.draws ∧
    (countsResult i = false → t.result = s.result) ∧ (isForward i = false → t.sat = s.sat) ∧
    (s.sat = true → t.sat = true) ∧ ((∀ q b r, i ≠ .setqp q b r) → QpKept s t) ∧
    (writesBram i = false → t.bram = s.bram)

/-- R41, R42, R43: the coder registers and contexts are written by CABAC commands only; who moves the CABAC state, and
where; context 276 is written by CINIT only. -/
def Obligations.CoderStateWriters : Prop :=
  ∀ (i : Instr) (s t : State), exec i s = .next t →
    (isCabac i = false → CoderKept s t) ∧
    (t.cabac.state = s.cabac.state ∨
      (t.cabac.state = .active ∧ ∃ m q e, i = .cinit m q e) ∨
      (s.cabac.state = .active ∧ t.cabac.state = .terminated ∧ i = .cterm true) ∨
      (t.cabac.state = .idle ∧ (i = .nale ∨ i = .nalx))) ∧
    ((∀ m q, i ≠ .cinit m q false) → t.ctx[276] = s.ctx[276])

/-- R92: wptr only grows, but for NALX; no byte written is ever rewritten; descriptors are only added, by NALE. -/
def Obligations.OutputOnlyGrows : Prop :=
  ∀ (i : Instr) (s t : State), exec i s = .next t → i ≠ .nalx →
    s.wptr ≤ t.wptr ∧ (∀ k < s.wptr, t.outByte k = s.outByte k) ∧
    ∃ more, t.desc = s.desc ++ more ∧ (i ≠ .nale → more = [])

/-! ### Control commands -/

/-- R360, R361: NOP only completes; SETQP stores the three values, or is refused. -/
def Obligations.NopAndSetqpComplete : Prop :=
  ∀ (s : State) (qpy : BitVec 6) (cboff croff : BitVec 5),
    let legal := qpy.toNat ≤ 51 ∧ -12 ≤ cboff.toInt ∧ cboff.toInt ≤ 12 ∧ -12 ≤ croff.toInt ∧ croff.toInt ≤ 12
    exec .nop s = .next { s with irqPend := s.irqPend ||| if s.fifo = [] then 0b010 else 0 } ∧
    (legal → exec (.setqp qpy cboff croff) s = .next { s with
      qpy := qpy.toNat, cboff := cboff.toInt, croff := croff.toInt
      irqPend := s.irqPend ||| if s.fifo = [] then 0b010 else 0 }) ∧
    (¬legal → CommandRefused (.setqp qpy cboff croff) s 0x04)

/-! ### Forward transform and quantization -/

/-- R162 with R151 to R155 and R160: TQ4 without bypass (the rounding fractions of R7, log 17). -/
def Obligations.Tq4QuantizesTransform : Prop :=
  ∀ (s : State) (o : TOps) (c : Nat → Word), o.plane.toNat ≤ 2 → BlockAt s o.src.toNat 16 c (-255) 255 →
    o.dst.toNat + 16 ≤ 1024 → s.bypass = false →
    let qp := qpOf s o.plane.toNat
    let qb := 15 + qp / 6
    let list := (if o.intra then 0 else 3) + o.plane.toNat
    let Y := fun k => matrixProduct 4 (matrixOf matrixCf) (fun k => (c k).toInt) (fun i j => matrixOf matrixCf j i)
      (k / 4) (k % 4)
    let m := fun k => factorOf (entry mf4 (qp % 6) (cls4 (k / 4) (k % 4))) (weight s list k)
    ∃ t, exec (.tq4 o) s = .next t ∧ ForwardDone s t o.dst.toNat 16 (if o.ac then 1 else 0)
      (fun k => if o.ac = true ∧ k = 0 then Y 0 else levelOf (Y k) (m k) qb (offsetOf qb o.intra))
      (fun k => ¬(o.ac = true ∧ k = 0) ∧ Saturates (Y k) (m k) qb (offsetOf qb o.intra))

/-- R163 with R157: TQ8 without bypass (the rounding fractions of R7, log 17). -/
def Obligations.Tq8QuantizesTransform : Prop :=
  ∀ (s : State) (o : TOps) (c : Nat → Word), o.plane.toNat = 0 → o.ac = false →
    BlockAt s o.src.toNat 64 c (-255) 255 → o.dst.toNat + 64 ≤ 1024 → s.bypass = false →
    let qb := 16 + s.qpy / 6
    let list := if o.intra then 6 else 7
    let Y := fun k => twoPass 8 t8 (fun k => (c k).toInt) (k / 8) (k % 8)
    let m := fun k => factorOf (entry mf8 (s.qpy % 6) (cls8 (k / 8) (k % 8))) (weight s list k)
    ∃ t, exec (.tq8 o) s = .next t ∧ ForwardDone s t o.dst.toNat 64 0
      (fun k => levelOf (Y k) (m k) qb (offsetOf qb o.intra)) (fun k => Saturates (Y k) (m k) qb (offsetOf qb o.intra))

/-- R164 with R158: TQLDC without bypass (the rounding fractions of R7, log 17). -/
def Obligations.TqldcQuantizesHadamard : Prop :=
  ∀ (s : State) (o : TOps) (c : Nat → Word), o.plane.toNat = 0 → o.ac = false → o.intra = true →
    BlockAt s o.src.toNat 16 c (-4080) 4080 → o.dst.toNat + 16 ≤ 1024 → s.bypass = false →
    let qb := 15 + s.qpy / 6
    let m := factorOf (entry mf4 (s.qpy % 6) 0) (weight s 0 0)
    let Y := fun k =>
      (matrixProduct 4 (matrixOf matrixH4) (fun k => (c k).toInt) (matrixOf matrixH4) (k / 4) (k % 4) + 1) / 2
    ∃ t, exec (.tqldc o) s = .next t ∧ ForwardDone s t o.dst.toNat 16 0
      (fun k => levelOf (Y k) m (qb + 1) (2 * offsetOf qb true)) (fun k => Saturates (Y k) m (qb + 1) (2 * offsetOf qb true))

/-- R165 with R159: TQCDC without bypass (the rounding fractions of R7, log 17). -/
def Obligations.TqcdcQuantizesHadamard : Prop :=
  ∀ (s : State) (o : TOps) (c : Nat → Word), o.plane.toNat = 1 ∨ o.plane.toNat = 2 → o.ac = false →
    BlockAt s o.src.toNat 4 c (-4080) 4080 → o.dst.toNat + 4 ≤ 1024 → s.bypass = false →
    let qp := qpOf s o.plane.toNat
    let qb := 15 + qp / 6
    let m := factorOf (entry mf4 (qp % 6) 0) (weight s ((if o.intra then 0 else 3) + o.plane.toNat) 0)
    let Y := fun k => matrixProduct 2 (matrixOf matrixH2) (fun k => (c k).toInt) (matrixOf matrixH2) (k / 2) (k % 2)
    ∃ t, exec (.tqcdc o) s = .next t ∧ ForwardDone s t o.dst.toNat 4 0
      (fun k => levelOf (Y k) m (qb + 1) (2 * offsetOf qb o.intra))
      (fun k => Saturates (Y k) m (qb + 1) (2 * offsetOf qb o.intra))

/-! ### Dequantization and inverse transform -/

/-- R210 with R202 to R204: DQ4 without bypass. -/
def Obligations.Dq4TransformsScaled : Prop :=
  ∀ (s : State) (o : TOps) (c : Nat → Word), o.plane.toNat ≤ 2 → o.src.toNat + 16 ≤ 1024 → o.dst.toNat + 16 ≤ 1024 →
    (∀ k < 16, s.bram.read (o.src.toNat + k) = some (c k)) →
    (∀ k < 16, (o.ac = true ∧ k = 0) ∨ (-32768 ≤ (c k).toInt ∧ (c k).toInt ≤ 32767)) → s.bypass = false →
    let qp := qpOf s o.plane.toNat
    let list := (if o.intra then 0 else 3) + o.plane.toNat
    let D := fun k => if o.ac = true ∧ k = 0 then c 0
      else scaled 4 qp (c k) (BitVec.ofNat 32 (weight s list k * entry v4 (qp % 6) (cls4 (k / 4) (k % 4))))
    ∃ t, exec (.dq4 o) s = .next t ∧ InverseDone s t o.dst.toNat 16
      (fun k => (twoPass 4 it4 D (k / 4) (k % 4) + 32).sshiftRight 6)

/-- R211 with R202, R205, R206: DQ8 without bypass. -/
def Obligations.Dq8TransformsScaled : Prop :=
  ∀ (s : State) (o : TOps) (c : Nat → Word), o.plane.toNat = 0 → o.ac = false →
    BlockAt s o.src.toNat 64 c (-32768) 32767 → o.dst.toNat + 64 ≤ 1024 → s.bypass = false →
    let list := if o.intra then 6 else 7
    let D := fun k =>
      scaled 6 s.qpy (c k) (BitVec.ofNat 32 (weight s list k * entry v8 (s.qpy % 6) (cls8 (k / 8) (k % 8))))
    ∃ t, exec (.dq8 o) s = .next t ∧ InverseDone s t o.dst.toNat 64
      (fun k => (twoPass 8 it8 D (k / 8) (k % 8) + 32).sshiftRight 6)

/-- R212 with R207: DQLDC without bypass. -/
def Obligations.DqldcScalesHadamard : Prop :=
  ∀ (s : State) (o : TOps) (c : Nat → Word), o.plane.toNat = 0 → o.ac = false → o.intra = true →
    BlockAt s o.src.toNat 16 c (-32768) 32767 → o.dst.toNat + 16 ≤ 1024 → s.bypass = false →
    ∃ t, exec (.dqldc o) s = .next t ∧ InverseDone s t o.dst.toNat 16 fun k =>
      scaled 6 s.qpy (matrixProduct 4 (matrixOf matrixH4) c (matrixOf matrixH4) (k / 4) (k % 4))
        (BitVec.ofNat 32 (weight s 0 0 * entry v4 (s.qpy % 6) 0))

/-- R213 with R208: DQCDC without bypass. -/
def Obligations.DqcdcScalesHadamard : Prop :=
  ∀ (s : State) (o : TOps) (c : Nat → Word), o.plane.toNat = 1 ∨ o.plane.toNat = 2 → o.ac = false →
    BlockAt s o.src.toNat 4 c (-32768) 32767 → o.dst.toNat + 4 ≤ 1024 → s.bypass = false →
    let qpc := qpOf s o.plane.toNat
    ∃ t, exec (.dqcdc o) s = .next t ∧ InverseDone s t o.dst.toNat 4 fun k =>
      ((matrixProduct 2 (matrixOf matrixH2) c (matrixOf matrixH2) (k / 2) (k % 2) *
        BitVec.ofNat 32 (weight s ((if o.intra then 0 else 3) + o.plane.toNat) 0 * entry v4 (qpc % 6) 0)) <<<
          (qpc / 6)).sshiftRight 5

/-- R156, R200: in the lossless bypass all eight block commands copy source to destination, whatever the plane; the forward
ones still count in RESULT and saturate nothing. -/
def Obligations.LosslessBypassCopies : Prop :=
  ∀ (s : State) (o : TOps) (c : Nat → Word), s.lossless = true → s.qpy = 0 →
    (∀ (i : Instr) (len : Nat) (bound : Int),
      (i, len, bound) ∈ ([(.tq4 o, 16, 255), (.tq8 o, 64, 255), (.tqldc o, 16, 4080), (.tqcdc o, 4, 4080)] :
        List (Instr × Nat × Int)) →
      i.wellFormed = true → BlockAt s o.src.toNat len c (-bound) bound → o.dst.toNat + len ≤ 1024 →
      ∃ t, exec i s = .next t ∧
        ForwardDone s t o.dst.toNat len (if o.ac then 1 else 0) (fun k => (c k).toInt) fun _ => False) ∧
    ∀ (i : Instr) (len : Nat),
      (i, len) ∈ ([(.dq4 o, 16), (.dq8 o, 64), (.dqldc o, 16), (.dqcdc o, 4)] : List (Instr × Nat)) →
      i.wellFormed = true → o.src.toNat + len ≤ 1024 → o.dst.toNat + len ≤ 1024 →
      (∀ k < len, s.bram.read (o.src.toNat + k) = some (c k)) →
      (∀ k < len, (i = .dq4 o ∧ o.ac = true ∧ k = 0) ∨ (-32768 ≤ (c k).toInt ∧ (c k).toInt ≤ 32767)) →
      ∃ t, exec i s = .next t ∧ InverseDone s t o.dst.toNat len c

/-- R150, R200: the checks of the block commands, in their order; every one leaves no effect. The first source word of DQ4
with ac = 1 is not range checked. R241, R242, R307: the checks of RLSCAN and CRES on their source block likewise; the
range checked includes word 0 of categories 1 and 4, which is not read. -/
def Obligations.BlockChecksInOrder : Prop :=
  (∀ (s : State) (o : TOps) (i : Instr) (len : Nat) (lo hi : Int),
    (i, len, lo, hi) ∈ ([(.tq4 o, 16, -255, 255), (.tq8 o, 64, -255, 255), (.tqldc o, 16, -4080, 4080),
      (.tqcdc o, 4, -4080, 4080), (.dq4 o, 16, -32768, 32767), (.dq8 o, 64, -32768, 32767),
      (.dqldc o, 16, -32768, 32767), (.dqcdc o, 4, -32768, 32767)] : List (Instr × Nat × Int × Int)) →
    i.wellFormed = true →
    (1024 < o.src.toNat + len ∨ 1024 < o.dst.toNat + len → CommandRefused i s 0x05) ∧
    (o.src.toNat + len ≤ 1024 → o.dst.toNat + len ≤ 1024 →
      ((∃ k < len, s.bram.read (o.src.toNat + k) = none) → CommandRefused i s 0x06) ∧
      ∀ c : Nat → Word, (∀ k < len, s.bram.read (o.src.toNat + k) = some (c k)) →
        (∃ k < len, ¬(i = .dq4 o ∧ o.ac = true ∧ k = 0) ∧ ((c k).toInt < lo ∨ hi < (c k).toInt)) →
        CommandRefused i s 0x07)) ∧
  ∀ (s : State) (src dst : BitVec 10) (cat : BitVec 3) (cbfinc : BitVec 2) (codeCbf : Bool) (i : Instr),
    i ∈ [.rlscan src dst cat, .cres src cat cbfinc codeCbf] → i.wellFormed = true →
    let first := if cat = 1 ∨ cat = 4 then 1 else 0
    let len := if cat = 3 then 4 else if cat = 5 then 64 else 16
    (1024 < src.toNat + len → CommandRefused i s 0x05) ∧
    (src.toNat + len ≤ 1024 →
      ((∃ k < len, first ≤ k ∧ s.bram.read (src.toNat + k) = none) → CommandRefused i s 0x06) ∧
      ∀ c : Nat → Word, (∀ k < len, first ≤ k → s.bram.read (src.toNat + k) = some (c k)) →
        (∃ k < len, first ≤ k ∧ ((c k).toInt < -32768 ∨ 32767 < (c k).toInt)) → CommandRefused i s 0x07)

/-- R214: at QP 0 with flat weights a flat block survives TQ4 then DQ4, and TQ8 then DQ8, exactly. -/
def Obligations.FlatBlocksSurviveQpZero : Prop :=
  ∀ (s : State) (intra : Bool) (src lv dst : BitVec 10) (a : Int), -255 ≤ a → a ≤ 255 → s.qpy = 0 →
    s.lossless = false → (∀ k (h : k < 224), s.scal[k] = 16) →
    (BlockAt s src.toNat 16 (fun _ => BitVec.ofInt 32 a) (-255) 255 → lv.toNat + 16 ≤ 1024 → dst.toNat + 16 ≤ 1024 →
      ∃ t u, exec (.tq4 ⟨intra, 0, false, src, lv⟩) s = .next t ∧
        exec (.dq4 ⟨intra, 0, false, lv, dst⟩) t = .next u ∧
        ∀ k < 16, u.bram.read (dst.toNat + k) = some (BitVec.ofInt 32 a)) ∧
    (BlockAt s src.toNat 64 (fun _ => BitVec.ofInt 32 a) (-255) 255 → lv.toNat + 64 ≤ 1024 → dst.toNat + 64 ≤ 1024 →
      ∃ t u, exec (.tq8 ⟨intra, 0, false, src, lv⟩) s = .next t ∧
        exec (.dq8 ⟨intra, 0, false, lv, dst⟩) t = .next u ∧
        ∀ k < 64, u.bram.read (dst.toNat + k) = some (BitVec.ofInt 32 a))

/-! ### Scan -/

/-- R245 with R240 to R244: RLSCAN writes the number of pairs and the pairs. The pairs are those that unfold to the
scanned list, trailing zeros aside. The destination is refused when the list passes word 1023. -/
def Obligations.RlscanWritesPairs : Prop :=
  ∀ (s : State) (src dst : BitVec 10) (cat : BitVec 3) (cs : List Int) (pairs : List (Nat × Int)) (trailing : Nat),
    cat.toNat ≤ 5 → ScannedAt s src.toNat cat.toNat cs → (∀ p ∈ pairs, p.2 ≠ 0) →
    cs = (pairs.flatMap fun p => List.replicate p.1 0 ++ [p.2]) ++ List.replicate trailing 0 →
    (dst.toNat + pairs.length ≤ 1023 → ∃ t, exec (.rlscan src dst cat) s = .next t ∧
      BlockStored s t dst.toNat (1 + pairs.length) (fun j => if j = 0 then BitVec.ofNat 32 pairs.length
        else BitVec.ofNat 32 ((pairs.getD (j - 1) (0, 0)).1 * 65536 +
          (BitVec.ofInt 16 (pairs.getD (j - 1) (0, 0)).2).toNat)) ∧
      t.result = BitVec.ofNat 32 pairs.length ∧ t.sat = s.sat ∧ QpKept s t ∧ StreamKept s t ∧ HostSideKept s t ∧
      IrqAfter s t 0) ∧
    (1023 < dst.toNat + pairs.length → CommandRefused (.rlscan src dst cat) s 0x05)

/-! ### The CABAC engine -/

/-- R275, R270, R263: CINIT. The (m, n) of the table are free values (log 2). -/
def Obligations.CinitStartsCoder : Prop :=
  ∀ (s : State) (model : BitVec 2) (sliceqp : BitVec 6) (eng : Bool), sliceqp.toNat ≤ 51 →
    (eng = true → model = 0 ∧ sliceqp = 0) →
    (s.bw.nalOpen = true ∧ s.bw.acc ≠ [] → CommandRefused (.cinit model sliceqp eng) s 0x0B) ∧
    (s.bw.nalOpen = false ∨ s.bw.acc = [] → ∃ t, exec (.cinit model sliceqp eng) s = .next t ∧
      t = { s with cabac := ⟨.active, 510, 0, 0, true⟩, ctx := t.ctx
                   irqPend := s.irqPend ||| if s.fifo = [] then 0b010 else 0 } ∧
      (eng = true → t.ctx = s.ctx) ∧
      (eng = false → t.ctx[276] = ⟨63, false⟩ ∧ ∀ i (h : i < 460), i ≠ 276 →
        let mn := Config.cabacInitMN model i
        let pre := max 1 (min 126 (mn.1.toInt * min 51 (max 0 (sliceqp.toNat : Int)) / 16 + mn.2.toInt))
        t.ctx[i] = if pre ≤ 63 then ⟨(63 - pre).toNat, false⟩ else ⟨(pre - 64).toNat, true⟩))

/-- R265, R268: RenormE, one turn at a time, for every range above 0 (0 never occurs, R266); the counter of outstanding bits
does not pass OUTST_MAX (R272). -/
def Obligations.RenormalizationLoop : Prop :=
  ∀ c : Coder, 0 < c.range →
    (256 ≤ c.range → renorm c = .ok c) ∧
    (c.range < 256 →
      (c.low < 256 → renorm c = renorm (c.resolved false (2 * c.range) (2 * c.low))) ∧
      (512 ≤ c.low → renorm c = renorm (c.resolved true (2 * c.range) (2 * (c.low - 512)))) ∧
      (256 ≤ c.low → c.low < 512 → c.outst < 2 ^ 32 - 1 → renorm c =
        renorm { c with outst := c.outst + 1, range := 2 * c.range, low := 2 * (c.low - 256) }) ∧
      (256 ≤ c.low → c.low < 512 → 2 ^ 32 - 1 ≤ c.outst → renorm c = .error .outstOverflow))

/-- R276, R266: CDEC, in every state that may code; where it completes and where the output or the count of outstanding
bits stops it (R272, R92; of the two the count comes first, log 8). -/
def Obligations.CdecCodesDecision : Prop :=
  ∀ (s : State) (ctx : BitVec 10) (bin : Bool) (h : ctx.toNat < 460), ctx.toNat ≠ 276 → s.Ranges → MayCode s →
    let p := (s.ctx[ctx.toNat]).pStateIdx
    let mps := (s.ctx[ctx.toNat]).valMPS
    let rLPS := entry rangeTabLPS p (s.cabac.range / 64 % 4)
    let range := s.cabac.range - rLPS
    let coded := renorm (if bin = mps then
        ⟨range, s.cabac.low, s.cabac.outst, s.cabac.first,
          s.ctx.set ctx.toNat ⟨if p < 62 then p + 1 else p, mps⟩, []⟩
      else
        ⟨rLPS, s.cabac.low + range, s.cabac.outst, s.cabac.first,
          s.ctx.set ctx.toNat ⟨transIdxLPS.getD p 0, if p = 0 then !mps else mps⟩, []⟩)
    CodesTo (.cdec ctx bin) s coded .active s.result 5 ∧
    ∀ c, coded = .ok c → 256 ≤ c.range ∧ c.range ≤ 510 ∧ c.low ≤ 1023 ∧
      ∀ j (hj : j < 460), j ≠ ctx.toNat → c.ctx[j] = s.ctx[j]

/-- R277, R278, R267: CBYP and CBYPN, in every state that may code; where they complete and where the output or the count
of outstanding bits stops them (R272, R92; log 8). CBYPN is its bins in turn, the most significant first. -/
def Obligations.BypassBinsAreCoded : Prop :=
  ∀ s : State, s.Ranges → MayCode s →
    (∀ bin : Bool,
      let low := 2 * s.cabac.low + if bin then s.cabac.range else 0
      CodesTo (.cbyp bin) s
        (if 1024 ≤ low then .ok (s.loadCoder.resolved true s.cabac.range (low - 1024))
        else if low < 512 then .ok (s.loadCoder.resolved false s.cabac.range low)
        else if s.cabac.outst < 2 ^ 32 - 1 then .ok { s.loadCoder with low := low - 512, outst := s.cabac.outst + 1 }
        else .error .outstOverflow) .active s.result 5) ∧
    ∀ (n : BitVec 6) (value : Word), n.toNat ≤ 32 →
      CodesTo (.cbypn n value) s
        (codeBins s.loadCoder ((List.range n.toNat).map fun i => .bypass (value.getLsbD (n.toNat - 1 - i))))
        .active s.result 98

/-- R279, R269: CTERM, in every state that may code: with bin 0 it renormalizes, with bin 1 it flushes and terminates;
where it completes and where the output or the count of outstanding bits stops it (R272, R92; log 8). -/
def Obligations.CtermTerminates : Prop :=
  ∀ s : State, s.Ranges → MayCode s →
    CodesTo (.cterm false) s (renorm { s.loadCoder with range := s.cabac.range - 2 }) .active s.result 5 ∧
    CodesTo (.cterm true) s
      ((renorm { s.loadCoder with range := 2, low := s.cabac.low + (s.cabac.range - 2) }).map fun c =>
        { c.resolved (c.low.testBit 9) c.range c.low with
          bits := (c.resolved (c.low.testBit 9) c.range c.low).bits ++ [c.low.testBit 8, true] })
      .terminated s.result 5

/-- The arithmetic code is exact: whatever bins are coded, the interval after them, at the scale of the n places written
since, lies within the interval before them; the bits out account for every place, but for the first, which is 0 and not
written (R265 to R268). -/
def Obligations.CoderIntervalsNest : Prop :=
  ∀ (c d : Coder) (bins : List Bin), c.Fits → c.FirstIsZero → (∀ b ∈ bins, b ≠ .terminate true) →
    codeBins c bins = .ok d →
    d.Fits ∧ d.FirstIsZero ∧ ∃ n, c.lower * 2 ^ n ≤ d.lower ∧ d.lower + d.range ≤ (c.lower + c.range) * 2 ^ n ∧
      d.bits.length + d.outst + (if c.first = true ∧ d.first = false then 1 else 0) = c.bits.length + c.outst + n ∧
      c.bits <+: d.bits

/-- R260: the engine commands neither read nor write the buffer RAM, the scaling RAM, QP, RESULT, SAT, the descriptors or
CTRL. -/
def Obligations.EngineCommandsAreIsolated : Prop :=
  ∀ (i : Instr) (s t : State), isEngine i = true → exec i s = .next t →
    ∀ (bram : Bram) (scal : Vector Byte 224) (qpy : Nat) (cboff croff : Int) (result : Word) (sat en ll : Bool)
      (desc : List Desc),
      exec i { s with bram := bram, scal := scal, qpy := qpy, cboff := cboff, croff := croff, result := result,
                      sat := sat, enable := en, lossless := ll, desc := desc } =
        .next { t with bram := bram, scal := scal, qpy := qpy, cboff := cboff, croff := croff, result := result,
                       sat := sat, enable := en, lossless := ll, desc := desc }

/-- R335: the state checks of the raw bit commands, in their order, whether or not a bit would be written; R271, R307:
those of the coding commands, CRES after the checks of its source block. -/
def Obligations.BitCommandsCheckState : Prop :=
  (∀ (i : Instr) (s : State), i.wellFormed = true →
    (codesBins i = true → (s.cabac.state ≠ .active → CommandRefused i s 0x09) ∧
      (s.cabac.state = .active → s.bw.nalOpen = false → CommandRefused i s 0x0A)) ∧
    (isRaw i = true → (s.bw.nalOpen = false → CommandRefused i s 0x0A) ∧
      (s.bw.nalOpen = true → s.cabac.state = .active → CommandRefused i s 0x09))) ∧
  ∀ (s : State) (src : BitVec 10) (cat : BitVec 3) (cbfinc : BitVec 2) (codeCbf : Bool) (cs : List Int),
    cat.toNat ≤ 5 → ¬(cat.toNat = 5 ∧ codeCbf = true) → ScannedAt s src.toNat cat.toNat cs →
    (s.cabac.state ≠ .active → CommandRefused (.cres src cat cbfinc codeCbf) s 0x09) ∧
    (s.cabac.state = .active → s.bw.nalOpen = false → CommandRefused (.cres src cat cbfinc codeCbf) s 0x0A)

/-! ### Residual blocks -/

/-- R310, R307: CRES codes the bins of its block and counts its coefficients, in every state that may code; where it
completes and where the output or the count of outstanding bits stops it (log 8); an all-zero block without its flag is
refused. -/
def Obligations.CresCodesBlock : Prop :=
  ∀ (s : State) (src : BitVec 10) (cat : BitVec 3) (cbfinc : BitVec 2) (codeCbf : Bool) (cs : List Int),
    cat.toNat ≤ 5 → ¬(cat.toNat = 5 ∧ codeCbf = true) → s.Ranges → ScannedAt s src.toNat cat.toNat cs → MayCode s →
    (nonZeros cs = 0 → codeCbf = false → CommandRefused (.cres src cat cbfinc codeCbf) s 0x0E) ∧
    (nonZeros cs ≠ 0 ∨ codeCbf = true →
      CodesTo (.cres src cat cbfinc codeCbf) s
        (codeBins s.loadCoder (residualBins cat.toNat cbfinc.toNat codeCbf cs)) .active
        (BitVec.ofNat 32 (nonZeros cs)) 9215)

/-- R301 to R306, R300: the bins of a block, in closed form (LAST8 of R303 as printed, log 11); none of its contexts is
276 or lies outside 85..275 and 402..435. -/
def Obligations.ResidualBinsFollowSyntax : Prop :=
  ∀ (cat cbfinc : Nat) (codeCbf : Bool) (cs : List Int), cat ≤ 5 → cbfinc ≤ 3 → ¬(cat = 5 ∧ codeCbf = true) →
    cs.length = (scanList cat).length → (∀ c ∈ cs, -32768 ≤ c ∧ c ≤ 32767) →
    let flagBins : List Bin := if codeCbf then [.decision (85 + 4 * cat + cbfinc) (decide (nonZeros cs ≠ 0))] else []
    (nonZeros cs = 0 → residualBins cat cbfinc codeCbf cs = flagBins) ∧
    (∀ last, last < cs.length → cs.getD last 0 ≠ 0 → (∀ j, last < j → cs.getD j 0 = 0) →
      residualBins cat cbfinc codeCbf cs =
        flagBins ++ mapSyntax cat last cs ++ levelsSyntax cat (cs.filter (· ≠ 0)).reverse) ∧
    ∀ i b, .decision i b ∈ residualBins cat cbfinc codeCbf cs → (85 ≤ i ∧ i ≤ 275) ∨ (402 ≤ i ∧ i ≤ 435)

/-! ### NAL units and raw bits -/

/-- R340, R322, R321: NALB. -/
def Obligations.NalbOpensUnit : Prop :=
  ∀ (s : State) (refIdc : BitVec 2) (nalType : BitVec 5), nalType ≠ 0 →
    (s.bw.nalOpen = true → CommandRefused (.nalb refIdc nalType) s 0x0A) ∧
    (s.bw.nalOpen = false → s.desc.length = 64 → CommandRefused (.nalb refIdc nalType) s 0x0D) ∧
    (s.bw.nalOpen = false → s.desc.length ≠ 64 → 65536 ≤ s.wptr → CommandRefused (.nalb refIdc nalType) s 0x0C) ∧
    (s.bw.nalOpen = false → s.desc.length ≠ 64 → s.wptr < 65536 →
      let hdr := BitVec.ofNat 8 (refIdc.toNat * 32 + nalType.toNat)
      ∃ t, exec (.nalb refIdc nalType) s = .next t ∧
        t = { s with out := t.out, wptr := s.wptr + 1, bw := ⟨true, [], 0, false, BitVec.ofNat 32 s.wptr, 0, hdr⟩
                     irqPend := s.irqPend ||| if s.fifo = [] then 0b010 else 0 } ∧
        ∀ k, t.outByte k = if k = s.wptr then hdr else s.outByte k)

/-- R342, R329, R333: NALE. -/
def Obligations.NaleClosesUnit : Prop :=
  ∀ s : State,
    (s.bw.nalOpen = false → CommandRefused .nale s 0x0A) ∧
    (s.bw.nalOpen = true → s.bw.acc ≠ [] → CommandRefused .nale s 0x0B) ∧
    (s.bw.nalOpen = true → s.bw.acc = [] → s.cabac.state = .active → CommandRefused .nale s 0x09) ∧
    (s.bw.nalOpen = true → s.bw.acc = [] → s.cabac.state ≠ .active →
      let last := s.wptr + if s.bw.lastZero then 1 else 0
      (65536 < last → CommandRefused .nale s 0x0C) ∧
      (last ≤ 65536 → ∃ t, exec .nale s = .next t ∧
        t = { s with out := t.out, wptr := last
                     desc := s.desc ++ [⟨s.bw.nalStart.toNat, last - s.bw.nalStart.toNat, s.bw.hdr⟩]
                     bw := { s.bw with nalOpen := false, zeros := 0, lastZero := false }
                     cabac := { s.cabac with state := .idle }
                     irqPend := s.irqPend ||| 0b100 ||| if s.fifo = [] then 0b010 else 0 } ∧
        ∀ k, t.outByte k = if k = s.wptr ∧ s.bw.lastZero = true then 0x03 else s.outByte k))

/-- R343, R334: NALX. That it sets IDLE like every command (R380) is log 18. -/
def Obligations.NalxAbortsUnit : Prop :=
  ∀ s : State,
    (s.bw.nalOpen = false → CommandRefused .nalx s 0x0A) ∧
    (s.bw.nalOpen = true → s.bw.nalStart.toNat ≤ s.wptr → ∃ t, exec .nalx s = .next t ∧
      t = { s with out := t.out, wptr := s.bw.nalStart.toNat, bw := ⟨false, [], 0, false, s.bw.nalStart, 0, 0⟩
                   cabac := { s.cabac with state := .idle }
                   irqPend := s.irqPend ||| if s.fifo = [] then 0b010 else 0 } ∧
      ∀ k, t.outByte k = if k < s.bw.nalStart.toNat then s.outByte k else 0)

/-- R344 to R348, R330 to R332: the raw bits of PUTB, PUTUE, PUTSE, ALIGN and TRAIL, where they fit and where they do not
(R92, R321), and the two values refused. -/
def Obligations.RawBitCommandsWrite : Prop :=
  ∀ s : State, s.bw.acc.length ≤ 7 → MayWriteRaw s →
    (∀ (n : BitVec 6) (value : Word), n.toNat ≤ 32 →
      WritesBits (.putb n value) s ((List.range n.toNat).map fun i => value.getLsbD (n.toNat - 1 - i))) ∧
    (∀ (value : Word) (lz : Nat), 2 ^ lz ≤ value.toNat + 1 → value.toNat + 1 < 2 ^ (lz + 1) → lz ≤ 31 →
      WritesBits (.putue value) s (List.replicate lz false ++
        (List.range (lz + 1)).map fun i => (value.toNat + 1).testBit (lz - i))) ∧
    (∀ (value : Word) (k lz : Nat), (k : Int) = (if 0 < value.toInt then 2 * value.toInt - 1 else -2 * value.toInt) →
      2 ^ lz ≤ k + 1 → k + 1 < 2 ^ (lz + 1) → lz ≤ 31 →
      WritesBits (.putse value) s (List.replicate lz false ++
        (List.range (lz + 1)).map fun i => (k + 1).testBit (lz - i))) ∧
    CommandRefused (.putue 0xFFFFFFFF) s 0x0F ∧ CommandRefused (.putse 0x80000000) s 0x0F ∧
    WritesBits .align s (List.replicate ((8 - s.bw.acc.length) % 8) false) ∧
    WritesBits .trail s (true :: List.replicate (7 - s.bw.acc.length) false) ∧
    ∀ i ∈ [Instr.align, .trail], ∀ t, exec i s = .next t → t.err = false → t.bw.acc = []

/-- R349: PUTBYTES, where its bytes fit and where they do not (R92, R321), and its own checks in their order. -/
def Obligations.PutbytesWritesPayload : Prop :=
  ∀ (s : State) (src : BitVec 10) (count : BitVec 11), count.toNat ≤ 1024 → MayWriteRaw s →
    (s.bw.acc ≠ [] → CommandRefused (.putbytes src count) s 0x0B) ∧
    (s.bw.acc = [] → 0 < count.toNat → 1024 < src.toNat + count.toNat → CommandRefused (.putbytes src count) s 0x05) ∧
    (s.bw.acc = [] → src.toNat + count.toNat ≤ 1024 → (∃ j < count.toNat, s.bram.read (src.toNat + j) = none) →
      CommandRefused (.putbytes src count) s 0x06) ∧
    (s.bw.acc = [] → count.toNat = 0 ∨ src.toNat + count.toNat ≤ 1024 →
      ∀ ws : List Word, ws.length = count.toNat →
        (∀ j < count.toNat, s.bram.read (src.toNat + j) = some (ws.getD j 0)) →
        let bytes := ws.map fun w => w.extractLsb' 0 8
        (BytesFit s bytes → ∃ t, exec (.putbytes src count) s = .next t ∧ Emitted s t bytes ∧
          t.bw.acc = [] ∧ t.bw.nalBits = s.bw.nalBits + BitVec.ofNat 32 (8 * count.toNat) ∧ t.cabac = s.cabac ∧
          t.ctx = s.ctx ∧ BramKept s t ∧ FlagsKept s t ∧ QpKept s t ∧ HostSideKept s t ∧ IrqAfter s t 0) ∧
        (¬BytesFit s bytes → CommandRefused (.putbytes src count) s 0x0C))

/-- R326, R327: emulation prevention loses nothing (a reader that drops each 0x03 after two zero bytes gets the payload
back), and no 00 00 00, 00 00 01 or 00 00 02 is left in what is written (R327 as log 9 reads it). -/
def Obligations.EmulationPreventionIsReversible : Prop :=
  ∀ (w : BitWriter) (bytes : List Byte), w.zeros ≤ 2 →
    (emitBytes w bytes).2 = escape w.zeros bytes ∧ unescape w.zeros (emitBytes w bytes).2 = bytes ∧
    ∀ k, k + 2 < (emitBytes w bytes).2.length →
      ¬((emitBytes w bytes).2.getD k 0 = 0 ∧ (emitBytes w bytes).2.getD (k + 1) 0 = 0 ∧
        ((emitBytes w bytes).2.getD (k + 2) 0).toNat ≤ 2)

end Statements
end

