-- ==== Sys2Proof/Laws/State.lean ====
section
/-! SUPPORT. One lemma for each field and each named update of the state, so that no proof unfolds an update. -/

namespace Sys2Proof.Machine

/-! ### raiseIrq -/

section
variable (s : State) (bits : BitVec 3)

@[simp] theorem raiseIrq_enable : (s.raiseIrq bits).enable = s.enable := rfl
@[simp] theorem raiseIrq_lossless : (s.raiseIrq bits).lossless = s.lossless := rfl
@[simp] theorem raiseIrq_err : (s.raiseIrq bits).err = s.err := rfl
@[simp] theorem raiseIrq_errcode : (s.raiseIrq bits).errcode = s.errcode := rfl
@[simp] theorem raiseIrq_errinfoLo : (s.raiseIrq bits).errinfoLo = s.errinfoLo := rfl
@[simp] theorem raiseIrq_errinfoHi : (s.raiseIrq bits).errinfoHi = s.errinfoHi := rfl
@[simp] theorem raiseIrq_sat : (s.raiseIrq bits).sat = s.sat := rfl
@[simp] theorem raiseIrq_qpy : (s.raiseIrq bits).qpy = s.qpy := rfl
@[simp] theorem raiseIrq_cboff : (s.raiseIrq bits).cboff = s.cboff := rfl
@[simp] theorem raiseIrq_croff : (s.raiseIrq bits).croff = s.croff := rfl
@[simp] theorem raiseIrq_result : (s.raiseIrq bits).result = s.result := rfl
@[simp] theorem raiseIrq_cmdHiStage : (s.raiseIrq bits).cmdHiStage = s.cmdHiStage := rfl
@[simp] theorem raiseIrq_fifo : (s.raiseIrq bits).fifo = s.fifo := rfl
@[simp] theorem raiseIrq_irqEn : (s.raiseIrq bits).irqEn = s.irqEn := rfl
@[simp] theorem raiseIrq_irqPend : (s.raiseIrq bits).irqPend = s.irqPend ||| bits := rfl
@[simp] theorem raiseIrq_cabac : (s.raiseIrq bits).cabac = s.cabac := rfl
@[simp] theorem raiseIrq_ctx : (s.raiseIrq bits).ctx = s.ctx := rfl
@[simp] theorem raiseIrq_scal : (s.raiseIrq bits).scal = s.scal := rfl
@[simp] theorem raiseIrq_bram : (s.raiseIrq bits).bram = s.bram := rfl
@[simp] theorem raiseIrq_bw : (s.raiseIrq bits).bw = s.bw := rfl
@[simp] theorem raiseIrq_out : (s.raiseIrq bits).out = s.out := rfl
@[simp] theorem raiseIrq_wptr : (s.raiseIrq bits).wptr = s.wptr := rfl
@[simp] theorem raiseIrq_desc : (s.raiseIrq bits).desc = s.desc := rfl
@[simp] theorem raiseIrq_agenda : (s.raiseIrq bits).agenda = s.agenda := rfl
@[simp] theorem raiseIrq_readData : (s.raiseIrq bits).readData = s.readData := rfl
@[simp] theorem raiseIrq_draws : (s.raiseIrq bits).draws = s.draws := rfl

end

/-! ### setResult -/

section
variable (s : State) (n : Nat)

@[simp] theorem setResult_enable : (s.setResult n).enable = s.enable := rfl
@[simp] theorem setResult_lossless : (s.setResult n).lossless = s.lossless := rfl
@[simp] theorem setResult_err : (s.setResult n).err = s.err := rfl
@[simp] theorem setResult_errcode : (s.setResult n).errcode = s.errcode := rfl
@[simp] theorem setResult_errinfoLo : (s.setResult n).errinfoLo = s.errinfoLo := rfl
@[simp] theorem setResult_errinfoHi : (s.setResult n).errinfoHi = s.errinfoHi := rfl
@[simp] theorem setResult_sat : (s.setResult n).sat = s.sat := rfl
@[simp] theorem setResult_qpy : (s.setResult n).qpy = s.qpy := rfl
@[simp] theorem setResult_cboff : (s.setResult n).cboff = s.cboff := rfl
@[simp] theorem setResult_croff : (s.setResult n).croff = s.croff := rfl
@[simp] theorem setResult_result : (s.setResult n).result = BitVec.ofNat 32 n := rfl
@[simp] theorem setResult_cmdHiStage : (s.setResult n).cmdHiStage = s.cmdHiStage := rfl
@[simp] theorem setResult_fifo : (s.setResult n).fifo = s.fifo := rfl
@[simp] theorem setResult_irqEn : (s.setResult n).irqEn = s.irqEn := rfl
@[simp] theorem setResult_irqPend : (s.setResult n).irqPend = s.irqPend := rfl
@[simp] theorem setResult_cabac : (s.setResult n).cabac = s.cabac := rfl
@[simp] theorem setResult_ctx : (s.setResult n).ctx = s.ctx := rfl
@[simp] theorem setResult_scal : (s.setResult n).scal = s.scal := rfl
@[simp] theorem setResult_bram : (s.setResult n).bram = s.bram := rfl
@[simp] theorem setResult_bw : (s.setResult n).bw = s.bw := rfl
@[simp] theorem setResult_out : (s.setResult n).out = s.out := rfl
@[simp] theorem setResult_wptr : (s.setResult n).wptr = s.wptr := rfl
@[simp] theorem setResult_desc : (s.setResult n).desc = s.desc := rfl
@[simp] theorem setResult_agenda : (s.setResult n).agenda = s.agenda := rfl
@[simp] theorem setResult_readData : (s.setResult n).readData = s.readData := rfl
@[simp] theorem setResult_draws : (s.setResult n).draws = s.draws := rfl

end

/-! ### markSat -/

section
variable (s : State) (b : Bool)

@[simp] theorem markSat_enable : (s.markSat b).enable = s.enable := rfl
@[simp] theorem markSat_lossless : (s.markSat b).lossless = s.lossless := rfl
@[simp] theorem markSat_err : (s.markSat b).err = s.err := rfl
@[simp] theorem markSat_errcode : (s.markSat b).errcode = s.errcode := rfl
@[simp] theorem markSat_errinfoLo : (s.markSat b).errinfoLo = s.errinfoLo := rfl
@[simp] theorem markSat_errinfoHi : (s.markSat b).errinfoHi = s.errinfoHi := rfl
@[simp] theorem markSat_sat : (s.markSat b).sat = (s.sat || b) := rfl
@[simp] theorem markSat_qpy : (s.markSat b).qpy = s.qpy := rfl
@[simp] theorem markSat_cboff : (s.markSat b).cboff = s.cboff := rfl
@[simp] theorem markSat_croff : (s.markSat b).croff = s.croff := rfl
@[simp] theorem markSat_result : (s.markSat b).result = s.result := rfl
@[simp] theorem markSat_cmdHiStage : (s.markSat b).cmdHiStage = s.cmdHiStage := rfl
@[simp] theorem markSat_fifo : (s.markSat b).fifo = s.fifo := rfl
@[simp] theorem markSat_irqEn : (s.markSat b).irqEn = s.irqEn := rfl
@[simp] theorem markSat_irqPend : (s.markSat b).irqPend = s.irqPend := rfl
@[simp] theorem markSat_cabac : (s.markSat b).cabac = s.cabac := rfl
@[simp] theorem markSat_ctx : (s.markSat b).ctx = s.ctx := rfl
@[simp] theorem markSat_scal : (s.markSat b).scal = s.scal := rfl
@[simp] theorem markSat_bram : (s.markSat b).bram = s.bram := rfl
@[simp] theorem markSat_bw : (s.markSat b).bw = s.bw := rfl
@[simp] theorem markSat_out : (s.markSat b).out = s.out := rfl
@[simp] theorem markSat_wptr : (s.markSat b).wptr = s.wptr := rfl
@[simp] theorem markSat_desc : (s.markSat b).desc = s.desc := rfl
@[simp] theorem markSat_agenda : (s.markSat b).agenda = s.agenda := rfl
@[simp] theorem markSat_readData : (s.markSat b).readData = s.readData := rfl
@[simp] theorem markSat_draws : (s.markSat b).draws = s.draws := rfl

end

/-! ### setQp -/

section
variable (s : State) (q : Nat) (cb cr : Int)

@[simp] theorem setQp_enable : (s.setQp q cb cr).enable = s.enable := rfl
@[simp] theorem setQp_lossless : (s.setQp q cb cr).lossless = s.lossless := rfl
@[simp] theorem setQp_err : (s.setQp q cb cr).err = s.err := rfl
@[simp] theorem setQp_errcode : (s.setQp q cb cr).errcode = s.errcode := rfl
@[simp] theorem setQp_errinfoLo : (s.setQp q cb cr).errinfoLo = s.errinfoLo := rfl
@[simp] theorem setQp_errinfoHi : (s.setQp q cb cr).errinfoHi = s.errinfoHi := rfl
@[simp] theorem setQp_sat : (s.setQp q cb cr).sat = s.sat := rfl
@[simp] theorem setQp_qpy : (s.setQp q cb cr).qpy = q := rfl
@[simp] theorem setQp_cboff : (s.setQp q cb cr).cboff = cb := rfl
@[simp] theorem setQp_croff : (s.setQp q cb cr).croff = cr := rfl
@[simp] theorem setQp_result : (s.setQp q cb cr).result = s.result := rfl
@[simp] theorem setQp_cmdHiStage : (s.setQp q cb cr).cmdHiStage = s.cmdHiStage := rfl
@[simp] theorem setQp_fifo : (s.setQp q cb cr).fifo = s.fifo := rfl
@[simp] theorem setQp_irqEn : (s.setQp q cb cr).irqEn = s.irqEn := rfl
@[simp] theorem setQp_irqPend : (s.setQp q cb cr).irqPend = s.irqPend := rfl
@[simp] theorem setQp_cabac : (s.setQp q cb cr).cabac = s.cabac := rfl
@[simp] theorem setQp_ctx : (s.setQp q cb cr).ctx = s.ctx := rfl
@[simp] theorem setQp_scal : (s.setQp q cb cr).scal = s.scal := rfl
@[simp] theorem setQp_bram : (s.setQp q cb cr).bram = s.bram := rfl
@[simp] theorem setQp_bw : (s.setQp q cb cr).bw = s.bw := rfl
@[simp] theorem setQp_out : (s.setQp q cb cr).out = s.out := rfl
@[simp] theorem setQp_wptr : (s.setQp q cb cr).wptr = s.wptr := rfl
@[simp] theorem setQp_desc : (s.setQp q cb cr).desc = s.desc := rfl
@[simp] theorem setQp_agenda : (s.setQp q cb cr).agenda = s.agenda := rfl
@[simp] theorem setQp_readData : (s.setQp q cb cr).readData = s.readData := rfl
@[simp] theorem setQp_draws : (s.setQp q cb cr).draws = s.draws := rfl

end

/-! ### writeBlock -/

section
variable (s : State) (a : Nat) (ws : List Word)

@[simp] theorem writeBlock_enable : (s.writeBlock a ws).enable = s.enable := rfl
@[simp] theorem writeBlock_lossless : (s.writeBlock a ws).lossless = s.lossless := rfl
@[simp] theorem writeBlock_err : (s.writeBlock a ws).err = s.err := rfl
@[simp] theorem writeBlock_errcode : (s.writeBlock a ws).errcode = s.errcode := rfl
@[simp] theorem writeBlock_errinfoLo : (s.writeBlock a ws).errinfoLo = s.errinfoLo := rfl
@[simp] theorem writeBlock_errinfoHi : (s.writeBlock a ws).errinfoHi = s.errinfoHi := rfl
@[simp] theorem writeBlock_sat : (s.writeBlock a ws).sat = s.sat := rfl
@[simp] theorem writeBlock_qpy : (s.writeBlock a ws).qpy = s.qpy := rfl
@[simp] theorem writeBlock_cboff : (s.writeBlock a ws).cboff = s.cboff := rfl
@[simp] theorem writeBlock_croff : (s.writeBlock a ws).croff = s.croff := rfl
@[simp] theorem writeBlock_result : (s.writeBlock a ws).result = s.result := rfl
@[simp] theorem writeBlock_cmdHiStage : (s.writeBlock a ws).cmdHiStage = s.cmdHiStage := rfl
@[simp] theorem writeBlock_fifo : (s.writeBlock a ws).fifo = s.fifo := rfl
@[simp] theorem writeBlock_irqEn : (s.writeBlock a ws).irqEn = s.irqEn := rfl
@[simp] theorem writeBlock_irqPend : (s.writeBlock a ws).irqPend = s.irqPend := rfl
@[simp] theorem writeBlock_cabac : (s.writeBlock a ws).cabac = s.cabac := rfl
@[simp] theorem writeBlock_ctx : (s.writeBlock a ws).ctx = s.ctx := rfl
@[simp] theorem writeBlock_scal : (s.writeBlock a ws).scal = s.scal := rfl
@[simp] theorem writeBlock_bram : (s.writeBlock a ws).bram = s.bram.writeAll a ws := rfl
@[simp] theorem writeBlock_bw : (s.writeBlock a ws).bw = s.bw := rfl
@[simp] theorem writeBlock_out : (s.writeBlock a ws).out = s.out := rfl
@[simp] theorem writeBlock_wptr : (s.writeBlock a ws).wptr = s.wptr := rfl
@[simp] theorem writeBlock_desc : (s.writeBlock a ws).desc = s.desc := rfl
@[simp] theorem writeBlock_agenda : (s.writeBlock a ws).agenda = s.agenda := rfl
@[simp] theorem writeBlock_readData : (s.writeBlock a ws).readData = s.readData := rfl
@[simp] theorem writeBlock_draws : (s.writeBlock a ws).draws = s.draws := rfl

end

/-! ### clearError -/

section
variable (s : State)

@[simp] theorem clearError_enable : (s.clearError).enable = s.enable := rfl
@[simp] theorem clearError_lossless : (s.clearError).lossless = s.lossless := rfl
@[simp] theorem clearError_err : (s.clearError).err = false := rfl
@[simp] theorem clearError_errcode : (s.clearError).errcode = 0 := rfl
@[simp] theorem clearError_errinfoLo : (s.clearError).errinfoLo = 0 := rfl
@[simp] theorem clearError_errinfoHi : (s.clearError).errinfoHi = 0 := rfl
@[simp] theorem clearError_sat : (s.clearError).sat = s.sat := rfl
@[simp] theorem clearError_qpy : (s.clearError).qpy = s.qpy := rfl
@[simp] theorem clearError_cboff : (s.clearError).cboff = s.cboff := rfl
@[simp] theorem clearError_croff : (s.clearError).croff = s.croff := rfl
@[simp] theorem clearError_result : (s.clearError).result = s.result := rfl
@[simp] theorem clearError_cmdHiStage : (s.clearError).cmdHiStage = s.cmdHiStage := rfl
@[simp] theorem clearError_fifo : (s.clearError).fifo = [] := rfl
@[simp] theorem clearError_irqEn : (s.clearError).irqEn = s.irqEn := rfl
@[simp] theorem clearError_irqPend : (s.clearError).irqPend = s.irqPend := rfl
@[simp] theorem clearError_cabac : (s.clearError).cabac = s.cabac := rfl
@[simp] theorem clearError_ctx : (s.clearError).ctx = s.ctx := rfl
@[simp] theorem clearError_scal : (s.clearError).scal = s.scal := rfl
@[simp] theorem clearError_bram : (s.clearError).bram = s.bram := rfl
@[simp] theorem clearError_bw : (s.clearError).bw = s.bw := rfl
@[simp] theorem clearError_out : (s.clearError).out = s.out := rfl
@[simp] theorem clearError_wptr : (s.clearError).wptr = s.wptr := rfl
@[simp] theorem clearError_desc : (s.clearError).desc = s.desc := rfl
@[simp] theorem clearError_agenda : (s.clearError).agenda = s.agenda := rfl
@[simp] theorem clearError_readData : (s.clearError).readData = s.readData := rfl
@[simp] theorem clearError_draws : (s.clearError).draws = s.draws := rfl

end

/-! ### setCabacState -/

section
variable (s : State) (v : CabacState)

@[simp] theorem setCabacState_enable : (s.setCabacState v).enable = s.enable := rfl
@[simp] theorem setCabacState_lossless : (s.setCabacState v).lossless = s.lossless := rfl
@[simp] theorem setCabacState_err : (s.setCabacState v).err = s.err := rfl
@[simp] theorem setCabacState_errcode : (s.setCabacState v).errcode = s.errcode := rfl
@[simp] theorem setCabacState_errinfoLo : (s.setCabacState v).errinfoLo = s.errinfoLo := rfl
@[simp] theorem setCabacState_errinfoHi : (s.setCabacState v).errinfoHi = s.errinfoHi := rfl
@[simp] theorem setCabacState_sat : (s.setCabacState v).sat = s.sat := rfl
@[simp] theorem setCabacState_qpy : (s.setCabacState v).qpy = s.qpy := rfl
@[simp] theorem setCabacState_cboff : (s.setCabacState v).cboff = s.cboff := rfl
@[simp] theorem setCabacState_croff : (s.setCabacState v).croff = s.croff := rfl
@[simp] theorem setCabacState_result : (s.setCabacState v).result = s.result := rfl
@[simp] theorem setCabacState_cmdHiStage : (s.setCabacState v).cmdHiStage = s.cmdHiStage := rfl
@[simp] theorem setCabacState_fifo : (s.setCabacState v).fifo = s.fifo := rfl
@[simp] theorem setCabacState_irqEn : (s.setCabacState v).irqEn = s.irqEn := rfl
@[simp] theorem setCabacState_irqPend : (s.setCabacState v).irqPend = s.irqPend := rfl
@[simp] theorem setCabacState_cabac : (s.setCabacState v).cabac = { s.cabac with state := v } := rfl
@[simp] theorem setCabacState_ctx : (s.setCabacState v).ctx = s.ctx := rfl
@[simp] theorem setCabacState_scal : (s.setCabacState v).scal = s.scal := rfl
@[simp] theorem setCabacState_bram : (s.setCabacState v).bram = s.bram := rfl
@[simp] theorem setCabacState_bw : (s.setCabacState v).bw = s.bw := rfl
@[simp] theorem setCabacState_out : (s.setCabacState v).out = s.out := rfl
@[simp] theorem setCabacState_wptr : (s.setCabacState v).wptr = s.wptr := rfl
@[simp] theorem setCabacState_desc : (s.setCabacState v).desc = s.desc := rfl
@[simp] theorem setCabacState_agenda : (s.setCabacState v).agenda = s.agenda := rfl
@[simp] theorem setCabacState_readData : (s.setCabacState v).readData = s.readData := rfl
@[simp] theorem setCabacState_draws : (s.setCabacState v).draws = s.draws := rfl

end

/-! ### startCoder -/

section
variable (s : State)

@[simp] theorem startCoder_enable : (s.startCoder).enable = s.enable := rfl
@[simp] theorem startCoder_lossless : (s.startCoder).lossless = s.lossless := rfl
@[simp] theorem startCoder_err : (s.startCoder).err = s.err := rfl
@[simp] theorem startCoder_errcode : (s.startCoder).errcode = s.errcode := rfl
@[simp] theorem startCoder_errinfoLo : (s.startCoder).errinfoLo = s.errinfoLo := rfl
@[simp] theorem startCoder_errinfoHi : (s.startCoder).errinfoHi = s.errinfoHi := rfl
@[simp] theorem startCoder_sat : (s.startCoder).sat = s.sat := rfl
@[simp] theorem startCoder_qpy : (s.startCoder).qpy = s.qpy := rfl
@[simp] theorem startCoder_cboff : (s.startCoder).cboff = s.cboff := rfl
@[simp] theorem startCoder_croff : (s.startCoder).croff = s.croff := rfl
@[simp] theorem startCoder_result : (s.startCoder).result = s.result := rfl
@[simp] theorem startCoder_cmdHiStage : (s.startCoder).cmdHiStage = s.cmdHiStage := rfl
@[simp] theorem startCoder_fifo : (s.startCoder).fifo = s.fifo := rfl
@[simp] theorem startCoder_irqEn : (s.startCoder).irqEn = s.irqEn := rfl
@[simp] theorem startCoder_irqPend : (s.startCoder).irqPend = s.irqPend := rfl
@[simp] theorem startCoder_cabac : (s.startCoder).cabac = ⟨.active, 510, 0, 0, true⟩ := rfl
@[simp] theorem startCoder_ctx : (s.startCoder).ctx = s.ctx := rfl
@[simp] theorem startCoder_scal : (s.startCoder).scal = s.scal := rfl
@[simp] theorem startCoder_bram : (s.startCoder).bram = s.bram := rfl
@[simp] theorem startCoder_bw : (s.startCoder).bw = s.bw := rfl
@[simp] theorem startCoder_out : (s.startCoder).out = s.out := rfl
@[simp] theorem startCoder_wptr : (s.startCoder).wptr = s.wptr := rfl
@[simp] theorem startCoder_desc : (s.startCoder).desc = s.desc := rfl
@[simp] theorem startCoder_agenda : (s.startCoder).agenda = s.agenda := rfl
@[simp] theorem startCoder_readData : (s.startCoder).readData = s.readData := rfl
@[simp] theorem startCoder_draws : (s.startCoder).draws = s.draws := rfl

end

/-! ### storeCoder -/

section
variable (s : State) (c : Coder)

@[simp] theorem storeCoder_enable : (s.storeCoder c).enable = s.enable := rfl
@[simp] theorem storeCoder_lossless : (s.storeCoder c).lossless = s.lossless := rfl
@[simp] theorem storeCoder_err : (s.storeCoder c).err = s.err := rfl
@[simp] theorem storeCoder_errcode : (s.storeCoder c).errcode = s.errcode := rfl
@[simp] theorem storeCoder_errinfoLo : (s.storeCoder c).errinfoLo = s.errinfoLo := rfl
@[simp] theorem storeCoder_errinfoHi : (s.storeCoder c).errinfoHi = s.errinfoHi := rfl
@[simp] theorem storeCoder_sat : (s.storeCoder c).sat = s.sat := rfl
@[simp] theorem storeCoder_qpy : (s.storeCoder c).qpy = s.qpy := rfl
@[simp] theorem storeCoder_cboff : (s.storeCoder c).cboff = s.cboff := rfl
@[simp] theorem storeCoder_croff : (s.storeCoder c).croff = s.croff := rfl
@[simp] theorem storeCoder_result : (s.storeCoder c).result = s.result := rfl
@[simp] theorem storeCoder_cmdHiStage : (s.storeCoder c).cmdHiStage = s.cmdHiStage := rfl
@[simp] theorem storeCoder_fifo : (s.storeCoder c).fifo = s.fifo := rfl
@[simp] theorem storeCoder_irqEn : (s.storeCoder c).irqEn = s.irqEn := rfl
@[simp] theorem storeCoder_irqPend : (s.storeCoder c).irqPend = s.irqPend := rfl
@[simp] theorem storeCoder_cabac : (s.storeCoder c).cabac = ⟨s.cabac.state, c.range, c.low, c.outst, c.first⟩ := rfl
@[simp] theorem storeCoder_ctx : (s.storeCoder c).ctx = c.ctx := rfl
@[simp] theorem storeCoder_scal : (s.storeCoder c).scal = s.scal := rfl
@[simp] theorem storeCoder_bram : (s.storeCoder c).bram = s.bram := rfl
@[simp] theorem storeCoder_bw : (s.storeCoder c).bw = s.bw := rfl
@[simp] theorem storeCoder_out : (s.storeCoder c).out = s.out := rfl
@[simp] theorem storeCoder_wptr : (s.storeCoder c).wptr = s.wptr := rfl
@[simp] theorem storeCoder_desc : (s.storeCoder c).desc = s.desc := rfl
@[simp] theorem storeCoder_agenda : (s.storeCoder c).agenda = s.agenda := rfl
@[simp] theorem storeCoder_readData : (s.storeCoder c).readData = s.readData := rfl
@[simp] theorem storeCoder_draws : (s.storeCoder c).draws = s.draws := rfl

end

/-! ### answer -/

section
variable (s : State) (w : Word)

@[simp] theorem answer_enable : (s.answer w).enable = s.enable := rfl
@[simp] theorem answer_lossless : (s.answer w).lossless = s.lossless := rfl
@[simp] theorem answer_err : (s.answer w).err = s.err := rfl
@[simp] theorem answer_errcode : (s.answer w).errcode = s.errcode := rfl
@[simp] theorem answer_errinfoLo : (s.answer w).errinfoLo = s.errinfoLo := rfl
@[simp] theorem answer_errinfoHi : (s.answer w).errinfoHi = s.errinfoHi := rfl
@[simp] theorem answer_sat : (s.answer w).sat = s.sat := rfl
@[simp] theorem answer_qpy : (s.answer w).qpy = s.qpy := rfl
@[simp] theorem answer_cboff : (s.answer w).cboff = s.cboff := rfl
@[simp] theorem answer_croff : (s.answer w).croff = s.croff := rfl
@[simp] theorem answer_result : (s.answer w).result = s.result := rfl
@[simp] theorem answer_cmdHiStage : (s.answer w).cmdHiStage = s.cmdHiStage := rfl
@[simp] theorem answer_fifo : (s.answer w).fifo = s.fifo := rfl
@[simp] theorem answer_irqEn : (s.answer w).irqEn = s.irqEn := rfl
@[simp] theorem answer_irqPend : (s.answer w).irqPend = s.irqPend := rfl
@[simp] theorem answer_cabac : (s.answer w).cabac = s.cabac := rfl
@[simp] theorem answer_ctx : (s.answer w).ctx = s.ctx := rfl
@[simp] theorem answer_scal : (s.answer w).scal = s.scal := rfl
@[simp] theorem answer_bram : (s.answer w).bram = s.bram := rfl
@[simp] theorem answer_bw : (s.answer w).bw = s.bw := rfl
@[simp] theorem answer_out : (s.answer w).out = s.out := rfl
@[simp] theorem answer_wptr : (s.answer w).wptr = s.wptr := rfl
@[simp] theorem answer_desc : (s.answer w).desc = s.desc := rfl
@[simp] theorem answer_agenda : (s.answer w).agenda = s.agenda := rfl
@[simp] theorem answer_readData : (s.answer w).readData = w := rfl
@[simp] theorem answer_draws : (s.answer w).draws = s.draws := rfl

end

/-! ### abortNal -/

section
variable (s : State)

@[simp] theorem abortNal_enable : (s.abortNal).enable = s.enable := rfl
@[simp] theorem abortNal_lossless : (s.abortNal).lossless = s.lossless := rfl
@[simp] theorem abortNal_err : (s.abortNal).err = s.err := rfl
@[simp] theorem abortNal_errcode : (s.abortNal).errcode = s.errcode := rfl
@[simp] theorem abortNal_errinfoLo : (s.abortNal).errinfoLo = s.errinfoLo := rfl
@[simp] theorem abortNal_errinfoHi : (s.abortNal).errinfoHi = s.errinfoHi := rfl
@[simp] theorem abortNal_sat : (s.abortNal).sat = s.sat := rfl
@[simp] theorem abortNal_qpy : (s.abortNal).qpy = s.qpy := rfl
@[simp] theorem abortNal_cboff : (s.abortNal).cboff = s.cboff := rfl
@[simp] theorem abortNal_croff : (s.abortNal).croff = s.croff := rfl
@[simp] theorem abortNal_result : (s.abortNal).result = s.result := rfl
@[simp] theorem abortNal_cmdHiStage : (s.abortNal).cmdHiStage = s.cmdHiStage := rfl
@[simp] theorem abortNal_fifo : (s.abortNal).fifo = s.fifo := rfl
@[simp] theorem abortNal_irqEn : (s.abortNal).irqEn = s.irqEn := rfl
@[simp] theorem abortNal_irqPend : (s.abortNal).irqPend = s.irqPend := rfl
@[simp] theorem abortNal_cabac : (s.abortNal).cabac = { s.cabac with state := .idle } := rfl
@[simp] theorem abortNal_ctx : (s.abortNal).ctx = s.ctx := rfl
@[simp] theorem abortNal_scal : (s.abortNal).scal = s.scal := rfl
@[simp] theorem abortNal_bram : (s.abortNal).bram = s.bram := rfl
@[simp] theorem abortNal_bw : (s.abortNal).bw = ⟨false, [], 0, false, s.bw.nalStart, 0, 0⟩ := rfl
@[simp] theorem abortNal_out : (s.abortNal).out = s.out.truncate s.bw.nalStart.toNat := rfl
@[simp] theorem abortNal_wptr : (s.abortNal).wptr = s.bw.nalStart.toNat := rfl
@[simp] theorem abortNal_desc : (s.abortNal).desc = s.desc := rfl
@[simp] theorem abortNal_agenda : (s.abortNal).agenda = s.agenda := rfl
@[simp] theorem abortNal_readData : (s.abortNal).readData = s.readData := rfl
@[simp] theorem abortNal_draws : (s.abortNal).draws = s.draws := rfl

end

/-! ### closeNal -/

section
variable (s : State)

@[simp] theorem closeNal_enable : (s.closeNal).enable = s.enable := rfl
@[simp] theorem closeNal_lossless : (s.closeNal).lossless = s.lossless := rfl
@[simp] theorem closeNal_err : (s.closeNal).err = s.err := rfl
@[simp] theorem closeNal_errcode : (s.closeNal).errcode = s.errcode := rfl
@[simp] theorem closeNal_errinfoLo : (s.closeNal).errinfoLo = s.errinfoLo := rfl
@[simp] theorem closeNal_errinfoHi : (s.closeNal).errinfoHi = s.errinfoHi := rfl
@[simp] theorem closeNal_sat : (s.closeNal).sat = s.sat := rfl
@[simp] theorem closeNal_qpy : (s.closeNal).qpy = s.qpy := rfl
@[simp] theorem closeNal_cboff : (s.closeNal).cboff = s.cboff := rfl
@[simp] theorem closeNal_croff : (s.closeNal).croff = s.croff := rfl
@[simp] theorem closeNal_result : (s.closeNal).result = s.result := rfl
@[simp] theorem closeNal_cmdHiStage : (s.closeNal).cmdHiStage = s.cmdHiStage := rfl
@[simp] theorem closeNal_fifo : (s.closeNal).fifo = s.fifo := rfl
@[simp] theorem closeNal_irqEn : (s.closeNal).irqEn = s.irqEn := rfl
@[simp] theorem closeNal_irqPend : (s.closeNal).irqPend = s.irqPend ||| irqNalDone := rfl
@[simp] theorem closeNal_cabac : (s.closeNal).cabac = { s.cabac with state := .idle } := rfl
@[simp] theorem closeNal_ctx : (s.closeNal).ctx = s.ctx := rfl
@[simp] theorem closeNal_scal : (s.closeNal).scal = s.scal := rfl
@[simp] theorem closeNal_bram : (s.closeNal).bram = s.bram := rfl
@[simp] theorem closeNal_bw : (s.closeNal).bw = { s.bw with nalOpen := false, zeros := 0, lastZero := false } := rfl
@[simp] theorem closeNal_out : (s.closeNal).out = s.out := rfl
@[simp] theorem closeNal_wptr : (s.closeNal).wptr = s.wptr := rfl
@[simp] theorem closeNal_desc : (s.closeNal).desc = s.desc ++ [⟨s.bw.nalStart.toNat, s.wptr - s.bw.nalStart.toNat, s.bw.hdr⟩] := rfl
@[simp] theorem closeNal_agenda : (s.closeNal).agenda = s.agenda := rfl
@[simp] theorem closeNal_readData : (s.closeNal).readData = s.readData := rfl
@[simp] theorem closeNal_draws : (s.closeNal).draws = s.draws := rfl

end

/-! ### storeLevels -/

section
variable (s : State) (dst : Nat) (ac : Bool) (ls : List (Int × Bool))

@[simp] theorem storeLevels_enable : (storeLevels s dst ac ls).enable = s.enable := rfl
@[simp] theorem storeLevels_lossless : (storeLevels s dst ac ls).lossless = s.lossless := rfl
@[simp] theorem storeLevels_err : (storeLevels s dst ac ls).err = s.err := rfl
@[simp] theorem storeLevels_errcode : (storeLevels s dst ac ls).errcode = s.errcode := rfl
@[simp] theorem storeLevels_errinfoLo : (storeLevels s dst ac ls).errinfoLo = s.errinfoLo := rfl
@[simp] theorem storeLevels_errinfoHi : (storeLevels s dst ac ls).errinfoHi = s.errinfoHi := rfl
@[simp] theorem storeLevels_sat : (storeLevels s dst ac ls).sat = (s.sat || ls.any Prod.snd) := rfl
@[simp] theorem storeLevels_qpy : (storeLevels s dst ac ls).qpy = s.qpy := rfl
@[simp] theorem storeLevels_cboff : (storeLevels s dst ac ls).cboff = s.cboff := rfl
@[simp] theorem storeLevels_croff : (storeLevels s dst ac ls).croff = s.croff := rfl
@[simp] theorem storeLevels_result : (storeLevels s dst ac ls).result = BitVec.ofNat 32 (countLevels ac (ls.map Prod.fst)) := rfl
@[simp] theorem storeLevels_cmdHiStage : (storeLevels s dst ac ls).cmdHiStage = s.cmdHiStage := rfl
@[simp] theorem storeLevels_fifo : (storeLevels s dst ac ls).fifo = s.fifo := rfl
@[simp] theorem storeLevels_irqEn : (storeLevels s dst ac ls).irqEn = s.irqEn := rfl
@[simp] theorem storeLevels_irqPend : (storeLevels s dst ac ls).irqPend = s.irqPend := rfl
@[simp] theorem storeLevels_cabac : (storeLevels s dst ac ls).cabac = s.cabac := rfl
@[simp] theorem storeLevels_ctx : (storeLevels s dst ac ls).ctx = s.ctx := rfl
@[simp] theorem storeLevels_scal : (storeLevels s dst ac ls).scal = s.scal := rfl
@[simp] theorem storeLevels_bram : (storeLevels s dst ac ls).bram = s.bram.writeAll dst (ls.map fun l => BitVec.ofInt 32 l.1) := rfl
@[simp] theorem storeLevels_bw : (storeLevels s dst ac ls).bw = s.bw := rfl
@[simp] theorem storeLevels_out : (storeLevels s dst ac ls).out = s.out := rfl
@[simp] theorem storeLevels_wptr : (storeLevels s dst ac ls).wptr = s.wptr := rfl
@[simp] theorem storeLevels_desc : (storeLevels s dst ac ls).desc = s.desc := rfl
@[simp] theorem storeLevels_agenda : (storeLevels s dst ac ls).agenda = s.agenda := rfl
@[simp] theorem storeLevels_readData : (storeLevels s dst ac ls).readData = s.readData := rfl
@[simp] theorem storeLevels_draws : (storeLevels s dst ac ls).draws = s.draws := rfl

end

/-! ### recordError -/

section
variable (s : State) (e : ErrCode) (lo hi : Word)

@[simp] theorem recordError_enable : (s.recordError e lo hi).enable = s.enable := by
  unfold State.recordError; split <;> rfl
@[simp] theorem recordError_lossless : (s.recordError e lo hi).lossless = s.lossless := by
  unfold State.recordError; split <;> rfl
@[simp] theorem recordError_err : (s.recordError e lo hi).err = true := by
  unfold State.recordError; split <;> simp_all
@[simp] theorem recordError_sat : (s.recordError e lo hi).sat = s.sat := by
  unfold State.recordError; split <;> rfl
@[simp] theorem recordError_qpy : (s.recordError e lo hi).qpy = s.qpy := by
  unfold State.recordError; split <;> rfl
@[simp] theorem recordError_cboff : (s.recordError e lo hi).cboff = s.cboff := by
  unfold State.recordError; split <;> rfl
@[simp] theorem recordError_croff : (s.recordError e lo hi).croff = s.croff := by
  unfold State.recordError; split <;> rfl
@[simp] theorem recordError_result : (s.recordError e lo hi).result = s.result := by
  unfold State.recordError; split <;> rfl
@[simp] theorem recordError_cmdHiStage : (s.recordError e lo hi).cmdHiStage = s.cmdHiStage := by
  unfold State.recordError; split <;> rfl
@[simp] theorem recordError_fifo : (s.recordError e lo hi).fifo = s.fifo := by
  unfold State.recordError; split <;> rfl
@[simp] theorem recordError_irqEn : (s.recordError e lo hi).irqEn = s.irqEn := by
  unfold State.recordError; split <;> rfl
@[simp] theorem recordError_cabac : (s.recordError e lo hi).cabac = s.cabac := by
  unfold State.recordError; split <;> rfl
@[simp] theorem recordError_ctx : (s.recordError e lo hi).ctx = s.ctx := by
  unfold State.recordError; split <;> rfl
@[simp] theorem recordError_scal : (s.recordError e lo hi).scal = s.scal := by
  unfold State.recordError; split <;> rfl
@[simp] theorem recordError_bram : (s.recordError e lo hi).bram = s.bram := by
  unfold State.recordError; split <;> rfl
@[simp] theorem recordError_bw : (s.recordError e lo hi).bw = s.bw := by
  unfold State.recordError; split <;> rfl
@[simp] theorem recordError_out : (s.recordError e lo hi).out = s.out := by
  unfold State.recordError; split <;> rfl
@[simp] theorem recordError_wptr : (s.recordError e lo hi).wptr = s.wptr := by
  unfold State.recordError; split <;> rfl
@[simp] theorem recordError_desc : (s.recordError e lo hi).desc = s.desc := by
  unfold State.recordError; split <;> rfl
@[simp] theorem recordError_agenda : (s.recordError e lo hi).agenda = s.agenda := by
  unfold State.recordError; split <;> rfl
@[simp] theorem recordError_readData : (s.recordError e lo hi).readData = s.readData := by
  unfold State.recordError; split <;> rfl
@[simp] theorem recordError_draws : (s.recordError e lo hi).draws = s.draws := by
  unfold State.recordError; split <;> rfl

end

/-! ### retire -/

section
variable (s : State)

@[simp] theorem retire_enable : (s.retire).enable = s.enable := by
  unfold State.retire; split <;> rfl
@[simp] theorem retire_lossless : (s.retire).lossless = s.lossless := by
  unfold State.retire; split <;> rfl
@[simp] theorem retire_err : (s.retire).err = s.err := by
  unfold State.retire; split <;> rfl
@[simp] theorem retire_errcode : (s.retire).errcode = s.errcode := by
  unfold State.retire; split <;> rfl
@[simp] theorem retire_errinfoLo : (s.retire).errinfoLo = s.errinfoLo := by
  unfold State.retire; split <;> rfl
@[simp] theorem retire_errinfoHi : (s.retire).errinfoHi = s.errinfoHi := by
  unfold State.retire; split <;> rfl
@[simp] theorem retire_sat : (s.retire).sat = s.sat := by
  unfold State.retire; split <;> rfl
@[simp] theorem retire_qpy : (s.retire).qpy = s.qpy := by
  unfold State.retire; split <;> rfl
@[simp] theorem retire_cboff : (s.retire).cboff = s.cboff := by
  unfold State.retire; split <;> rfl
@[simp] theorem retire_croff : (s.retire).croff = s.croff := by
  unfold State.retire; split <;> rfl
@[simp] theorem retire_result : (s.retire).result = s.result := by
  unfold State.retire; split <;> rfl
@[simp] theorem retire_cmdHiStage : (s.retire).cmdHiStage = s.cmdHiStage := by
  unfold State.retire; split <;> rfl
@[simp] theorem retire_fifo : (s.retire).fifo = s.fifo := by
  unfold State.retire; split <;> rfl
@[simp] theorem retire_irqEn : (s.retire).irqEn = s.irqEn := by
  unfold State.retire; split <;> rfl
@[simp] theorem retire_cabac : (s.retire).cabac = s.cabac := by
  unfold State.retire; split <;> rfl
@[simp] theorem retire_ctx : (s.retire).ctx = s.ctx := by
  unfold State.retire; split <;> rfl
@[simp] theorem retire_scal : (s.retire).scal = s.scal := by
  unfold State.retire; split <;> rfl
@[simp] theorem retire_bram : (s.retire).bram = s.bram := by
  unfold State.retire; split <;> rfl
@[simp] theorem retire_bw : (s.retire).bw = s.bw := by
  unfold State.retire; split <;> rfl
@[simp] theorem retire_out : (s.retire).out = s.out := by
  unfold State.retire; split <;> rfl
@[simp] theorem retire_wptr : (s.retire).wptr = s.wptr := by
  unfold State.retire; split <;> rfl
@[simp] theorem retire_desc : (s.retire).desc = s.desc := by
  unfold State.retire; split <;> rfl
@[simp] theorem retire_agenda : (s.retire).agenda = s.agenda := by
  unfold State.retire; split <;> rfl
@[simp] theorem retire_readData : (s.retire).readData = s.readData := by
  unfold State.retire; split <;> rfl
@[simp] theorem retire_draws : (s.retire).draws = s.draws := by
  unfold State.retire; split <;> rfl

end

/-! ### resetOutput -/

section
variable (s : State)

@[simp] theorem resetOutput_enable : (s.resetOutput).enable = s.enable := by
  unfold State.resetOutput; split <;> rfl
@[simp] theorem resetOutput_lossless : (s.resetOutput).lossless = s.lossless := by
  unfold State.resetOutput; split <;> rfl
@[simp] theorem resetOutput_err : (s.resetOutput).err = s.err := by
  unfold State.resetOutput; split <;> rfl
@[simp] theorem resetOutput_errcode : (s.resetOutput).errcode = s.errcode := by
  unfold State.resetOutput; split <;> rfl
@[simp] theorem resetOutput_errinfoLo : (s.resetOutput).errinfoLo = s.errinfoLo := by
  unfold State.resetOutput; split <;> rfl
@[simp] theorem resetOutput_errinfoHi : (s.resetOutput).errinfoHi = s.errinfoHi := by
  unfold State.resetOutput; split <;> rfl
@[simp] theorem resetOutput_sat : (s.resetOutput).sat = s.sat := by
  unfold State.resetOutput; split <;> rfl
@[simp] theorem resetOutput_qpy : (s.resetOutput).qpy = s.qpy := by
  unfold State.resetOutput; split <;> rfl
@[simp] theorem resetOutput_cboff : (s.resetOutput).cboff = s.cboff := by
  unfold State.resetOutput; split <;> rfl
@[simp] theorem resetOutput_croff : (s.resetOutput).croff = s.croff := by
  unfold State.resetOutput; split <;> rfl
@[simp] theorem resetOutput_result : (s.resetOutput).result = s.result := by
  unfold State.resetOutput; split <;> rfl
@[simp] theorem resetOutput_cmdHiStage : (s.resetOutput).cmdHiStage = s.cmdHiStage := by
  unfold State.resetOutput; split <;> rfl
@[simp] theorem resetOutput_fifo : (s.resetOutput).fifo = s.fifo := by
  unfold State.resetOutput; split <;> rfl
@[simp] theorem resetOutput_irqEn : (s.resetOutput).irqEn = s.irqEn := by
  unfold State.resetOutput; split <;> rfl
@[simp] theorem resetOutput_irqPend : (s.resetOutput).irqPend = s.irqPend := by
  unfold State.resetOutput; split <;> rfl
@[simp] theorem resetOutput_ctx : (s.resetOutput).ctx = s.ctx := by
  unfold State.resetOutput; split <;> rfl
@[simp] theorem resetOutput_scal : (s.resetOutput).scal = s.scal := by
  unfold State.resetOutput; split <;> rfl
@[simp] theorem resetOutput_bram : (s.resetOutput).bram = s.bram := by
  unfold State.resetOutput; split <;> rfl
@[simp] theorem resetOutput_out : (s.resetOutput).out = [] := by
  unfold State.resetOutput; split <;> rfl
@[simp] theorem resetOutput_wptr : (s.resetOutput).wptr = 0 := by
  unfold State.resetOutput; split <;> rfl
@[simp] theorem resetOutput_desc : (s.resetOutput).desc = [] := by
  unfold State.resetOutput; split <;> rfl
@[simp] theorem resetOutput_agenda : (s.resetOutput).agenda = s.agenda := by
  unfold State.resetOutput; split <;> rfl
@[simp] theorem resetOutput_readData : (s.resetOutput).readData = s.readData := by
  unfold State.resetOutput; split <;> rfl
@[simp] theorem resetOutput_draws : (s.resetOutput).draws = s.draws := by
  unfold State.resetOutput; split <;> rfl

end

/-! ### resetBlock -/

section
variable (s : State)

@[simp] theorem resetBlock_enable : (s.resetBlock).enable = State.reset.enable := rfl
@[simp] theorem resetBlock_lossless : (s.resetBlock).lossless = State.reset.lossless := rfl
@[simp] theorem resetBlock_err : (s.resetBlock).err = State.reset.err := rfl
@[simp] theorem resetBlock_errcode : (s.resetBlock).errcode = State.reset.errcode := rfl
@[simp] theorem resetBlock_errinfoLo : (s.resetBlock).errinfoLo = State.reset.errinfoLo := rfl
@[simp] theorem resetBlock_errinfoHi : (s.resetBlock).errinfoHi = State.reset.errinfoHi := rfl
@[simp] theorem resetBlock_sat : (s.resetBlock).sat = State.reset.sat := rfl
@[simp] theorem resetBlock_qpy : (s.resetBlock).qpy = State.reset.qpy := rfl
@[simp] theorem resetBlock_cboff : (s.resetBlock).cboff = State.reset.cboff := rfl
@[simp] theorem resetBlock_croff : (s.resetBlock).croff = State.reset.croff := rfl
@[simp] theorem resetBlock_result : (s.resetBlock).result = State.reset.result := rfl
@[simp] theorem resetBlock_cmdHiStage : (s.resetBlock).cmdHiStage = State.reset.cmdHiStage := rfl
@[simp] theorem resetBlock_fifo : (s.resetBlock).fifo = State.reset.fifo := rfl
@[simp] theorem resetBlock_irqEn : (s.resetBlock).irqEn = State.reset.irqEn := rfl
@[simp] theorem resetBlock_irqPend : (s.resetBlock).irqPend = State.reset.irqPend := rfl
@[simp] theorem resetBlock_cabac : (s.resetBlock).cabac = State.reset.cabac := rfl
@[simp] theorem resetBlock_ctx : (s.resetBlock).ctx = State.reset.ctx := rfl
@[simp] theorem resetBlock_scal : (s.resetBlock).scal = State.reset.scal := rfl
@[simp] theorem resetBlock_bram : (s.resetBlock).bram = State.reset.bram := rfl
@[simp] theorem resetBlock_bw : (s.resetBlock).bw = State.reset.bw := rfl
@[simp] theorem resetBlock_out : (s.resetBlock).out = State.reset.out := rfl
@[simp] theorem resetBlock_wptr : (s.resetBlock).wptr = State.reset.wptr := rfl
@[simp] theorem resetBlock_desc : (s.resetBlock).desc = State.reset.desc := rfl
@[simp] theorem resetBlock_agenda : (s.resetBlock).agenda = s.agenda := rfl
@[simp] theorem resetBlock_readData : (s.resetBlock).readData = s.readData := rfl
@[simp] theorem resetBlock_draws : (s.resetBlock).draws = s.draws := rfl

end

/-- The OUT_RESET side of the bit writer: closed, empty, and at offset 0 (R341). -/
theorem resetOutput_bw (s : State) : s.resetOutput.bw =
    (if s.bw.nalOpen then ⟨false, [], 0, false, 0, 0, 0⟩ else { s.bw with nalStart := 0, nalBits := 0 }) := by
  unfold State.resetOutput; split <;> rfl

/-- OUT_RESET moves the coder state to IDLE and changes no coder register (R341, R41). -/
@[simp] theorem resetOutput_cabac (s : State) : s.resetOutput.cabac = { s.cabac with state := .idle } := by
  unfold State.resetOutput; split <;> rfl

/-- The first error is recorded whole (R372, R375, R376). -/
theorem recordError_of_clear {s : State} (h : s.err = false) (e : ErrCode) (lo hi : Word) :
    s.recordError e lo hi = { s with err := true, errcode := errorNumber e, errinfoLo := lo, errinfoHi := hi,
                                     irqPend := s.irqPend ||| irqErr } := by
  simp [State.recordError, h]

/-- A later error changes nothing (R374). -/
theorem recordError_of_err {s : State} (h : s.err = true) (e : ErrCode) (lo hi : Word) :
    s.recordError e lo hi = s := by
  simp [State.recordError, h]

/-- IDLE is set with the last command (R380). -/
theorem retire_irqPend (s : State) :
    s.retire.irqPend = s.irqPend ||| (if s.fifo = [] then irqIdle else 0) := by
  unfold State.retire
  cases s.fifo <;> simp

end Sys2Proof.Machine
end

