-- ==== Sys2Proof/Laws/Memory.lean ====
section
/-! SUPPORT. The sparse memories: reading after writing, and that every operation keeps the canonical form. -/

namespace Sys2Proof.Machine

section Cells
variable {α : Type}

/-! ### Reading after writing -/

theorem cellAt_putCell (m : List (Nat × α)) (a b : Nat) (v : α) :
    cellAt (putCell m a v) b = if b = a then some v else cellAt m b := by
  induction m with
  | nil => simp [putCell, cellAt, eq_comm]
  | cons c m ih =>
    obtain ⟨k, w⟩ := c
    by_cases h1 : a < k
    · by_cases h2 : b = a <;> simp [putCell, cellAt, h1, h2]
      intro h3; omega
    · by_cases h2 : a = k
      · subst h2
        by_cases h3 : b = a
        · simp [putCell, cellAt, h3]
        · simp [putCell, cellAt, h3, Ne.symm h3]
      · simp only [putCell, h1, h2, if_false, cellAt, ih]
        by_cases h3 : k = b
        · subst h3; simp [Ne.symm h2]
        · simp [h3]

theorem cellAt_dropCell (m : List (Nat × α)) (a b : Nat) :
    cellAt (dropCell m a) b = if b = a then none else cellAt m b := by
  induction m with
  | nil => simp [dropCell, cellAt]
  | cons c m ih =>
    obtain ⟨k, w⟩ := c
    by_cases h1 : k = a
    · subst h1
      by_cases h2 : b = k
      · simp_all [dropCell]
      · have h3 : ¬k = b := fun h => h2 h.symm
        simp_all [dropCell, cellAt]
    · by_cases h2 : k = b
      · subst h2; simp [dropCell, cellAt, h1]
      · simp_all [dropCell, cellAt]

theorem cellAt_filter_lt (m : List (Nat × α)) (a b : Nat) :
    cellAt (m.filter fun c => c.1 < a) b = if b < a then cellAt m b else none := by
  induction m with
  | nil => simp [cellAt]
  | cons c m ih =>
    obtain ⟨k, w⟩ := c
    by_cases h1 : k < a
    · by_cases h2 : k = b
      · subst h2; simp [cellAt, h1]
      · simp_all [cellAt]
    · by_cases h2 : b < a
      · have h3 : ¬k = b := by omega
        simp_all [cellAt]
      · simp_all [cellAt]

/-- Only listed addresses hold a value. -/
theorem mem_of_cellAt {m : List (Nat × α)} {a : Nat} {v : α} (h : cellAt m a = some v) : (a, v) ∈ m := by
  induction m with
  | nil => simp [cellAt] at h
  | cons c m ih =>
    obtain ⟨k, w⟩ := c
    by_cases h1 : k = a
    · simp [cellAt, h1] at h; simp [h1, h]
    · simp [cellAt, h1] at h; exact List.mem_cons_of_mem _ (ih h)

/-! ### The canonical form -/

/-- The canonical form as a proposition. -/
theorem cellsRising_iff (size : Nat) (m : List (Nat × α)) :
    cellsRising size m = true ↔ m.Pairwise (fun a b => a.1 < b.1) ∧ ∀ c ∈ m, c.1 < size := by
  simp [cellsRising]

theorem mem_putCell {m : List (Nat × α)} {a : Nat} {v : α} {c : Nat × α} (h : c ∈ putCell m a v) :
    c = (a, v) ∨ c ∈ m := by
  induction m with
  | nil => simpa [putCell] using h
  | cons d m ih =>
    obtain ⟨k, w⟩ := d
    by_cases h1 : a < k
    · simpa [putCell, h1] using h
    · by_cases h2 : a = k
      · subst h2
        simp only [putCell, lt_irrefl, if_false, if_true, List.mem_cons] at h
        exact h.imp id (List.mem_cons_of_mem _)
      · simp only [putCell, h1, h2, if_false, List.mem_cons] at h
        rcases h with h | h
        · exact .inr (by simp [h])
        · rcases ih h with h | h
          · exact .inl h
          · exact .inr (List.mem_cons_of_mem _ h)

theorem rising_putCell {m : List (Nat × α)} (h : m.Pairwise fun a b => a.1 < b.1) (a : Nat) (v : α) :
    (putCell m a v).Pairwise fun a b => a.1 < b.1 := by
  induction m with
  | nil => simp [putCell]
  | cons d m ih =>
    obtain ⟨k, w⟩ := d
    rw [List.pairwise_cons] at h
    by_cases h1 : a < k
    · simp only [putCell, h1, if_true, List.pairwise_cons]
      refine ⟨fun c hc => ?_, h⟩
      rcases List.mem_cons.1 hc with rfl | hc
      · exact h1
      · exact Nat.lt_trans h1 (h.1 c hc)
    · by_cases h2 : a = k
      · subst h2
        simpa only [putCell, lt_irrefl, if_false, if_true, List.pairwise_cons] using h
      · simp only [putCell, h1, h2, if_false, List.pairwise_cons]
        refine ⟨fun c hc => ?_, ih h.2⟩
        rcases mem_putCell hc with rfl | hc
        · change k < a; omega
        · exact h.1 c hc

theorem cellsRising_putCell {size : Nat} {m : List (Nat × α)} (h : cellsRising size m = true) {a : Nat}
    (ha : a < size) (v : α) : cellsRising size (putCell m a v) = true := by
  rw [cellsRising_iff] at *
  refine ⟨rising_putCell h.1 a v, fun c hc => ?_⟩
  rcases mem_putCell hc with rfl | hc
  · exact ha
  · exact h.2 c hc

theorem cellsRising_filter {size : Nat} {m : List (Nat × α)} (h : cellsRising size m = true) (p : Nat × α → Bool) :
    cellsRising size (m.filter p) = true := by
  rw [cellsRising_iff] at *
  exact ⟨h.1.filter _, fun c hc => h.2 c (List.mem_filter.1 hc).1⟩

end Cells

/-! ### The output memory -/

/-- Reading after a write. -/
theorem Memory.read_write (m : Memory) (a b : Nat) (v : Byte) :
    (m.write a v).read b = if b = a then v else m.read b := by
  unfold Memory.write Memory.read
  split
  · rename_i h
    rw [cellAt_dropCell]
    split <;> simp [h]
  · rw [cellAt_putCell]
    split <;> simp

/-- Reading after several writes. -/
theorem Memory.read_writeAll (bs : List Byte) (m : Memory) (a b : Nat) :
    (m.writeAll a bs).read b = if a ≤ b ∧ b < a + bs.length then bs.getD (b - a) 0 else m.read b := by
  induction bs generalizing m a with
  | nil => simp [Memory.writeAll]
  | cons v vs ih =>
    simp only [Memory.writeAll, ih, Memory.read_write, List.length_cons]
    by_cases h1 : b = a
    · subst h1; simp
    · by_cases h2 : a + 1 ≤ b ∧ b < a + 1 + vs.length
      · have h3 : a ≤ b ∧ b < a + (vs.length + 1) := by omega
        have h4 : b - a = (b - (a + 1)) + 1 := by omega
        simp [h2, h3, h4]
      · have h3 : ¬(a ≤ b ∧ b < a + (vs.length + 1)) := by omega
        rw [if_neg h2, if_neg h1, if_neg h3]

theorem Memory.read_truncate (m : Memory) (a b : Nat) :
    (m.truncate a).read b = if b < a then m.read b else unlistedByte := by
  unfold Memory.truncate Memory.read
  rw [cellAt_filter_lt]
  split <;> simp

/-- A byte that does not read as an unlisted one is listed. -/
theorem Memory.mem_of_read {m : Memory} {a : Nat} (h : m.read a ≠ unlistedByte) : ∃ v, (a, v) ∈ m := by
  unfold Memory.read at h
  cases hc : cellAt m a with
  | none => simp [hc] at h
  | some v => exact ⟨v, mem_of_cellAt hc⟩

theorem Memory.wf_iff (m : Memory) :
    m.wf = true ↔ cellsRising Config.outSize m = true ∧ ∀ c ∈ m, c.2 ≠ unlistedByte := by
  simp [Memory.wf]

theorem Memory.mem_write {m : Memory} {a : Nat} {v : Byte} {c : Host.Cell} (h : c ∈ m.write a v) :
    c = (a, v) ∨ c ∈ m := by
  unfold Memory.write at h
  split at h
  · exact .inr (List.mem_filter.1 h).1
  · exact mem_putCell h

/-- A write keeps the canonical form. -/
theorem Memory.wf_write {m : Memory} (h : m.wf = true) {a : Nat} (ha : a < Config.outSize) (v : Byte) :
    (m.write a v).wf = true := by
  rw [Memory.wf_iff] at *
  unfold Memory.write
  split
  · exact ⟨cellsRising_filter h.1 _, fun c hc => h.2 c (List.mem_filter.1 hc).1⟩
  · refine ⟨cellsRising_putCell h.1 ha v, fun c hc => ?_⟩
    rcases mem_putCell hc with rfl | hc
    · assumption
    · exact h.2 c hc

theorem Memory.mem_writeAll {bs : List Byte} {m : Memory} {a : Nat} {c : Host.Cell} (h : c ∈ m.writeAll a bs) :
    c ∈ m ∨ (a ≤ c.1 ∧ c.1 < a + bs.length) := by
  induction bs generalizing m a with
  | nil => exact .inl h
  | cons v vs ih =>
    rcases ih h with h | h
    · rcases Memory.mem_write h with rfl | h
      · exact .inr (by simp)
      · exact .inl h
    · exact .inr (by simp only [List.length_cons]; omega)

/-- Several writes keep the canonical form. -/
theorem Memory.wf_writeAll {bs : List Byte} {m : Memory} (h : m.wf = true) {a : Nat}
    (ha : a + bs.length ≤ Config.outSize) : (m.writeAll a bs).wf = true := by
  induction bs generalizing m a with
  | nil => exact h
  | cons v vs ih =>
    simp only [List.length_cons] at ha
    exact ih (Memory.wf_write h (by omega) v) (by omega)

theorem Memory.wf_truncate {m : Memory} (h : m.wf = true) (a : Nat) : (m.truncate a).wf = true := by
  rw [Memory.wf_iff] at *
  exact ⟨cellsRising_filter h.1 _, fun c hc => h.2 c (List.mem_filter.1 hc).1⟩

theorem Memory.wf_nil : Memory.wf [] = true := by decide

/-! ### The buffer RAM -/

/-- Reading after a write. -/
theorem Bram.read_write (m : Bram) (a b : Nat) (w : Word) :
    (m.write a w).read b = if b = a then some w else m.read b :=
  cellAt_putCell m a b w

/-- Reading after a block write. -/
theorem Bram.read_writeAll (ws : List Word) (m : Bram) (a b : Nat) :
    (m.writeAll a ws).read b = if a ≤ b ∧ b < a + ws.length then ws[b - a]? else m.read b := by
  induction ws generalizing m a with
  | nil => simp [Bram.writeAll]
  | cons v vs ih =>
    simp only [Bram.writeAll, ih, Bram.read_write, List.length_cons]
    by_cases h1 : b = a
    · subst h1; simp
    · by_cases h2 : a + 1 ≤ b ∧ b < a + 1 + vs.length
      · have h3 : a ≤ b ∧ b < a + (vs.length + 1) := by omega
        have h4 : b - a = (b - (a + 1)) + 1 := by omega
        simp [h2, h3, h4]
      · have h3 : ¬(a ≤ b ∧ b < a + (vs.length + 1)) := by omega
        rw [if_neg h2, if_neg h1, if_neg h3]

/-- The k-th word of a block written. -/
theorem Bram.read_writeAll_at (ws : List Word) (m : Bram) (a k : Nat) (h : k < ws.length) :
    (m.writeAll a ws).read (a + k) = some ws[k] := by
  rw [Bram.read_writeAll, if_pos (by omega)]
  simp [h]

/-- A word outside a block written. -/
theorem Bram.read_writeAll_outside (ws : List Word) (m : Bram) (a b : Nat) (h : b < a ∨ a + ws.length ≤ b) :
    (m.writeAll a ws).read b = m.read b := by
  rw [Bram.read_writeAll, if_neg (by omega)]

theorem Bram.wf_write {m : Bram} (h : m.wf = true) {a : Nat} (ha : a < Config.bramWords) (w : Word) :
    (m.write a w).wf = true :=
  cellsRising_putCell h ha w

/-- A block write keeps the canonical form. -/
theorem Bram.wf_writeAll {ws : List Word} {m : Bram} (h : m.wf = true) {a : Nat}
    (ha : a + ws.length ≤ Config.bramWords) : (m.writeAll a ws).wf = true := by
  induction ws generalizing m a with
  | nil => exact h
  | cons v vs ih =>
    simp only [List.length_cons] at ha
    exact ih (Bram.wf_write h (by omega) v) (by omega)

theorem Bram.wf_nil : Bram.wf [] = true := by decide

end Sys2Proof.Machine
end

