-- ==== Sys2Proof/Laws/Operands.lean ====
section
/-! SUPPORT. The shared operations of the commands: checks, the end of a command, BRAM blocks, and the two-dimensional
transforms, each with what it can do said once. -/

namespace Sys2Proof.Machine

/-! ### Checks in sequence -/

section Checks
variable {α β : Type}

@[simp] theorem ok_bind (a : α) (f : α → Except ErrCode β) : (Except.ok a >>= f) = f a := rfl

@[simp] theorem error_bind (e : ErrCode) (f : α → Except ErrCode β) : (Except.error e >>= f) = .error e := rfl

theorem bind_ok_iff (x : Except ErrCode α) (f : α → Except ErrCode β) (b : β) :
    (x >>= f) = .ok b ↔ ∃ a, x = .ok a ∧ f a = .ok b := by
  cases x <;> simp

/-- A check first, and then the rest. -/
theorem check_bind_ok_iff (x : Except ErrCode Unit) (f : Unit → Except ErrCode β) (b : β) :
    (x >>= f) = .ok b ↔ x = .ok () ∧ f () = .ok b := by
  cases x <;> simp

theorem check_bind_error_iff (x : Except ErrCode Unit) (f : Unit → Except ErrCode β) (e : ErrCode) :
    (x >>= f) = .error e ↔ x = .error e ∨ x = .ok () ∧ f () = .error e := by
  cases x <;> simp

theorem bind_error_iff (x : Except ErrCode α) (f : α → Except ErrCode β) (e : ErrCode) :
    (x >>= f) = .error e ↔ x = .error e ∨ ∃ a, x = .ok a ∧ f a = .error e := by
  cases x <;> simp

theorem require_ok_iff (p : Bool) (e : ErrCode) : require p e = .ok () ↔ p = true := by
  cases p <;> simp [require]

theorem require_error_iff (p : Bool) (e f : ErrCode) : require p e = .error f ↔ p = false ∧ f = e := by
  cases p <;> simp [require, eq_comm]

@[simp] theorem require_true (e : ErrCode) : require true e = .ok () := rfl

@[simp] theorem require_false (e : ErrCode) : require false e = .error e := rfl

end Checks

/-! ### The end of a command -/

@[simp] theorem finish_ok (i : Instr) (s t : State) : finish i s (.ok t) = .next t.retire := rfl

@[simp] theorem finish_error (i : Instr) (s : State) (e : ErrCode) :
    finish i s (.error e) = .next (s.recordError e (encode i).lo (encode i).hi) := rfl

/-- A command ends in its completed effect, or in its error and nothing else (R372). -/
theorem finish_next_iff (i : Instr) (s t : State) (r : Except ErrCode State) :
    finish i s r = .next t ↔
      (∃ u, r = .ok u ∧ u.retire = t) ∨ (∃ e, r = .error e ∧ s.recordError e (encode i).lo (encode i).hi = t) := by
  cases r <;> simp

/-- Every command ends in a next state. -/
theorem finish_is_next (i : Instr) (s : State) (r : Except ErrCode State) : ∃ t, finish i s r = .next t := by
  cases r <;> simp

/-! ### Blocks in the buffer RAM -/

theorem checkRange_ok_iff (a len : Nat) : checkRange a len = .ok () ↔ a + len ≤ 1024 := by
  simp [checkRange, require_ok_iff]

/-- The words read are the values at the addresses, all of them valid. -/
theorem readWords_ok_iff (m : Bram) (as : List Nat) (ws : List Word) :
    readWords m as = .ok ws ↔ as.map m.read = ws.map some := by
  induction as generalizing ws with
  | nil => cases ws <;> simp [readWords]
  | cons a as ih =>
    unfold readWords
    cases h : m.read a with
    | none => cases ws <;> simp [h]
    | some w =>
      cases ws with
      | nil => simp [bind_ok_iff]
      | cons v vs =>
        simp only [bind_ok_iff, ih, Except.ok.injEq, List.cons.injEq, List.map_cons, h, Option.some.injEq]
        constructor
        · rintro ⟨x, hx, rfl, rfl⟩; exact ⟨rfl, hx⟩
        · rintro ⟨rfl, hx⟩; exact ⟨vs, hx, rfl, rfl⟩

/-- Reading fails with UNINIT_READ only, and where some word is invalid. -/
theorem readWords_error_iff (m : Bram) (as : List Nat) (e : ErrCode) :
    readWords m as = .error e ↔ e = .uninitRead ∧ ∃ a ∈ as, m.read a = none := by
  induction as with
  | nil => simp [readWords]
  | cons a as ih =>
    unfold readWords
    cases h : m.read a with
    | none => simp [h, eq_comm]
    | some w =>
      simp only [bind_error_iff, ih, List.mem_cons, exists_eq_or_imp, h]
      simp

theorem length_of_readWords {m : Bram} {as : List Nat} {ws : List Word} (h : readWords m as = .ok ws) :
    ws.length = as.length := by
  have := congrArg List.length ((readWords_ok_iff m as ws).1 h)
  simpa using this.symm

@[simp] theorem length_blockAddrs (a len : Nat) : (blockAddrs a len).length = len := by
  simp [blockAddrs]

theorem mem_blockAddrs (a len b : Nat) : b ∈ blockAddrs a len ↔ a ≤ b ∧ b < a + len := by
  simp only [blockAddrs, List.mem_map, List.mem_range]
  constructor
  · rintro ⟨k, hk, rfl⟩; omega
  · rintro ⟨h1, h2⟩; exact ⟨b - a, by omega, by omega⟩

/-- The block read is the given one, when every word of it is valid and holds it. -/
theorem readWords_blockAddrs {m : Bram} {a len : Nat} {ws : List Word} (hl : ws.length = len)
    (h : ∀ k (hk : k < ws.length), m.read (a + k) = some ws[k]) : readWords m (blockAddrs a len) = .ok ws := by
  rw [readWords_ok_iff]
  apply List.ext_getElem
  · simp [hl]
  · intro k h1 h2
    simp only [List.length_map, List.length_range, blockAddrs] at h1
    simpa [blockAddrs] using h k (by omega)

theorem readBlock_ok_iff (m : Bram) (src dst len : Nat) (ws : List Word) :
    readBlock m src dst len = .ok ws ↔
      src + len ≤ 1024 ∧ dst + len ≤ 1024 ∧ readWords m (blockAddrs src len) = .ok ws := by
  simp only [readBlock, check_bind_ok_iff, checkRange_ok_iff]

theorem checkInput_ok_iff (lo hi : Int) (xs : List Int) :
    checkInput lo hi xs = .ok () ↔ ∀ x ∈ xs, lo ≤ x ∧ x ≤ hi := by
  simp [checkInput, require_ok_iff, within]

/-! ### Two-dimensional transforms -/

section TwoPass
variable {α : Type} [Inhabited α]

/-- Element (r, c) of rows of one length laid end to end. -/
theorem getD_flatten (rows : List (List α)) (n : Nat) (h : ∀ row ∈ rows, row.length = n) (r c : Nat) (hc : c < n)
    (hr : r < rows.length) : rows.flatten.getD (n * r + c) default = (rows.getD r []).getD c default := by
  induction rows generalizing r with
  | nil => simp at hr
  | cons row rows ih =>
    have hrow : row.length = n := h row (by simp)
    cases r with
    | zero => simp [List.getElem?_append, hrow, hc]
    | succ r =>
      have h1 : n * (r + 1) + c = row.length + (n * r + c) := by rw [hrow]; ring
      have h2 := ih (fun x hx => h x (by simp [hx])) r (by simpa using hr)
      rw [h1, List.flatten_cons, List.getD_cons_succ, ← h2]
      simp [List.getD_eq_getElem?_getD, List.getElem?_append]

omit [Inhabited α] in
theorem length_flatten (rows : List (List α)) (n : Nat) (h : ∀ row ∈ rows, row.length = n) :
    rows.flatten.length = n * rows.length := by
  induction rows with
  | nil => simp
  | cons row rows ih =>
    rw [List.flatten_cons, List.length_append, h row (by simp), ih fun x hx => h x (by simp [hx]), List.length_cons]
    ring

/-- Row r of a raster block. -/
theorem rowsOf_eq (n : Nat) (xs : List α) (h : xs.length = n * n) :
    rowsOf n xs = (List.range n).map fun r => (List.range n).map fun j => xs.getD (n * r + j) default := by
  unfold rowsOf
  apply List.map_congr_left
  intro r hr
  have hr : r < n := List.mem_range.1 hr
  have hlen : n * r + n ≤ n * n := by
    calc n * r + n = n * (r + 1) := by ring
      _ ≤ n * n := Nat.mul_le_mul_left n hr
  apply List.ext_getElem
  · simp; omega
  · intro k h1 h2
    have hk : k < n := by simpa using h2
    have : n * r + k < xs.length := by omega
    simp [List.getElem_take, List.getElem_drop, List.getD_eq_getElem?_getD, this]

theorem length_rowsThenColumns (n : Nat) (f : List α → List α) (xs : List α) :
    (rowsThenColumns n f xs).length = n * n := by
  unfold rowsThenColumns
  rw [length_flatten _ n]
  · simp [transposed]
  · intro row hrow
    simp only [transposed, List.mem_map] at hrow
    obtain ⟨c, -, rfl⟩ := hrow
    simp

/-- Each element of a two-dimensional transform is that of `twoPass`. -/
theorem rowsThenColumns_at (n : Nat) (f : List α → List α) (xs : List α) (h : xs.length = n * n) (r c : Nat)
    (hr : r < n) (hc : c < n) :
    (rowsThenColumns n f xs).getD (n * r + c) default = twoPass n f (fun k => xs.getD k default) r c := by
  unfold rowsThenColumns
  rw [getD_flatten _ n _ r c hc (by simp [transposed, hr])]
  · simp [transposed, twoPass, rowsOf_eq n xs h, hr, hc, List.map_map, Function.comp_def]
  · intro row hrow
    simp only [transposed, List.mem_map] at hrow
    obtain ⟨c, -, rfl⟩ := hrow
    simp

end TwoPass

end Sys2Proof.Machine
end

