-- ==== Sys2Proof/Laws/Writer.lean ====
section
/-! SUPPORT. The bit writer: writing in parts, what it keeps, how many bytes it can write, and what OutByte does. -/

namespace Sys2Proof.Machine

/-! ### Writing in parts -/

@[simp] theorem putBitsRaw_nil (w : BitWriter) : putBitsRaw w [] = (w, []) := rfl

theorem putBitsRaw_cons (w : BitWriter) (b : Bool) (bs : List Bool) :
    putBitsRaw w (b :: bs) =
      ((putBitsRaw (putBitRaw w b).1 bs).1, (putBitRaw w b).2 ++ (putBitsRaw (putBitRaw w b).1 bs).2) := rfl

/-- Bits written in two parts. -/
theorem putBitsRaw_append (w : BitWriter) (xs ys : List Bool) :
    putBitsRaw w (xs ++ ys) =
      ((putBitsRaw (putBitsRaw w xs).1 ys).1, (putBitsRaw w xs).2 ++ (putBitsRaw (putBitsRaw w xs).1 ys).2) := by
  induction xs generalizing w with
  | nil => simp
  | cons x xs ih => simp [putBitsRaw_cons, ih]

/-! ### What the writer keeps -/

@[simp] theorem emitByte_nalOpen (w : BitWriter) (b : Byte) : (emitByte w b).1.nalOpen = w.nalOpen := rfl
@[simp] theorem emitByte_nalStart (w : BitWriter) (b : Byte) : (emitByte w b).1.nalStart = w.nalStart := rfl
@[simp] theorem emitByte_hdr (w : BitWriter) (b : Byte) : (emitByte w b).1.hdr = w.hdr := rfl
@[simp] theorem emitByte_acc (w : BitWriter) (b : Byte) : (emitByte w b).1.acc = w.acc := rfl
@[simp] theorem emitByte_nalBits (w : BitWriter) (b : Byte) : (emitByte w b).1.nalBits = w.nalBits := rfl

/-- One bit either waits in the accumulator or completes a byte (R324). -/
theorem putBitRaw_cases (w : BitWriter) (b : Bool) :
    (w.acc.length ≠ 7 ∧ putBitRaw w b = ({ w with nalBits := w.nalBits + 1, acc := w.acc ++ [b] }, [])) ∨
    (w.acc.length = 7 ∧
      putBitRaw w b = emitByte { w with nalBits := w.nalBits + 1, acc := [] } (byteOfBits (w.acc ++ [b]))) := by
  unfold putBitRaw
  by_cases h : w.acc.length = 7
  · exact .inr ⟨h, by simp [h]⟩
  · exact .inl ⟨h, by simp [h]⟩

theorem putBitRaw_unit (w : BitWriter) (b : Bool) :
    (putBitRaw w b).1.nalOpen = w.nalOpen ∧ (putBitRaw w b).1.nalStart = w.nalStart ∧
      (putBitRaw w b).1.hdr = w.hdr ∧ (putBitRaw w b).1.nalBits = w.nalBits + 1 := by
  rcases putBitRaw_cases w b with ⟨-, h⟩ | ⟨-, h⟩ <;> simp [h]

/-- Bits keep the unit, and NAL_BITS counts them (R325). -/
theorem putBitsRaw_unit (w : BitWriter) (bs : List Bool) :
    (putBitsRaw w bs).1.nalOpen = w.nalOpen ∧ (putBitsRaw w bs).1.nalStart = w.nalStart ∧
      (putBitsRaw w bs).1.hdr = w.hdr ∧ (putBitsRaw w bs).1.nalBits = w.nalBits + BitVec.ofNat 32 bs.length := by
  induction bs generalizing w with
  | nil => simp
  | cons b bs ih =>
    obtain ⟨h1, h2, h3, h4⟩ := ih (putBitRaw w b).1
    obtain ⟨g1, g2, g3, g4⟩ := putBitRaw_unit w b
    refine ⟨by rw [putBitsRaw_cons, h1, g1], by rw [putBitsRaw_cons, h2, g2], by rw [putBitsRaw_cons, h3, g3], ?_⟩
    rw [putBitsRaw_cons, h4, g4, List.length_cons, add_comm bs.length 1]
    simp [BitVec.ofNat_add, BitVec.add_assoc]

theorem putBitRaw_acc_length {w : BitWriter} (h : w.acc.length ≤ 7) (b : Bool) :
    (putBitRaw w b).1.acc.length = (w.acc.length + 1) % 8 := by
  rcases putBitRaw_cases w b with ⟨h1, h2⟩ | ⟨h1, h2⟩
  · simp only [h2, List.length_append, List.length_singleton]; omega
  · simp [h2, h1]

/-- The pending bits are those past the last whole byte (R324). -/
theorem putBitsRaw_acc_length {w : BitWriter} (h : w.acc.length ≤ 7) (bs : List Bool) :
    (putBitsRaw w bs).1.acc.length = (w.acc.length + bs.length) % 8 := by
  induction bs generalizing w with
  | nil => simp; omega
  | cons b bs ih =>
    have h1 := putBitRaw_acc_length h b
    rw [putBitsRaw_cons, ih (by omega), h1, List.length_cons]
    omega

/-! ### How many bytes -/

theorem length_emitByte_le (w : BitWriter) (b : Byte) : (emitByte w b).2.length ≤ 2 := by
  unfold emitByte
  dsimp only
  split <;> simp

/-- At most two bytes for each whole byte of bits (R326). -/
theorem length_putBitsRaw_le {w : BitWriter} (h : w.acc.length ≤ 7) (bs : List Bool) :
    (putBitsRaw w bs).2.length ≤ 2 * ((w.acc.length + bs.length) / 8) := by
  induction bs generalizing w with
  | nil => simp
  | cons b bs ih =>
    have h2 := putBitRaw_acc_length h b
    have h3 := ih (w := (putBitRaw w b).1) (by omega)
    rw [putBitsRaw_cons, List.length_append, List.length_cons]
    rcases putBitRaw_cases w b with ⟨h4, h5⟩ | ⟨h4, h5⟩
    · have h6 : (putBitRaw w b).2.length = 0 := by rw [h5]; rfl
      rw [h2] at h3
      have h7 : (w.acc.length + 1) % 8 = w.acc.length + 1 := by omega
      rw [h7] at h3
      rw [h6]
      have h8 : w.acc.length + 1 + bs.length = w.acc.length + (bs.length + 1) := by omega
      rw [h8] at h3
      omega
    · have h6 : (putBitRaw w b).2.length ≤ 2 := by rw [h5]; exact length_emitByte_le _ _
      rw [h2, h4] at h3
      rw [h4]
      omega

/-- One byte of PUTBYTES, with its 8 bits in NAL_BITS (R349). -/
def emitCounted (w : BitWriter) (b : Byte) : BitWriter :=
  { (emitByte w b).1 with nalBits := w.nalBits + 8 }

theorem emitBytes_cons (w : BitWriter) (b : Byte) (bs : List Byte) :
    emitBytes w (b :: bs) =
      ((emitBytes (emitCounted w b) bs).1, (emitByte w b).2 ++ (emitBytes (emitCounted w b) bs).2) := rfl

theorem length_emitBytes_le (w : BitWriter) (bs : List Byte) : (emitBytes w bs).2.length ≤ 2 * bs.length := by
  induction bs generalizing w with
  | nil => simp [emitBytes]
  | cons b bs ih =>
    have h1 := length_emitByte_le w b
    have h2 := ih (emitCounted w b)
    rw [emitBytes_cons, List.length_append, List.length_cons]
    omega

/-- Bytes keep the unit and the pending bits, and NAL_BITS counts 8 for each (R349). -/
theorem emitBytes_unit (w : BitWriter) (bs : List Byte) :
    (emitBytes w bs).1.nalOpen = w.nalOpen ∧ (emitBytes w bs).1.nalStart = w.nalStart ∧
      (emitBytes w bs).1.hdr = w.hdr ∧ (emitBytes w bs).1.acc = w.acc ∧
      (emitBytes w bs).1.nalBits = w.nalBits + BitVec.ofNat 32 (8 * bs.length) := by
  induction bs generalizing w with
  | nil => simp [emitBytes]
  | cons b bs ih =>
    obtain ⟨h1, h2, h3, h4, h5⟩ := ih (emitCounted w b)
    rw [emitBytes_cons]
    refine ⟨h1, h2, h3, h4, ?_⟩
    rw [h5, List.length_cons, Nat.mul_add, add_comm (8 * bs.length)]
    simp [emitCounted, BitVec.ofNat_add, BitVec.add_assoc]

/-! ### OutByte -/

/-- OutByte writes all its bytes or none (R321). -/
theorem outBytes_ok_iff (s t : State) (bytes : List Byte) :
    outBytes s bytes = .ok t ↔ s.wptr + bytes.length ≤ Config.outSize ∧
      { s with out := s.out.writeAll s.wptr bytes, wptr := s.wptr + bytes.length } = t := by
  unfold outBytes
  split <;> simp_all

theorem outBytes_error_iff (s : State) (bytes : List Byte) (e : ErrCode) :
    outBytes s bytes = .error e ↔ Config.outSize < s.wptr + bytes.length ∧ e = .outOverflow := by
  unfold outBytes
  split
  · simp; omega
  · simp_all [eq_comm]

/-- The bytes of the output memory after OutByte: those before, then the new ones, then 0x00 (R47, R321). -/
theorem outByte_of_outBytes {s t : State} {bytes : List Byte} (h : outBytes s bytes = .ok t) (k : Nat) :
    t.outByte k = if k < s.wptr then s.outByte k
      else if k < s.wptr + bytes.length then bytes.getD (k - s.wptr) 0 else unlistedByte := by
  obtain ⟨-, rfl⟩ := (outBytes_ok_iff s t bytes).1 h
  unfold State.outByte
  dsimp only
  rw [Memory.read_writeAll]
  by_cases h1 : k < s.wptr
  · rw [if_pos (by omega), if_neg (by omega), if_pos h1, if_pos h1]
  · by_cases h2 : k < s.wptr + bytes.length
    · rw [if_pos h2, if_pos (by omega), if_neg h1, if_pos h2]
    · rw [if_neg h2, if_neg h1, if_neg h2]

theorem writeBits_ok_iff (s t : State) (bits : List Bool) :
    writeBits s bits = .ok t ↔ s.wptr + (putBitsRaw s.bw bits).2.length ≤ Config.outSize ∧
      { s with bw := (putBitsRaw s.bw bits).1, out := s.out.writeAll s.wptr (putBitsRaw s.bw bits).2,
               wptr := s.wptr + (putBitsRaw s.bw bits).2.length } = t :=
  outBytes_ok_iff _ _ _

/-! ### Which bytes -/

/-- Eight bits and then more: one byte and then more (R324). -/
theorem wholeBytes_append {xs : List Bool} (h : xs.length = 8) (ys : List Bool) :
    wholeBytes (xs ++ ys) = byteOfBits xs :: wholeBytes ys := by
  unfold wholeBytes
  have h1 : (xs ++ ys).length / 8 = ys.length / 8 + 1 := by rw [List.length_append, h]; omega
  rw [h1, List.range_succ_eq_map, List.map_cons, List.map_map]
  congr 1
  · simp [← h]
  · refine List.map_congr_left fun k _ => ?_
    have h2 : 8 * (k + 1) = xs.length + 8 * k := by omega
    simp only [Function.comp_apply, Nat.succ_eq_add_one, h2, List.drop_length_add_append]

@[simp] theorem wholeBytes_short {bits : List Bool} (h : bits.length ≤ 7) : wholeBytes bits = [] := by
  simp [wholeBytes, Nat.div_eq_of_lt (Nat.lt_succ_of_le h)]

/-- One byte through emulation prevention, and then more (R326). -/
theorem escape_cons (w : BitWriter) (b : Byte) (bs : List Byte) :
    escape w.zeros (b :: bs) = (emitByte w b).2 ++ escape (emitByte w b).1.zeros bs := by
  unfold emitByte
  by_cases h : 2 ≤ w.zeros ∧ b.toNat ≤ 3
  · simp only [escape, h, and_self, if_true]; rfl
  · simp only [escape, h, if_false]; rfl

/-- The bytes that bits come to: the whole bytes of the pending bits and these, after emulation prevention (R324, R326). -/
theorem putBitsRaw_bytes {w : BitWriter} (h : w.acc.length ≤ 7) (bs : List Bool) :
    (putBitsRaw w bs).2 = escape w.zeros (wholeBytes (w.acc ++ bs)) := by
  induction bs generalizing w with
  | nil => simp [h, escape]
  | cons b bs ih =>
    have h1 := putBitRaw_acc_length h b
    rw [putBitsRaw_cons, ih (by omega)]
    rcases putBitRaw_cases w b with ⟨-, h3⟩ | ⟨h2, h3⟩
    · simp [h3]
    · have h4 : w.acc ++ b :: bs = (w.acc ++ [b]) ++ bs := by simp
      rw [h4, wholeBytes_append (xs := w.acc ++ [b]) (by simp [h2]), h3]
      exact (escape_cons { w with nalBits := w.nalBits + 1, acc := [] } _ _).symm

/-- Bits are written exactly where the bytes they come to fit (R321), and nothing is written where they do not. -/
theorem writeBits_is_ok_iff {s : State} (h : s.bw.acc.length ≤ 7) (bits : List Bool) :
    (∃ t, writeBits s bits = .ok t) ↔ BitsFit s bits := by
  simp [writeBits_ok_iff, putBitsRaw_bytes h, BitsFit, BytesFit]

theorem writeBits_error_iff {s : State} (h : s.bw.acc.length ≤ 7) (bits : List Bool) (e : ErrCode) :
    writeBits s bits = .error e ↔ ¬BitsFit s bits ∧ e = .outOverflow := by
  unfold writeBits
  rw [outBytes_error_iff, putBitsRaw_bytes h, BitsFit, BytesFit, Nat.not_le]

theorem checkRawBits_ok_iff (s : State) : checkRawBits s = .ok () ↔ MayWriteRaw s := by
  simp [checkRawBits, check_bind_ok_iff, require_ok_iff, MayWriteRaw]

@[simp] theorem length_bitsMsb (n v : Nat) : (bitsMsb n v).length = n := by
  simp [bitsMsb]

end Sys2Proof.Machine
end

