-- ==== Sys2Proof/Laws/Coder.lean ====
section
/-! SUPPORT. The arithmetic coder: coding in parts, the ranges it keeps (R266), and how many bits a bin can give. -/

namespace Sys2Proof.Machine

/-! ### Coding in parts -/

@[simp] theorem codeBins_nil (c : Coder) : codeBins c [] = .ok c := rfl

theorem codeBins_cons (c : Coder) (b : Bin) (bs : List Bin) :
    codeBins c (b :: bs) = (codeBin c b >>= fun d => codeBins d bs) := rfl

@[simp] theorem codeBins_single (c : Coder) (b : Bin) : codeBins c [b] = codeBin c b := by
  rw [codeBins_cons]
  cases codeBin c b <;> rfl

theorem codeBins_append (c : Coder) (xs ys : List Bin) :
    codeBins c (xs ++ ys) = (codeBins c xs >>= fun d => codeBins d ys) := by
  induction xs generalizing c with
  | nil => rfl
  | cons x xs ih =>
    rw [List.cons_append, codeBins_cons, codeBins_cons]
    cases codeBin c x with
    | error e => rfl
    | ok d => exact ih d

/-! ### The tables (R261) -/

theorem rangeTabLPS_bounds : ∀ p < 64, ∀ q < 4,
    2 ≤ entry rangeTabLPS p q ∧ entry rangeTabLPS p q ≤ 240 ∧ entry rangeTabLPS p q ≤ 128 + 64 * q := by
  decide +kernel

theorem transIdxLPS_le : ∀ p < 64, transIdxLPS.getD p 0 ≤ 63 := by decide +kernel

theorem transIdxMPS_le {p : Nat} (h : p ≤ 63) : transIdxMPS p ≤ 63 := by
  unfold transIdxMPS; split <;> omega

/-! ### Ranges and sizes -/

/-- The bits decided and waiting. -/
def Coder.size (c : Coder) : Nat :=
  c.bits.length + c.outst

theorem putBit_size (c : Coder) (b : Bool) : (putBit c b).size ≤ c.size + 1 := by
  unfold Coder.size putBit
  cases c.first
  · simp; omega
  · simp

theorem addOutstanding_ok_iff (c d : Coder) :
    addOutstanding c = .ok d ↔ c.outst + 1 ≤ Config.outstMax ∧ { c with outst := c.outst + 1 } = d := by
  unfold addOutstanding
  split <;> simp_all

/-- One turn of RenormE: range and low double, low less the bit decided (R265). -/
theorem renormStep_ok {c d : Coder} (h : renormStep c = .ok d) :
    d.range = 2 * c.range ∧ d.ctx = c.ctx ∧ d.size ≤ c.size + 1 ∧
      (c.outst ≤ Config.outstMax → d.outst ≤ Config.outstMax) ∧
      ((c.low < 256 ∧ d.low = 2 * c.low) ∨ (512 ≤ c.low ∧ d.low = 2 * (c.low - 512)) ∨
        (256 ≤ c.low ∧ c.low < 512 ∧ d.low = 2 * (c.low - 256))) := by
  unfold renormStep at h
  by_cases h1 : c.low < 256
  · simp only [h1, if_true, ok_bind, Except.ok.injEq] at h
    subst h
    exact ⟨rfl, rfl, putBit_size c false, fun _ => Nat.zero_le _, .inl ⟨h1, rfl⟩⟩
  · by_cases h2 : 512 ≤ c.low
    · simp only [h1, h2, if_true, if_false, ok_bind, Except.ok.injEq] at h
      subst h
      exact ⟨by simp only [putBit], by simp only [putBit],
        by simpa only [Coder.size] using putBit_size { c with low := c.low - 512 } true, fun _ => Nat.zero_le _,
        .inr (.inl ⟨h2, by simp only [putBit]⟩)⟩
    · simp only [h1, h2, if_false, bind_ok_iff, addOutstanding_ok_iff] at h
      obtain ⟨e, ⟨h3, rfl⟩, h4⟩ := h
      simp only [Except.ok.injEq] at h4
      subst h4
      refine ⟨rfl, rfl, ?_, fun _ => h3, .inr (.inr ⟨by omega, by omega, rfl⟩)⟩
      simp only [Coder.size]; omega

theorem renormStep_is_ok {c : Coder} (h : c.outst < Config.outstMax) : ∃ d, renormStep c = .ok d := by
  unfold renormStep
  split
  · simp
  · split
    · simp
    · simp [addOutstanding, Nat.succ_le_of_lt h]

/-- RenormE from a range of 1 or more ends with range 256..510, in at most `n` turns if range * 2^n is 256 or more
(R265). -/
theorem renormLoop_ok {n : Nat} {c d : Coder} (h : renormLoop n c = .ok d) (hr : 256 ≤ c.range * 2 ^ n)
    (hr2 : c.range ≤ 510) (hl : c.low + c.range ≤ 1024) (ho : c.outst ≤ Config.outstMax) :
    256 ≤ d.range ∧ d.range ≤ 510 ∧ d.low + d.range ≤ 1024 ∧ d.outst ≤ Config.outstMax ∧ d.ctx = c.ctx ∧
      d.size ≤ c.size + n := by
  induction n generalizing c with
  | zero =>
    simp only [renormLoop, Except.ok.injEq] at h
    subst h
    simp at hr
    exact ⟨hr, hr2, hl, ho, rfl, le_refl _⟩
  | succ n ih =>
    unfold renormLoop at h
    by_cases h1 : c.range < 256
    · simp only [h1, if_true, bind_ok_iff] at h
      obtain ⟨e, h2, h3⟩ := h
      obtain ⟨g1, g2, g3, g4, g5⟩ := renormStep_ok h2
      have := ih h3 (by rw [g1, mul_comm 2, mul_assoc, ← pow_succ']; exact hr) (by omega) (by omega) (g4 ho)
      rw [g2] at this
      obtain ⟨a1, a2, a3, a4, a5, a6⟩ := this
      exact ⟨a1, a2, a3, a4, a5, by omega⟩
    · simp only [h1, if_false, Except.ok.injEq] at h
      subst h
      exact ⟨by omega, hr2, hl, ho, rfl, by omega⟩

theorem renormLoop_is_ok {n : Nat} {c : Coder} (h : c.size + n ≤ Config.outstMax) : ∃ d, renormLoop n c = .ok d := by
  induction n generalizing c with
  | zero => exact ⟨c, rfl⟩
  | succ n ih =>
    unfold renormLoop
    split
    · obtain ⟨d, hd⟩ := renormStep_is_ok (c := c) (by unfold Coder.size at h; omega)
      rw [hd, ok_bind]
      exact ih (by have := (renormStep_ok hd).2.2.1; omega)
    · exact ⟨c, rfl⟩

/-- A context of a coder that fits. -/
theorem ctxAt_le {c : Coder} (h : c.Fits) (i : Nat) : (ctxAt c.ctx i).pStateIdx ≤ 63 := by
  unfold ctxAt
  by_cases hi : i < Config.nCtx
  · simpa [Vector.getElem?_eq_getElem hi] using h.contexts i hi
  · simp [Vector.getElem?_eq_none (Nat.le_of_not_lt hi)]

theorem contexts_set {ctx : Vector Ctx Config.nCtx} (h : ∀ (i : Nat) (h : i < Config.nCtx), (ctx[i]).pStateIdx ≤ 63)
    (j : Nat) {x : Ctx} (hx : x.pStateIdx ≤ 63) (i : Nat) (hi : i < Config.nCtx) :
    ((ctx.setIfInBounds j x)[i]).pStateIdx ≤ 63 := by
  rw [Vector.getElem_setIfInBounds]
  split
  · exact hx
  · exact h i hi

/-- The LPS range of a coder that fits leaves 128 or more for the MPS. -/
theorem rLPS_bounds {c : Coder} (h : c.Fits) (i : Nat) :
    2 ≤ entry rangeTabLPS (ctxAt c.ctx i).pStateIdx (c.range / 64 % 4) ∧
      entry rangeTabLPS (ctxAt c.ctx i).pStateIdx (c.range / 64 % 4) ≤ 240 ∧
      entry rangeTabLPS (ctxAt c.ctx i).pStateIdx (c.range / 64 % 4) + 128 ≤ c.range := by
  have h1 := ctxAt_le h i
  have h2 := rangeTabLPS_bounds _ (Nat.lt_succ_of_le h1) (c.range / 64 % 4) (Nat.mod_lt _ (by decide))
  have h3 := h.range
  refine ⟨h2.1, h2.2.1, ?_⟩
  have := h2.2.2
  omega

theorem encodeDecision_fits {c d : Coder} {i : Nat} {b : Bool} (hc : c.Fits) (h : encodeDecision c i b = .ok d) :
    d.Fits ∧ d.size ≤ c.size + 8 := by
  have h1 := rLPS_bounds hc i
  have h2 := ctxAt_le hc i
  have h3 := hc.range
  have h4 := hc.low
  unfold encodeDecision renorm at h
  dsimp only at h
  split at h
  · obtain ⟨a1, a2, a3, a4, a5, a6⟩ := renormLoop_ok h (by dsimp only; omega) (by dsimp only; omega)
      (by dsimp only; omega) hc.outst
    refine ⟨⟨⟨a1, a2⟩, a3, a4, fun j hj => ?_⟩, a6⟩
    simp only [a5]
    exact contexts_set hc.contexts i (transIdxLPS_le _ (by omega)) j hj
  · obtain ⟨a1, a2, a3, a4, a5, a6⟩ := renormLoop_ok h (by dsimp only; omega) (by dsimp only; omega)
      (by dsimp only; omega) hc.outst
    refine ⟨⟨⟨a1, a2⟩, a3, a4, fun j hj => ?_⟩, a6⟩
    simp only [a5]
    exact contexts_set hc.contexts i (transIdxMPS_le h2) j hj

theorem encodeBypass_fits {c d : Coder} {b : Bool} (hc : c.Fits) (h : encodeBypass c b = .ok d) :
    d.Fits ∧ d.size ≤ c.size + 1 := by
  have h3 := hc.range
  have h4 := hc.low
  unfold encodeBypass at h
  dsimp only at h
  generalize hx : (if b = true then c.range else 0) = x at h
  have hx' : x ≤ c.range := by rw [← hx]; split <;> omega
  split at h
  · simp only [Except.ok.injEq] at h
    subst h
    exact ⟨⟨h3, by simp only [putBit]; omega, Nat.zero_le _, hc.contexts⟩,
      by simpa only [Coder.size] using putBit_size c true⟩
  · split at h
    · simp only [Except.ok.injEq] at h
      subst h
      exact ⟨⟨h3, by simp only [putBit]; omega, Nat.zero_le _, hc.contexts⟩, putBit_size c false⟩
    · obtain ⟨h5, rfl⟩ := (addOutstanding_ok_iff _ _).1 h
      dsimp only at h5
      exact ⟨⟨h3, by dsimp only; omega, by dsimp only; exact h5, hc.contexts⟩, by simp only [Coder.size]; omega⟩

theorem encodeTerminate_fits {c d : Coder} {b : Bool} (hc : c.Fits) (h : encodeTerminate c b = .ok d) :
    d.Fits ∧ d.size ≤ c.size + 11 := by
  have h3 := hc.range
  have h4 := hc.low
  unfold encodeTerminate renorm at h
  dsimp only at h
  cases b with
  | false =>
    simp only [Bool.false_eq_true, if_false] at h
    obtain ⟨a1, a2, a3, a4, a5, a6⟩ := renormLoop_ok h (by dsimp only; omega) (by dsimp only; omega)
      (by dsimp only; omega) hc.outst
    exact ⟨⟨⟨a1, a2⟩, a3, a4, by simp only [a5]; exact hc.contexts⟩, by simp only [Coder.size] at *; omega⟩
  | true =>
    simp only [if_true, encodeFlush, renorm, bind_ok_iff, Except.ok.injEq] at h
    obtain ⟨e, h5, rfl⟩ := h
    obtain ⟨a1, a2, a3, a4, a5, a6⟩ := renormLoop_ok h5 (by dsimp only; omega) (by dsimp only; omega)
      (by dsimp only; omega) hc.outst
    refine ⟨⟨⟨a1, a2⟩, a3, Nat.zero_le _, fun j hj => ?_⟩, ?_⟩
    · simp only [putBit, a5]; exact hc.contexts j hj
    · have := putBit_size e (e.low.testBit 9)
      simp only [Coder.size, List.length_append, List.length_cons, List.length_nil] at *
      omega

/-- Every bin keeps the ranges, and gives at most 11 bits (R266, R269). -/
theorem codeBin_fits {c d : Coder} {b : Bin} (hc : c.Fits) (h : codeBin c b = .ok d) :
    d.Fits ∧ d.size ≤ c.size + 11 := by
  cases b with
  | decision i b => have := encodeDecision_fits hc h; exact ⟨this.1, by omega⟩
  | bypass b => have := encodeBypass_fits hc h; exact ⟨this.1, by omega⟩
  | terminate b => exact encodeTerminate_fits hc h

/-- Bins in order keep the ranges, and give at most 11 bits each. -/
theorem codeBins_fits {c d : Coder} {bs : List Bin} (hc : c.Fits) (h : codeBins c bs = .ok d) :
    d.Fits ∧ d.size ≤ c.size + 11 * bs.length := by
  induction bs generalizing c with
  | nil =>
    simp only [codeBins_nil, Except.ok.injEq] at h
    subst h
    exact ⟨hc, by simp⟩
  | cons b bs ih =>
    rw [codeBins_cons, bind_ok_iff] at h
    obtain ⟨e, h1, h2⟩ := h
    obtain ⟨h3, h4⟩ := codeBin_fits hc h1
    obtain ⟨h5, h6⟩ := ih h3 h2
    exact ⟨h5, by rw [List.length_cons]; omega⟩

/-- A bin is coded whenever the outstanding count has room. -/
theorem codeBin_is_ok {c : Coder} (b : Bin) (h : c.size + 11 ≤ Config.outstMax) : ∃ d, codeBin c b = .ok d := by
  cases b with
  | decision i b =>
    unfold codeBin encodeDecision renorm
    dsimp only
    split <;> exact renormLoop_is_ok (by simp only [Coder.size] at *; omega)
  | bypass b =>
    unfold codeBin encodeBypass
    dsimp only
    generalize (if b = true then c.range else 0) = x
    split
    · simp
    · split
      · simp
      · exact ⟨_, (addOutstanding_ok_iff _ _).2 ⟨by simp only [Coder.size] at *; omega, rfl⟩⟩
  | terminate b =>
    unfold codeBin encodeTerminate encodeFlush renorm
    dsimp only
    cases b with
    | false => exact renormLoop_is_ok (by simp only [Coder.size] at *; omega)
    | true =>
      obtain ⟨d, hd⟩ := renormLoop_is_ok (n := 8) (c := { c with range := 2, low := c.low + (c.range - 2) })
        (by simp only [Coder.size] at *; omega)
      simp [hd]

/-- Bins in order are coded whenever the outstanding count has room. -/
theorem codeBins_is_ok {c : Coder} (hc : c.Fits) (bs : List Bin) (h : c.size + 11 * bs.length ≤ Config.outstMax) :
    ∃ d, codeBins c bs = .ok d := by
  induction bs generalizing c with
  | nil => exact ⟨c, rfl⟩
  | cons b bs ih =>
    rw [List.length_cons] at h
    obtain ⟨d, hd⟩ := codeBin_is_ok (c := c) b (by omega)
    obtain ⟨h3, h4⟩ := codeBin_fits hc hd
    rw [codeBins_cons, hd, ok_bind]
    exact ih h3 (by omega)

theorem loadCoder_fits {s : State} (h : s.Ranges) : s.loadCoder.Fits :=
  ⟨⟨h.coder.1, h.coder.2.1⟩, h.coder.2.2.1, h.coder.2.2.2, h.contexts⟩

theorem checkCoding_ok_iff (s : State) : checkCoding s = .ok () ↔ MayCode s := by
  simp [checkCoding, check_bind_ok_iff, require_ok_iff, MayCode]

/-- Coding a list of bins and writing its bits, said once. -/
theorem codeAndWrite_ok_iff (bins : List Bin) (s t : State) :
    codeAndWrite bins s = .ok t ↔ ∃ c, codeBins s.loadCoder bins = .ok c ∧ writeBits (s.storeCoder c) c.bits = .ok t := by
  simp [codeAndWrite, bind_ok_iff]

/-- A coding command completes when the output memory has room for its bits. -/
theorem codeAndWrite_is_ok {s : State} (h : s.Ranges) (bins : List Bin)
    (hroom : CodingRoom s (3 * bins.length + 2)) : ∃ t, codeAndWrite bins s = .ok t := by
  unfold CodingRoom at hroom
  have hf := loadCoder_fits h
  have hsize : s.loadCoder.size = s.cabac.outst := by simp [State.loadCoder, Coder.size]
  obtain ⟨c, hc⟩ := codeBins_is_ok hf bins (by rw [hsize]; simp only [Config.outstMax, Config.outSize] at *; omega)
  have h1 := (codeBins_fits hf hc).2
  rw [hsize] at h1
  have h2 := length_putBitsRaw_le (w := s.bw) h.writer.1 c.bits
  have h3 := h.writer.1
  have h4 : c.bits.length ≤ c.size := by simp [Coder.size]
  refine ⟨_, (codeAndWrite_ok_iff _ _ _).2 ⟨c, hc, (writeBits_ok_iff _ _ _).2 ⟨?_, rfl⟩⟩⟩
  simp only [storeCoder_wptr, storeCoder_bw]
  omega

end Sys2Proof.Machine
end

