-- ==== Sys2Proof/Laws/PerInstr.lean ====
section
/-! SUPPORT. Statements about every constructor of `Instr`, one lemma each. -/

namespace Sys2Proof.Laws.Fields

open Sys2Proof.Machine

/-- The field check a meaning makes admits exactly the well-formed commands (30_encoding.md R115). -/
def Statement (i : Instr) : Prop :=
  checkFields i = .ok () ↔ i.wellFormed = true

theorem nop : Statement .nop := by simp [Statement, checkFields, Instr.wellFormed]

theorem setqp (a : BitVec 6) (b c : BitVec 5) : Statement (.setqp a b c) := by
  simp [Statement, checkFields, Instr.wellFormed, require_ok_iff, qpAdmitted, within, offsetAdmitted]

theorem tq4 (o : TOps) : Statement (.tq4 o) := by
  simp [Statement, checkFields, Instr.wellFormed, require_ok_iff]

theorem tq8 (o : TOps) : Statement (.tq8 o) := by
  simp [Statement, checkFields, Instr.wellFormed, require_ok_iff, ← BitVec.toNat_inj]

theorem tqldc (o : TOps) : Statement (.tqldc o) := by
  simp [Statement, checkFields, Instr.wellFormed, require_ok_iff, ← BitVec.toNat_inj]

theorem tqcdc (o : TOps) : Statement (.tqcdc o) := by
  simp [Statement, checkFields, Instr.wellFormed, require_ok_iff, ← BitVec.toNat_inj]

theorem dq4 (o : TOps) : Statement (.dq4 o) := by
  simp [Statement, checkFields, Instr.wellFormed, require_ok_iff]

theorem dq8 (o : TOps) : Statement (.dq8 o) := by
  simp [Statement, checkFields, Instr.wellFormed, require_ok_iff, ← BitVec.toNat_inj]

theorem dqldc (o : TOps) : Statement (.dqldc o) := by
  simp [Statement, checkFields, Instr.wellFormed, require_ok_iff, ← BitVec.toNat_inj]

theorem dqcdc (o : TOps) : Statement (.dqcdc o) := by
  simp [Statement, checkFields, Instr.wellFormed, require_ok_iff, ← BitVec.toNat_inj]

theorem rlscan (src dst : BitVec 10) (cat : BitVec 3) : Statement (.rlscan src dst cat) := by
  simp [Statement, checkFields, Instr.wellFormed, require_ok_iff]

theorem cinit (model : BitVec 2) (sliceqp : BitVec 6) (eng : Bool) : Statement (.cinit model sliceqp eng) := by
  simp [Statement, checkFields, Instr.wellFormed, require_ok_iff, check_bind_ok_iff, ← BitVec.toNat_inj]

theorem cdec (ctx : BitVec 10) (bin : Bool) : Statement (.cdec ctx bin) := by
  simp [Statement, checkFields, Instr.wellFormed, require_ok_iff]

theorem cbyp (bin : Bool) : Statement (.cbyp bin) := by simp [Statement, checkFields, Instr.wellFormed]

theorem cbypn (n : BitVec 6) (value : Word) : Statement (.cbypn n value) := by
  simp [Statement, checkFields, Instr.wellFormed, require_ok_iff]

theorem cterm (bin : Bool) : Statement (.cterm bin) := by simp [Statement, checkFields, Instr.wellFormed]

theorem cres (src : BitVec 10) (cat : BitVec 3) (cbfinc : BitVec 2) (codeCbf : Bool) : Statement (.cres src cat cbfinc codeCbf) := by
  simp [Statement, checkFields, Instr.wellFormed, require_ok_iff, ← BitVec.toNat_inj]

theorem nalb (refIdc : BitVec 2) (nalType : BitVec 5) : Statement (.nalb refIdc nalType) := by
  simp [Statement, checkFields, Instr.wellFormed, require_ok_iff, ← BitVec.toNat_inj]

theorem nale : Statement .nale := by simp [Statement, checkFields, Instr.wellFormed]

theorem nalx : Statement .nalx := by simp [Statement, checkFields, Instr.wellFormed]

theorem putb (n : BitVec 6) (value : Word) : Statement (.putb n value) := by
  simp [Statement, checkFields, Instr.wellFormed, require_ok_iff]

theorem putue (value : Word) : Statement (.putue value) := by simp [Statement, checkFields, Instr.wellFormed]

theorem putse (value : Word) : Statement (.putse value) := by simp [Statement, checkFields, Instr.wellFormed]

theorem align : Statement .align := by simp [Statement, checkFields, Instr.wellFormed]

theorem trail : Statement .trail := by simp [Statement, checkFields, Instr.wellFormed]

theorem putbytes (src : BitVec 10) (count : BitVec 11) : Statement (.putbytes src count) := by
  simp [Statement, checkFields, Instr.wellFormed, require_ok_iff]

end Sys2Proof.Laws.Fields
end

