-- ==== Sys2Proof/Laws/Step.lean ====
section
/-! SUPPORT. What one command and one step can do, said once: every meaning ends in `finish`, and a step is one of five
kinds. -/

namespace Sys2Proof.Machine

/-- The effect of each command before its end: the new state, or the error. -/
def effectOf (i : Instr) (s : State) : Except ErrCode State :=
  match i with
  | .nop => .ok s
  | .setqp qpy cboff croff => do
    checkFields (.setqp qpy cboff croff)
    .ok (s.setQp qpy.toNat cboff.toInt croff.toInt)
  | .tq4 o => forwardBlock (.tq4 o) o 16 residualBound (levels4 s o.intra o.plane.toNat o.ac) s
  | .tq8 o => forwardBlock (.tq8 o) o 64 residualBound (levels8 s o.intra) s
  | .tqldc o => forwardBlock (.tqldc o) o 16 dcBound (levelsLumaDc s) s
  | .tqcdc o => forwardBlock (.tqcdc o) o chromaDcWords dcBound (levelsChromaDc s o.intra o.plane.toNat) s
  | .dq4 o => inverseBlock (.dq4 o) o 16 (residual4 s o.intra o.plane.toNat o.ac) s
  | .dq8 o => inverseBlock (.dq8 o) o 64 (residual8 s o.intra) s
  | .dqldc o => inverseBlock (.dqldc o) o 16 (residualLumaDc s) s
  | .dqcdc o => inverseBlock (.dqcdc o) o chromaDcWords (residualChromaDc s o.intra o.plane.toNat) s
  | .rlscan src dst cat => do
    checkFields (.rlscan src dst cat)
    rlscanEffect src.toNat dst.toNat cat.toNat s
  | .cinit model sliceqp eng => do
    checkFields (.cinit model sliceqp eng)
    cinitEffect model sliceqp eng s
  | .cdec ctx bin => do
    checkFields (.cdec ctx bin)
    checkCoding s
    codeAndWrite [.decision ctx.toNat bin] s
  | .cbyp bin => do
    checkCoding s
    codeAndWrite [.bypass bin] s
  | .cbypn n value => do
    checkFields (.cbypn n value)
    checkCoding s
    codeAndWrite ((bitsMsb n.toNat value.toNat).map .bypass) s
  | .cterm bin => do
    checkCoding s
    let t ← codeAndWrite [.terminate bin] s
    .ok (if bin then t.setCabacState .terminated else t)
  | .cres src cat cbfinc codeCbf => do
    checkFields (.cres src cat cbfinc codeCbf)
    cresEffect src.toNat cat.toNat cbfinc.toNat codeCbf s
  | .nalb refIdc nalType => do
    checkFields (.nalb refIdc nalType)
    nalbEffect refIdc nalType s
  | .nale => naleEffect s
  | .nalx => nalxEffect s
  | .putb n value => do
    checkFields (.putb n value)
    checkRawBits s
    writeBits s (bitsMsb n.toNat value.toNat)
  | .putue value => do
    checkRawBits s
    require (value.toNat ≠ 2 ^ 32 - 1) .valueRange
    writeBits s (ueBits value.toNat)
  | .putse value => do
    checkRawBits s
    require (value.toInt ≠ -2 ^ 31) .valueRange
    writeBits s (ueBits (seCodeNum value.toInt))
  | .align => do
    checkRawBits s
    writeBits s (padding s.bitpos)
  | .trail => do
    checkRawBits s
    writeBits s (true :: padding (s.bitpos + 1))
  | .putbytes src count => do
    checkFields (.putbytes src count)
    putbytesEffect src.toNat count.toNat s

theorem exec_eq_finish (i : Instr) (s : State) : exec i s = finish i s (effectOf i s) := by
  cases i <;> rfl

/-- A command completes, or it records one error. -/
theorem exec_next_iff (i : Instr) (s t : State) :
    exec i s = .next t ↔ (∃ u, effectOf i s = .ok u ∧ u.retire = t) ∨
      (∃ e, effectOf i s = .error e ∧ s.recordError e (encode i).lo (encode i).hi = t) := by
  rw [exec_eq_finish, finish_next_iff]

/-- What the engine's turn can be: no step, a decode error, or a command. -/
theorem engineStep_cases (s : State) :
    (s.engineReady = false ∧ engineStep s = .next s) ∨
    (∃ c rest e, s.engineReady = true ∧ s.fifo = c :: rest ∧ decode c = .error e ∧
      engineStep s = .next ({ s with fifo := rest }.recordError e c.lo c.hi)) ∨
    (∃ c rest i, s.engineReady = true ∧ s.fifo = c :: rest ∧ decode c = .ok i ∧
      engineStep s = exec i { s with fifo := rest }) := by
  cases hr : s.engineReady with
  | false => exact .inl ⟨rfl, by simp [engineStep, hr]⟩
  | true =>
    cases hf : s.fifo with
    | nil => simp [State.engineReady, State.busy, hf] at hr
    | cons c rest =>
      cases hd : decode c with
      | error e => exact .inr (.inl ⟨c, rest, e, rfl, rfl, hd, by simp [engineStep, hr, hf, hd]⟩)
      | ok i => exact .inr (.inr ⟨c, rest, i, rfl, rfl, hd, by simp [engineStep, hr, hf, hd]⟩)

section
variable (s : State) (rest : List Event)

theorem step_of_agenda_nil (h : s.agenda = []) : step s = engineStep s := by
  simp [step, h]

theorem step_of_engineTurn (h : s.agenda = .engineTurn :: rest) : step s = engineStep { s with agenda := rest } := by
  simp [step, h]

theorem step_of_read {n : Nat} {a : BitVec 17} (h : s.agenda = .read n a :: rest) :
    step s = .next (hostRead { s with agenda := rest } n a) := by
  simp [step, h]

theorem step_of_write {n : Nat} {a : BitVec 17} {d : Word} (h : s.agenda = .write n a d :: rest) :
    step s = .next (hostWrite { s with agenda := rest } n a d) := by
  simp [step, h]

theorem step_of_resetInput (h : s.agenda = .resetInput :: rest) :
    step s = .next { s with agenda := rest }.resetBlock := by
  simp [step, h]

end

end Sys2Proof.Machine
end

