-- ==== Sys2Proof/Tests/Slice0.lean ====
section
/-! SUPPORT. The model's own tests: ill-formed terms, words of the spec's encodings, single steps with results from
95_test_vectors.md (each test names its vector), and a witness for the hypotheses of every statement. -/

namespace Sys2Proof.Tests

open Sys2Proof.Machine

/-! One proof at a time: each thread of the many kernel evaluations below takes its own memory. -/
set_option Elab.async false

/-! ### Helpers -/

/-- The state a command leads to. -/
def after (i : Instr) (s : State) : State :=
  match exec i s with
  | .next t => t
  | _ => s

/-- The state a step leads to, one event coming. -/
def stepped (s : State) (e : Event) : State :=
  match step { s with agenda := [e] } with
  | .next t => t
  | _ => s

/-- Reset, with words in the buffer RAM from word 0 on. -/
def withWords (ws : List Word) : State :=
  State.reset.writeBlock 0 ws

/-- A unit of header 0x65 open at offset 0, the coder idle or active after CINIT. -/
def opened (state : CabacState) (acc : List Bool) : State :=
  { State.reset with
    out := [(0, 0x65)], wptr := 1
    bw := ⟨true, acc, 0, false, 0, BitVec.ofNat 32 acc.length, 0x65⟩
    cabac := ⟨state, 510, 0, 0, true⟩ }

/-- The words at a .. a + n - 1. -/
def wordsAt (s : State) (a n : Nat) : List (Option Word) :=
  (List.range n).map fun k => s.bram.read (a + k)

/-- The first n bytes of the output. -/
def bytesOut (s : State) (n : Nat) : List Byte :=
  (List.range n).map s.outByte

/-! ### Ill-formed terms: one for each check of R115 -/

theorem test_ill_setqp_qpy : (Instr.setqp 52 0 0).wellFormed = false := by decide
theorem test_ill_setqp_cboff : (Instr.setqp 0 13 0).wellFormed = false := by decide
theorem test_ill_setqp_croff : (Instr.setqp 0 0 (-13)).wellFormed = false := by decide
theorem test_ill_tq4_plane : (Instr.tq4 ⟨true, 3, false, 0, 0⟩).wellFormed = false := by decide
theorem test_ill_dq4_plane : (Instr.dq4 ⟨true, 3, false, 0, 0⟩).wellFormed = false := by decide
theorem test_ill_tq8_plane : (Instr.tq8 ⟨true, 1, false, 0, 0⟩).wellFormed = false := by decide
theorem test_ill_dq8_ac : (Instr.dq8 ⟨true, 0, true, 0, 0⟩).wellFormed = false := by decide
theorem test_ill_tqldc_intra : (Instr.tqldc ⟨false, 0, false, 0, 0⟩).wellFormed = false := by decide
theorem test_ill_dqldc_plane : (Instr.dqldc ⟨true, 2, false, 0, 0⟩).wellFormed = false := by decide
theorem test_ill_tqldc_ac : (Instr.tqldc ⟨true, 0, true, 0, 0⟩).wellFormed = false := by decide
theorem test_ill_tqcdc_plane_zero : (Instr.tqcdc ⟨true, 0, false, 0, 0⟩).wellFormed = false := by decide
theorem test_ill_dqcdc_plane_three : (Instr.dqcdc ⟨true, 3, false, 0, 0⟩).wellFormed = false := by decide
theorem test_ill_tqcdc_ac : (Instr.tqcdc ⟨true, 1, true, 0, 0⟩).wellFormed = false := by decide
theorem test_ill_rlscan_cat : (Instr.rlscan 0 0 6).wellFormed = false := by decide
theorem test_ill_cres_cat : (Instr.cres 0 7 0 false).wellFormed = false := by decide
theorem test_ill_cres_cbf : (Instr.cres 0 5 0 true).wellFormed = false := by decide
theorem test_ill_cinit_qp : (Instr.cinit 0 52 false).wellFormed = false := by decide
theorem test_ill_cinit_model : (Instr.cinit 1 0 true).wellFormed = false := by decide
theorem test_ill_cinit_eng_qp : (Instr.cinit 0 1 true).wellFormed = false := by decide
theorem test_ill_cdec_ctx : (Instr.cdec 460 false).wellFormed = false := by decide
theorem test_ill_cdec_terminate : (Instr.cdec 276 false).wellFormed = false := by decide
theorem test_ill_putb_n : (Instr.putb 33 0).wellFormed = false := by decide
theorem test_ill_cbypn_n : (Instr.cbypn 33 0).wellFormed = false := by decide
theorem test_ill_nalb_type : (Instr.nalb 3 0).wellFormed = false := by decide
theorem test_ill_putbytes_count : (Instr.putbytes 0 1025).wellFormed = false := by decide

/-! ### A word for every constructor, written from R111 and R113; the words of programs P1 to P6 where one is printed -/

theorem test_decode_nop : decode ⟨0x00000000, 0⟩ = .ok .nop := by decide
theorem test_decode_setqp : decode ⟨0x04031E1C, 0⟩ = .ok (.setqp 28 (-2) 3) := by decide
theorem test_decode_tq4 : decode ⟨0x22000040, 0⟩ = .ok (.tq4 ⟨true, 0, false, 0, 16⟩) := by decide
/-- 0x08, inter, plane 2, ac 1, src 1, dst 1023: the fields apart. -/
theorem test_decode_tq4_fields : decode ⟨0x21401FFC, 0⟩ = .ok (.tq4 ⟨false, 2, true, 1, 1023⟩) := by decide
theorem test_decode_tq8 : decode ⟨0x24040200, 0⟩ = .ok (.tq8 ⟨false, 0, false, 64, 128⟩) := by decide
theorem test_decode_tqldc : decode ⟨0x2A000040, 0⟩ = .ok (.tqldc ⟨true, 0, false, 0, 16⟩) := by decide
theorem test_decode_tqcdc : decode ⟨0x2E800010, 0⟩ = .ok (.tqcdc ⟨true, 1, false, 0, 4⟩) := by decide
theorem test_decode_dq4 : decode ⟨0x32010080, 0⟩ = .ok (.dq4 ⟨true, 0, false, 16, 32⟩) := by decide
theorem test_decode_dq8 : decode ⟨0x36040200, 0⟩ = .ok (.dq8 ⟨true, 0, false, 64, 128⟩) := by decide
theorem test_decode_dqldc : decode ⟨0x3A010080, 0⟩ = .ok (.dqldc ⟨true, 0, false, 16, 32⟩) := by decide
theorem test_decode_dqcdc : decode ⟨0x3D004020, 0⟩ = .ok (.dqcdc ⟨false, 2, false, 4, 8⟩) := by decide
theorem test_decode_rlscan : decode ⟨0x400100C0, 2⟩ = .ok (.rlscan 16 48 2) := by decide
theorem test_decode_cinit : decode ⟨0x601A0000, 0⟩ = .ok (.cinit 0 26 false) := by decide
theorem test_decode_cinit_eng : decode ⟨0x60000001, 0⟩ = .ok (.cinit 0 0 true) := by decide
theorem test_decode_cdec : decode ⟨0x65140001, 0⟩ = .ok (.cdec 276 true) := by decide
theorem test_decode_cbyp : decode ⟨0x68000001, 0⟩ = .ok (.cbyp true) := by decide
theorem test_decode_cbypn : decode ⟨0x6C040000, 0xB⟩ = .ok (.cbypn 4 11) := by decide
theorem test_decode_cterm : decode ⟨0x70000001, 0⟩ = .ok (.cterm true) := by decide
theorem test_decode_cres : decode ⟨0x74010000, 0x22⟩ = .ok (.cres 16 2 0 true) := by decide
theorem test_decode_cres_fields : decode ⟨0x74000000, 0x1B⟩ = .ok (.cres 0 3 3 false) := by decide
theorem test_decode_nalb : decode ⟨0x83050000, 0⟩ = .ok (.nalb 3 5) := by decide
theorem test_decode_nale : decode ⟨0x84000000, 0⟩ = .ok .nale := by decide
theorem test_decode_nalx : decode ⟨0x88000000, 0⟩ = .ok .nalx := by decide
theorem test_decode_putb : decode ⟨0x8C200000, 1⟩ = .ok (.putb 32 1) := by decide
theorem test_decode_putue : decode ⟨0x90000000, 7⟩ = .ok (.putue 7) := by decide
theorem test_decode_putse : decode ⟨0x94000000, 0xFFFFFFFD⟩ = .ok (.putse (-3)) := by decide
theorem test_decode_align : decode ⟨0x98000000, 0⟩ = .ok .align := by decide
theorem test_decode_trail : decode ⟨0x9C000000, 0⟩ = .ok .trail := by decide
theorem test_decode_putbytes : decode ⟨0xA0040000, 3⟩ = .ok (.putbytes 64 3) := by decide
/-- V-ILL-1, V-ILL-2. -/
theorem test_illegal_opcodes : decode ⟨0x08000000, 0⟩ = .error .illegalOpcode ∧
    decode ⟨0xFC000000, 0⟩ = .error .illegalOpcode := by decide
/-- V-NOP-2, V-SETQP-4, V-RL-E1. -/
theorem test_reserved_bits : decode ⟨0, 1⟩ = .error .reservedNonzero ∧
    decode ⟨0x04000040, 0⟩ = .error .reservedNonzero ∧ decode ⟨0x400100C0, 8⟩ = .error .reservedNonzero := by decide
theorem test_decodeTableWord : decodeTableWord 64 0x0000000274010000 = some (.cres 16 2 0 false) := by decide

/-! ### Transform and quantization -/

/-- V-TQ4-1. -/
theorem test_tq4 : (wordsAt (after (.tq4 ⟨true, 0, false, 0, 16⟩) (withWords (List.replicate 16 100))) 16 3,
    (after (.tq4 ⟨true, 0, false, 0, 16⟩) (withWords (List.replicate 16 100))).result) =
    ([some 640, some 0, some 0], 1) := by decide +kernel
/-- V-TQ4-5. -/
theorem test_tq4_ac : (wordsAt (after (.tq4 ⟨true, 0, true, 0, 16⟩) (withWords (List.replicate 16 100))) 16 2,
    (after (.tq4 ⟨true, 0, true, 0, 16⟩) (withWords (List.replicate 16 100))).result) =
    ([some 1600, some 0], 0) := by decide +kernel
/-- V-TQ8-1. -/
theorem test_tq8 : wordsAt (after (.tq8 ⟨true, 0, false, 0, 64⟩) (withWords (List.replicate 64 100))) 64 2 =
    [some 1280, some 0] := by decide +kernel
/-- V-TQ8-3: with weights 1 the level saturates. -/
theorem test_tq8_saturates :
    (after (.tq8 ⟨true, 0, false, 0, 64⟩)
      { withWords (List.replicate 64 255) with scal := Vector.replicate 224 1 }).sat = true := by decide +kernel
/-- V-TQLDC-1. -/
theorem test_tqldc : wordsAt (after (.tqldc ⟨true, 0, false, 0, 16⟩) (withWords (List.replicate 16 1600))) 16 2 =
    [some 2560, some 0] := by decide +kernel
/-- V-TQCDC-2. -/
theorem test_tqcdc : wordsAt (after (.tqcdc ⟨true, 1, false, 0, 4⟩)
    { withWords [1600, -400, 250, -4080] with qpy := 28 }) 4 4 = [some (-20), some 49, some 39, some (-18)] := by
  decide +kernel
/-- V-TQ4-8: the lossless bypass. -/
theorem test_bypass : wordsAt (after (.tq4 ⟨true, 0, false, 0, 16⟩)
    { withWords ([10, -3, 7, 0] ++ List.replicate 12 0) with lossless := true }) 16 4 =
    [some 10, some (-3), some 7, some 0] := by decide +kernel
/-- V-DQ4-1. -/
theorem test_dq4 : wordsAt (after (.dq4 ⟨true, 0, false, 0, 16⟩) (withWords (640 :: List.replicate 15 0))) 16 2 =
    [some 100, some 100] := by decide +kernel
/-- V-DQ4-5. -/
theorem test_dq4_ac : wordsAt (after (.dq4 ⟨true, 0, true, 0, 16⟩) (withWords (6400 :: List.replicate 15 0))) 16 2 =
    [some 100, some 100] := by decide +kernel
/-- V-DQ8-3, row 0. -/
theorem test_dq8 : wordsAt (after (.dq8 ⟨true, 0, false, 0, 64⟩)
    { withWords ([5, -3] ++ List.replicate 6 0 ++ 2 :: List.replicate 55 0) with qpy := 40 }) 64 8 =
    [some 29, some 34, some 46, some 54, some 71, some 79, some 91, some 96] := by decide +kernel
/-- V-DQLDC-1. -/
theorem test_dqldc : wordsAt (after (.dqldc ⟨true, 0, false, 0, 16⟩) (withWords (2560 :: List.replicate 15 0))) 16 2 =
    [some 6400, some 6400] := by decide +kernel
/-- V-DQCDC-2. -/
theorem test_dqcdc : wordsAt (after (.dqcdc ⟨true, 1, false, 0, 4⟩)
    { withWords [-20, 49, 39, -18] with qpy := 28 }) 4 4 =
    [some 6400, some (-1536), some 1024, some (-16128)] := by decide +kernel
/-- V-RL-3. -/
theorem test_rlscan : wordsAt (after (.rlscan 0 8 3) (withWords [1, 0, 0, -1])) 8 3 =
    [some 2, some 0x00000001, some 0x0002FFFF] := by decide +kernel
/-- V-QPC-1, V-QPC-2, V-QPC-3. -/
theorem test_chroma_qp : qpOf { State.reset with qpy := 51, cboff := 12 } 1 = 39 ∧
    qpOf { State.reset with qpy := 30, croff := -12 } 2 = 18 ∧
    qpOf { State.reset with cboff := -12 } 1 = 0 := by decide

/-! ### CABAC -/

/-- V-CINIT-1 to V-CINIT-7. -/
theorem test_initial_contexts :
    [initialContext 20 (-15) 26, initialContext (-28) 127 51, initialContext 0 127 0, initialContext 0 0 0,
      initialContext 0 64 10, initialContext 0 63 26, initialContext (-15) 0 51] =
    [⟨46, false⟩, ⟨26, false⟩, ⟨62, true⟩, ⟨62, false⟩, ⟨0, true⟩, ⟨0, false⟩, ⟨62, false⟩] := by decide
/-- V-CINIT-ENG. -/
theorem test_cinit_eng : (after (.cinit 0 0 true)
    { opened .active [] with cabac := ⟨.active, 270, 3, 1, false⟩ }).cabac = ⟨.active, 510, 0, 0, true⟩ := by
  decide +kernel
/-- V-CABAC-1. -/
theorem test_cdec : ((after (.cdec 0 false) (opened .active [])).cabac,
    (after (.cdec 0 false) (opened .active [])).ctx[0]) = (⟨.active, 270, 0, 0, true⟩, ⟨1, false⟩) := by decide +kernel
/-- V-CABAC-4. -/
theorem test_cdec_lps : ((after (.cdec 0 true) (opened .active [])).cabac,
    (after (.cdec 0 true) (opened .active [])).ctx[0]) = (⟨.active, 480, 28, 1, true⟩, ⟨0, true⟩) := by decide +kernel
/-- V-CABAC-3. -/
theorem test_cbyp : (after (.cbyp true) (opened .active [])).cabac = ⟨.active, 510, 510, 0, false⟩ := by decide +kernel
/-- V-CABAC-7. -/
theorem test_cbypn : ((after (.cbypn 4 0xB) (opened .active [])).cabac,
    (after (.cbypn 4 0xB) (opened .active [])).bw.acc) =
    (⟨.active, 510, 490, 0, false⟩, [true, false, true]) := by decide +kernel
/-- V-CABAC-6. -/
theorem test_cterm_zero : (after (.cterm false) (opened .active [])).cabac = ⟨.active, 508, 0, 0, true⟩ := by
  decide +kernel
/-- V-CABAC-2. -/
theorem test_cterm_one :
    (fun s => (bytesOut s 3, s.bw.acc, s.cabac.state))
      (after (.cterm true) { opened .active [] with cabac := ⟨.active, 270, 0, 0, true⟩ }) =
    ([0x65, 0x86, 0x00], [true], .terminated) := by decide +kernel
/-- V-CRES-1. -/
theorem test_cres :
    (fun s : State => ([s.ctx[93], s.ctx[134], s.ctx[195], s.ctx[248]], s.result))
      (after (.cres 0 2 0 true) { opened .active [] with bram := (withWords (1 :: List.replicate 15 0)).bram }) =
    ([⟨0, true⟩, ⟨0, true⟩, ⟨0, true⟩, ⟨1, false⟩], 1) := by decide +kernel
/-- V-CRES-4: the prefix and the suffix of a level of 20. -/
theorem test_cres_suffix :
    (fun s : State => [s.ctx[134], s.ctx[195], s.ctx[248], s.ctx[252]])
      (after (.cres 0 2 0 false) { opened .active [] with bram := (withWords (20 :: List.replicate 15 0)).bram }) =
    [⟨0, true⟩, ⟨0, true⟩, ⟨0, true⟩, ⟨12, true⟩] := by decide +kernel

/-! ### Bit writer and NAL units -/

/-- V-NAL-1. -/
theorem test_nalb : (fun s => (bytesOut s 1, s.wptr, s.bw.nalOpen, s.bw.nalStart))
    (after (.nalb 3 5) State.reset) = ([0x65], 1, true, 0) := by decide +kernel
/-- V-NAL-3. -/
theorem test_nalb_open : (after (.nalb 3 5) (opened .idle [])).errcode = 0x0A := by decide +kernel
/-- V-NAL-2. -/
theorem test_nale : (after .nale (opened .idle [])).desc = [⟨0, 1, 0x65⟩] := by decide +kernel
/-- V-EPB-2, the end of the unit. -/
theorem test_nale_trailing_zero : (fun s => (bytesOut s 6, s.desc))
    (after .nale { opened .idle [] with
      out := [(0, 0x65), (3, 0x03)], wptr := 5, bw := ⟨true, [], 1, true, 0, 24, 0x65⟩ }) =
    ([0x65, 0, 0, 3, 0, 3], [⟨0, 6, 0x65⟩]) := by decide +kernel
/-- V-NAL-5. -/
theorem test_nalx : (fun s => (bytesOut s 2, s.wptr, s.bw.nalOpen, s.nalCount))
    (after .nalx { opened .idle [] with out := [(0, 0x65), (1, 0xAA)], wptr := 2 }) = ([0, 0], 0, false, 0) := by
  decide +kernel
/-- V-EPB-1, the payload. -/
theorem test_putb_emulation : bytesOut (after (.putb 32 1) (opened .idle [])) 7 = [0x65, 0, 0, 3, 0, 1, 0] := by
  decide +kernel
/-- V-PUTB-3. -/
theorem test_putb_ignores_high : (after (.putb 4 0xFFFFFFFA) (opened .idle [])).bw.acc =
    [true, false, true, false] := by decide +kernel
/-- V-UE-4. -/
theorem test_putue : (after (.putue 3) (opened .idle [])).bw.acc = [false, false, true, false, false] := by
  decide +kernel
/-- V-SE-5. -/
theorem test_putse : (after (.putse (-2)) (opened .idle [])).bw.acc = [false, false, true, false, true] := by
  decide +kernel
/-- V-ALIGN-1. -/
theorem test_align : bytesOut (after .align (opened .idle [true, false, true])) 2 = [0x65, 0xA0] := by decide +kernel
/-- V-TRAIL-1. -/
theorem test_trail : bytesOut (after .trail (opened .idle [true, false, true])) 2 = [0x65, 0xB0] := by decide +kernel
/-- V-TRAIL-2. -/
theorem test_trail_aligned : bytesOut (after .trail (opened .idle [])) 2 = [0x65, 0x80] := by decide +kernel
/-- V-PUTBYTES-1. -/
theorem test_putbytes : (fun s => (bytesOut s 5, s.bw.nalBits))
    (after (.putbytes 0 3) { opened .idle [] with bram := (withWords [0, 0, 1]).bram }) =
    ([0x65, 0, 0, 3, 1], 24) := by decide +kernel
/-- V-PUTBYTES-2. -/
theorem test_putbytes_low_byte :
    bytesOut (after (.putbytes 0 1) { opened .idle [] with bram := (withWords [0x12345678]).bram }) 2 = [0x65, 0x78] := by
  decide +kernel

/-! ### Control, host and errors -/

/-- V-NOP-1. -/
theorem test_nop : (after .nop State.reset).irqPend = 0b010 := by decide
/-- V-SETQP-1. -/
theorem test_setqp : readReg (after (.setqp 28 (-2) 3) State.reset) .qp = 0x00031E1C := by decide
/-- V-SETQP-2. -/
theorem test_setqp_range : (fun s => (s.errcode, s.qpy)) (after (.setqp 52 0 0) State.reset) = (0x04, 0) := by decide
/-- V-TQ-E1, V-TQ-E3, V-TQ-E4. -/
theorem test_block_errors :
    (after (.tq4 ⟨true, 0, false, 0, 16⟩) (withWords (List.replicate 5 0 ++ 256 :: List.replicate 10 0))).errcode = 0x07 ∧
    (after (.tq4 ⟨true, 0, false, 0, 16⟩) State.reset).errcode = 0x06 ∧
    (after (.tq8 ⟨true, 0, false, 1000, 0⟩) State.reset).errcode = 0x05 := by decide +kernel
/-- V-MMIO-1, V-MMIO-2, V-MMIO-3. -/
theorem test_mmio_reads : (stepped State.reset (.read 4 0)).readData = 0x54514531 ∧
    (stepped State.reset (.read 2 6)).errcode = 0x13 ∧ (stepped State.reset (.read 4 0x100)).errcode = 0x14 := by
  decide +kernel
/-- V-MMIO-5. -/
theorem test_mmio_read_only : (stepped State.reset (.write 4 0x1C 5)).errcode = 0x14 := by decide +kernel
/-- Program P5, step 3: NALE with four bits pending, as the command at the FIFO head. -/
theorem test_step_error :
    (fun s => (s.errcode, s.errinfoLo, s.errinfoHi, s.irqPend, s.fifo))
      (stepped { opened .idle [true, false, true, false] with
        enable := true, fifo := [⟨0x84000000, 0⟩, ⟨0x9C000000, 0⟩] } .engineTurn) =
    (0x0B, 0x84000000, 0, 0b001, [⟨0x9C000000, 0⟩]) := by decide +kernel
/-- Program P5, step 5: CLR_ERR. -/
theorem test_clear_error :
    (fun s => (s.err, s.errcode, s.fifo, s.bw.nalOpen))
      (stepped { opened .idle [true] with err := true, errcode := 0x0B, fifo := [⟨0x9C000000, 0⟩] } (.write 4 4 0x101)) =
    (false, 0, [], true) := by decide +kernel
/-- withFetchWord: NALB 3, 5 runs as the first command after reset. -/
theorem test_withFetchWord :
    (fun r : Host.Outcome State Fault Refusal => match r with | .next s => (s.wptr, s.bw.hdr) | _ => (0, 0))
      (step (State.reset.withFetchWord 64 0x83050000)) = (1, 0x65) := by decide +kernel

/-! ### Witnesses: for every statement with hypotheses, a state and operands that meet them, each clause at a boundary -/

theorem exec_after (i : Instr) (s : State) : exec i s = .next (after i s) := by
  obtain ⟨t, h⟩ := finish_is_next i s (effectOf i s)
  rw [← exec_eq_finish] at h
  simp [after, h]

/-- The engine about to take command c of an idle block. -/
def ready (c : Command) (rest : List Command) : State :=
  { State.reset with enable := true, fifo := c :: rest }

/-- The host's access next, n commands queued, an error recorded or not. -/
def facing (e : Event) (n : Nat) (failed : Bool) : State :=
  { State.reset with agenda := [e], fifo := List.replicate n ⟨0, 0⟩, err := failed }

/-- A unit open at 0 with pending bits, the output pointer at w and o bits waiting in the coder. -/
def openUnit (state : CabacState) (acc : List Bool) (w o : Nat) (fifo : List Command) (words : List Word) : State :=
  { opened state acc with
    enable := true, fifo := fifo, wptr := w, bram := (withWords words).bram, cabac := ⟨state, 510, 0, o, true⟩ }

theorem ranges_openUnit {state : CabacState} {acc : List Bool} {w o : Nat} {fifo : List Command} {words : List Word}
    (hf : fifo.length ≤ 16) (hb : words.length ≤ 1024) (ha : acc.length ≤ 7) (h1 : 1 ≤ w) (h2 : w ≤ 65536)
    (h3 : o ≤ 2 ^ 32 - 1) : (openUnit state acc w o fifo words).Ranges where
  errorClear := fun _ => ⟨rfl, rfl, rfl⟩
  qp := by simp [openUnit, opened, State.reset]
  fifo := hf
  coder := by simp only [openUnit, Config.outstMax]; omega
  contexts := by simp [openUnit, opened, State.reset]
  weights := by simp [openUnit, opened, State.reset]
  bram := Bram.wf_writeAll Bram.wf_nil (by simpa using hb)
  out := by simp only [openUnit, opened]; decide
  written := by
    refine ⟨?_, h2⟩
    simp only [openUnit, opened, List.mem_singleton]
    rintro c rfl; exact h1
  writer := by
    simp only [openUnit, opened, BitVec.toNat_ofNat]
    omega
  closed := by simp [openUnit, opened]
  opened := by simpa [openUnit, opened, State.reset] using Nat.lt_of_succ_le h1
  desc := by simp [openUnit, opened, State.reset]

/-- Both invariants hold of a unit with its header only, NALE at the FIFO head. -/
theorem inv_openUnit : (openUnit .idle [] 1 0 [⟨0x84000000, 0⟩] []).Inv where
  ranges := ranges_openUnit (by simp) (by simp) (by simp) (by simp) (by simp) (by simp)
  stream :=
    { noStartCode := by intro k hk; simp [openUnit, opened] at hk
      units := by simp [openUnit, opened, State.reset, backToBack]
      headers := by intro d hd; simp [openUnit, opened, State.reset] at hd
      closedEnd := by intro h; simp [openUnit, opened] at h
      openStart := by decide
      openEnd := by decide }

/-! Encoding and decoding -/

theorem witness_DecodeAndEncodeAgree : decode ⟨0x21401FFC, 0⟩ = .ok (.tq4 ⟨false, 2, true, 1, 1023⟩) := by decide +kernel

/-- Both ends of each of the four ranges of opcodes. -/
theorem witness_UnlistedOpcodesAreIllegal :
    ∀ c ∈ [0x02, 0x07, 0x11, 0x17, 0x1E, 0x1F, 0x29, 0x3F].map fun op => (⟨BitVec.ofNat 32 (op * 2 ^ 26), 0⟩ : Command),
      decode c = .error .illegalOpcode ∧ AtHead (ready c []) c [] := by
  simp only [List.map, List.forall_mem_cons]
  exact ⟨⟨by decide, rfl, rfl, rfl, rfl⟩, ⟨by decide, rfl, rfl, rfl, rfl⟩, ⟨by decide, rfl, rfl, rfl, rfl⟩,
    ⟨by decide, rfl, rfl, rfl, rfl⟩, ⟨by decide, rfl, rfl, rfl, rfl⟩, ⟨by decide, rfl, rfl, rfl, rfl⟩,
    ⟨by decide, rfl, rfl, rfl, rfl⟩, ⟨by decide, rfl, rfl, rfl, rfl⟩, by simp⟩

/-- A reserved bit of lo, one of hi, and none. -/
theorem witness_ReservedBitsAreRefused :
    (0x10, 0x03C00003, 0xFFFFFFF8) ∈ reservedMasks ∧
    (∀ c ∈ ([⟨0x40000001, 0⟩, ⟨0x40000000, 8⟩, ⟨0x403FFFFC, 7⟩] : List Command), (c.lo >>> 26).toNat = 0x10) ∧
    (0x40000001#32 &&& 0x03C00003 ≠ 0) ∧ (8#32 &&& 0xFFFFFFF8 ≠ 0) ∧
    (0x403FFFFC#32 &&& 0x03C00003 = 0 ∧ 7#32 &&& 0xFFFFFFF8 = 0) ∧
    AtHead (ready ⟨0x40000001, 0⟩ []) ⟨0x40000001, 0⟩ [] :=
  ⟨by decide, by decide, by decide, by decide, by decide, rfl, rfl, rfl, rfl⟩

theorem witness_FieldValuesAreChecked : State.reset.err = false ∧ State.reset.errcode = 0 ∧
    (Instr.setqp 52 0 0).wellFormed = false ∧ (Instr.setqp 51 (-12) 12).wellFormed = true ∧
    exec (.setqp 51 (-12) 12) State.reset = .next (after (.setqp 51 (-12) 12) State.reset) :=
  ⟨rfl, rfl, by decide, by decide, exec_after _ _⟩

/-! The engine's step -/

theorem witness_StepRunsTheHeadCommand :
    (let s := ready ⟨0x84000000, 0⟩ [⟨0, 0⟩];
      s.enable = true ∧ s.err = false ∧ s.fifo = ⟨0x84000000, 0⟩ :: [⟨0, 0⟩] ∧ decode ⟨0x84000000, 0⟩ = .ok .nale ∧
      s.agenda = []) ∧ (facing .engineTurn 1 false).agenda = .engineTurn :: [] ∧
    State.reset.enable = false ∧ (ready ⟨0, 0⟩ []).fifo.tail = [] ∧ (facing .engineTurn 1 true).err = true := by
  decide +kernel

/-- NALE with no unit open. -/
theorem witness_CommandErrorChangesNothingElse :
    AtHead (ready ⟨0x84000000, 0⟩ [⟨0, 0⟩]) ⟨0x84000000, 0⟩ [⟨0, 0⟩] ∧
    (∃ t, step (ready ⟨0x84000000, 0⟩ [⟨0, 0⟩]) = .next t ∧ t.err = true) ∧
    ({ State.reset with err := true }.err = true ∧ { State.reset with err := true }.agenda = []) :=
  ⟨⟨rfl, rfl, rfl, rfl⟩, ⟨_, rfl, rfl⟩, rfl, rfl⟩

theorem witness_FirstErrorIsSticky :
    (facing (.write 4 0x00004 0x201) 0 true).err = true ∧
    (facing (.write 4 0x00004 0x201) 0 true).agenda = .write 4 0x00004 0x201 :: [] ∧
    (Event.write 4 0x00004 0x201 ≠ .resetInput) ∧
    (∀ v, Event.write 4 0x00004 0x201 = .write 4 0x00004 v → v.getLsbD 8 = false ∧ v.getLsbD 10 = false) ∧
    ∃ t, step (facing (.write 4 0x00004 0x201) 0 true) = .next t :=
  ⟨rfl, rfl, by decide, by rintro v ⟨⟩; decide, ⟨_, rfl⟩⟩

/-- NOP with nothing and with something queued behind it, NALE of a unit, NALE with no unit. -/
theorem witness_CommandsSetTheirInterrupts :
    (AtHead (ready ⟨0, 0⟩ []) ⟨0, 0⟩ [] ∧ ∃ t, step (ready ⟨0, 0⟩ []) = .next t ∧ t.err = false) ∧
    (AtHead (ready ⟨0, 0⟩ [⟨0, 0⟩]) ⟨0, 0⟩ [⟨0, 0⟩] ∧ ∃ t, step (ready ⟨0, 0⟩ [⟨0, 0⟩]) = .next t ∧ t.err = false) ∧
    (AtHead (openUnit .idle [] 1 0 [⟨0x84000000, 0⟩] []) ⟨0x84000000, 0⟩ [] ∧
      ∃ t, step (openUnit .idle [] 1 0 [⟨0x84000000, 0⟩] []) = .next t ∧ t.err = false) ∧
    AtHead (ready ⟨0x84000000, 0⟩ []) ⟨0x84000000, 0⟩ [] ∧ ∃ t, step (ready ⟨0x84000000, 0⟩ []) = .next t ∧ t.err = true :=
  ⟨⟨⟨rfl, rfl, rfl, rfl⟩, _, rfl, rfl⟩, ⟨⟨rfl, rfl, rfl, rfl⟩, _, rfl, rfl⟩, ⟨⟨rfl, rfl, rfl, rfl⟩, _, rfl, rfl⟩,
    ⟨rfl, rfl, rfl, rfl⟩, _, rfl, rfl⟩

/-! Host accesses -/

theorem witness_MisalignedAccessIsRefused :
    ¬(2 = 4 ∧ (0x00004 : BitVec 17).toNat % 4 = 0) ∧ ¬(4 = 4 ∧ (0x1FFFF : BitVec 17).toNat % 4 = 0) ∧
    (facing (.read 2 0x00004) 0 false).agenda = .read 2 0x00004 :: [] ∧
    (facing (.write 4 0x1FFFF 7) 0 true).agenda = .write 4 0x1FFFF 7 :: [] := by decide +kernel

/-- Both ends of every hole of the map and of every read-only range, with the accesses. -/
theorem witness_UnmappedAndReadOnlyAccesses :
    (∀ a ∈ [0x00054, 0x00FFC, 0x020E0, 0x02FFC, 0x03730, 0x03FFC, 0x04200, 0x0FFFC], a % 4 = 0 ∧ ¬Mapped a ∧
      (BitVec.ofNat 17 a).toNat = a ∧ (facing (.read 4 (BitVec.ofNat 17 a)) 0 false).agenda = [.read 4 (BitVec.ofNat 17 a)] ∧
      (facing (.write 4 (BitVec.ofNat 17 a) 7) 0 false).agenda = [.write 4 (BitVec.ofNat 17 a) 7]) ∧
    (∀ a ∈ [0x00000, 0x0000C, 0x0001C, 0x00030, 0x00050, 0x03000, 0x0372C, 0x04000, 0x041FC, 0x10000, 0x1FFFC],
      a % 4 = 0 ∧ Mapped a ∧ ReadOnly a ∧ (BitVec.ofNat 17 a).toNat = a ∧
      (facing (.write 4 (BitVec.ofNat 17 a) 7) 0 false).agenda = [.write 4 (BitVec.ofNat 17 a) 7]) ∧
    ∀ a ∈ [0x00008, 0x00020, 0x00024], a % 4 = 0 ∧ Mapped a ∧ ¬ReadOnly a ∧ (BitVec.ofNat 17 a).toNat = a ∧
      (facing (.write 4 (BitVec.ofNat 17 a) 7) 0 false).agenda = [.write 4 (BitVec.ofNat 17 a) 7] ∧
      (facing (.read 4 (BitVec.ofNat 17 a)) 0 false).agenda = [.read 4 (BitVec.ofNat 17 a)] := by
  unfold Mapped ReadOnly
  refine ⟨?_, ?_, ?_⟩ <;> decide +kernel

/-- The last register, and both ends of the BRAM window: word 0 written, word 1023 not. -/
theorem witness_MappedReadsChangeNothing :
    (∀ a ∈ [0x00050, 0x01000, 0x01FFC, 0x1FFFC], a % 4 = 0 ∧ Mapped a ∧ (BitVec.ofNat 17 a).toNat = a ∧
      (facing (.read 4 (BitVec.ofNat 17 a)) 0 false).agenda = [.read 4 (BitVec.ofNat 17 a)]) ∧
    { withWords [5] with agenda := [.read 4 0x01000] }.bram.read ((0x01000 - 0x01000) / 4) ≠ none ∧
    (facing (.read 4 0x01FFC) 0 false).bram.read ((0x01FFC - 0x01000) / 4) = none := by
  unfold Mapped
  refine ⟨?_, ?_, ?_⟩ <;> decide +kernel

theorem witness_RegistersReadTheirState :
    let s := { openUnit .active (List.replicate 7 true) 65536 (2 ^ 32 - 1) (List.replicate 16 ⟨0, 0⟩) [] with
      qpy := 51, agenda := [.read 4 0x00008] }
    s.qpy ≤ 51 ∧ s.fifo.length ≤ 16 ∧ s.bw.acc.length ≤ 7 ∧ s.agenda = .read 4 0x00008 :: [] ∧
      { s with agenda := [.read 4 0x00050] }.agenda = .read 4 0x00050 :: [] :=
  ⟨by decide, by decide, by decide, rfl, rfl⟩

/-- Both ends of each window. -/
theorem witness_WindowsReadTheirState :
    (∀ a ∈ [0x03000, 0x03000 + 4 * 459, 0x04000, 0x04000 + 8 * 63, 0x04004, 0x04004 + 8 * 63, 0x10000, 0x10000 + 65532],
      (facing (.read 4 (BitVec.ofNat 17 a)) 0 false).agenda = [.read 4 (BitVec.ofNat 17 a)]) ∧
    (State.reset.ctx[459]).pStateIdx ≤ 63 ∧ 65532 < 65536 ∧ 65532 % 4 = 0 := by decide +kernel

/-- Word 0 and word 1023, each written and read; and a write while BUSY. -/
theorem witness_HostAccessesBram :
    (∀ a ∈ [0, 1023], a < 1024 ∧
      (let s := { State.reset.writeBlock a [5] with agenda := [.read 4 (BitVec.ofNat 17 (0x01000 + 4 * a))] };
        s.agenda = [.read 4 (BitVec.ofNat 17 (0x01000 + 4 * a))] ∧ s.bram.read a = some 5) ∧
      (let e := Event.write 4 (BitVec.ofNat 17 (0x01000 + 4 * a)) 7;
        (facing e 0 false).agenda = [e] ∧ (facing e 0 false).fifo = [] ∧ (facing e 1 false).agenda = [e] ∧
        (facing e 1 false).fifo ≠ [])) := by decide +kernel

/-- The first and the last word; weights 1 and 255, and one of 0. -/
theorem witness_HostAccessesScaling :
    (∀ k ∈ [0, 220], k < 224 ∧ k % 4 = 0 ∧ ∀ v ∈ [0x01FF01FF, 0x01FF00FF],
      let e := Event.write 4 (BitVec.ofNat 17 (0x02000 + k)) (BitVec.ofNat 32 v)
      (facing e 0 false).agenda = [e] ∧ (facing e 0 false).fifo = [] ∧ (facing e 1 false).fifo ≠ []) ∧
    (∀ j < 4, ((0x01FF01FF : Word).extractLsb' (8 * j) 8) ≠ 0) ∧ (∃ j < 4, ((0x01FF00FF : Word).extractLsb' (8 * j) 8) = 0) ∧
    (facing (.read 4 (BitVec.ofNat 17 (0x02000 + 220))) 0 false).agenda = [.read 4 (BitVec.ofNat 17 (0x02000 + 220))] := by
  decide +kernel

/-- QPY 51 with offsets 12 and -12; QPY 52; a reserved bit; each as the host's write. -/
theorem witness_HostWritesQp :
    (∀ v ∈ [0x00140C33, 0x00000034, 0x00000040], let e := Event.write 4 0x00018 (BitVec.ofNat 32 v);
      (facing e 0 false).agenda = [e] ∧ (facing e 0 false).fifo = []) ∧
    (facing (.write 4 0x00018 0) 1 false).fifo ≠ [] ∧
    (((0x00140C33 : Word).extractLsb' 0 6).toNat = 51 ∧ ((0x00140C33 : Word).extractLsb' 8 5).toInt = 12 ∧
      ((0x00140C33 : Word).extractLsb' 16 5).toInt = -12 ∧ (0x00140C33 : Word) &&& 0xFFE0E0C0 = 0) ∧
    ¬((0x00000034 : Word).extractLsb' 0 6).toNat ≤ 51 ∧ ¬(0x00000040 : Word) &&& 0xFFE0E0C0 = 0 := by decide +kernel

/-- A FIFO of 15 commands and of 16. -/
theorem witness_HostPushesCommands :
    (facing (.read 4 0x00020) 0 false).agenda = [.read 4 0x00020] ∧
    (facing (.read 4 0x00024) 0 false).agenda = [.read 4 0x00024] ∧
    (facing (.write 4 0x00020 7) 0 false).agenda = [.write 4 0x00020 7] ∧
    (∀ n ∈ [15, 16], (facing (.write 4 0x00024 7) n false).agenda = [.write 4 0x00024 7] ∧
      (facing (.write 4 0x00024 7) n false).fifo.length = n) := by decide +kernel

theorem witness_ResetByPinOrByCtrl : (facing .resetInput 1 true).agenda = [.resetInput] ∧
    (0x00000700 : Word).getLsbD 10 = true ∧
    (facing (.write 4 0x00004 0x700) 1 true).agenda = [.write 4 0x00004 0x700] := by decide +kernel

/-- With CLR_ERR and without: LOSSLESS changed while not BUSY, and kept while BUSY. -/
theorem witness_ClearErrorRecovers :
    (∀ n ∈ [0x103, 0x003], let v : Word := BitVec.ofNat 32 n;
      v.getLsbD 9 = false ∧ v.getLsbD 10 = false ∧
      (facing (.write 4 0x00004 v) 0 true).agenda = [.write 4 0x00004 v] ∧ (facing (.write 4 0x00004 v) 0 true).fifo = []) ∧
    (∀ n ∈ [0x101, 0x001], let v : Word := BitVec.ofNat 32 n;
      v.getLsbD 9 = false ∧ v.getLsbD 10 = false ∧
      (facing (.write 4 0x00004 v) 16 true).agenda = [.write 4 0x00004 v] ∧
      v.getLsbD 1 = (facing (.write 4 0x00004 v) 16 true).lossless) ∧
    (0x101 : Word).getLsbD 8 = true ∧ (0x001 : Word).getLsbD 8 = false := by decide +kernel

theorem witness_OutResetDiscardsOutput :
    (∀ n ∈ [0x203, 0x303], let v : Word := BitVec.ofNat 32 n;
      v.getLsbD 9 = true ∧ v.getLsbD 10 = false ∧
      (facing (.write 4 0x00004 v) 1 false).agenda = [.write 4 0x00004 v] ∧ (facing (.write 4 0x00004 v) 1 false).fifo ≠ [] ∧
      (let s := { opened .active [true] with agenda := [.write 4 0x00004 v] };
        s.agenda = [.write 4 0x00004 v] ∧ s.fifo = [] ∧ s.bw.nalOpen = true) ∧
      (facing (.write 4 0x00004 v) 0 true).fifo = [] ∧ State.reset.bw.nalOpen = false) := by decide +kernel

theorem witness_BusyWritesKeepInputs :
    (let e := Event.write 4 0x00018 0x1A;
      (facing e 1 false).agenda = [e] ∧ (facing e 1 false).fifo ≠ [] ∧
      ¬(4 = 4 ∧ (0x00018 : BitVec 17) = 0x00004 ∧ (0x1A : Word).getLsbD 10 = true) ∧
      ∃ t, step (facing e 1 false) = .next t) ∧
    (facing (.write 4 0x00004 0x103) 16 false).agenda = [.write 4 0x00004 0x103] ∧
    (facing (.write 4 0x00004 0x103) 16 false).fifo ≠ [] ∧ (0x103 : Word).getLsbD 10 = false ∧
    (0x103 : Word).getLsbD 1 ≠ (facing (.write 4 0x00004 0x103) 16 false).lossless :=
  ⟨⟨rfl, by decide, by decide, _, rfl⟩, rfl, by decide, by decide, by decide⟩

theorem witness_InterruptRegistersAndLine :
    (facing (.write 4 0x00028 0xFFFFFFFD) 0 false).agenda = [.write 4 0x00028 0xFFFFFFFD] ∧
    (facing (.write 4 0x0002C 2) 0 false).agenda = [.write 4 0x0002C 2] ∧
    { State.reset with irqPend := 4, irqEn := 6 }.irqLine = true ∧
    { State.reset with irqPend := 4, irqEn := 3 }.irqLine = false := by decide +kernel

/-! Invariants -/

theorem witness_StepsKeepRanges : (openUnit .active (List.replicate 7 true) 65536 (2 ^ 32 - 1) [⟨0, 0⟩] []).Ranges ∧
    ∃ t, step (openUnit .active (List.replicate 7 true) 65536 (2 ^ 32 - 1) [⟨0, 0⟩] []) = .next t :=
  ⟨ranges_openUnit (by simp) (by simp) (by simp) (by simp) (by simp) (by simp), ⟨_, rfl⟩⟩

/-- The step closes the unit. -/
theorem witness_StepsKeepStream : (openUnit .idle [] 1 0 [⟨0x84000000, 0⟩] []).Inv ∧
    ∃ t, step (openUnit .idle [] 1 0 [⟨0x84000000, 0⟩] []) = .next t ∧ t.desc = [⟨0, 1, 0x65⟩] :=
  ⟨inv_openUnit, _, rfl, by decide⟩

/-! Who writes what -/

/-- A forward command that saturates, one that counts nothing, SETQP, and the commands that move the CABAC state. -/
theorem witness_OnlyTheirCommandsWrite :
    (let i := Instr.tq4 ⟨true, 0, false, 0, 16⟩;
      let s := { withWords (List.replicate 16 255) with sat := true };
      exec i s = .next (after i s) ∧ s.sat = true) ∧
    (countsResult .nop = false ∧ isForward .nop = false ∧ writesBram .nop = false ∧ (∀ q b r, Instr.nop ≠ .setqp q b r) ∧
      exec .nop State.reset = .next (after .nop State.reset)) ∧
    exec (.setqp 28 0 0) State.reset = .next (after (.setqp 28 0 0) State.reset) :=
  ⟨⟨exec_after _ _, rfl⟩, ⟨rfl, rfl, rfl, by rintro _ _ _ ⟨⟩, exec_after _ _⟩, exec_after _ _⟩

theorem witness_CoderStateWriters :
    (∀ i ∈ [Instr.cinit 0 26 false, .cinit 0 0 true, .cterm true, .cdec 0 false],
      exec i (opened .active []) = .next (after i (opened .active []))) ∧
    (isCabac .nale = false ∧ exec .nale (opened .idle []) = .next (after .nale (opened .idle []))) ∧
    ∀ m q, Instr.nale ≠ .cinit m q false :=
  ⟨fun _ _ => exec_after _ _, ⟨rfl, exec_after _ _⟩, by rintro _ _ ⟨⟩⟩

theorem witness_OutputOnlyGrows : exec .nale (opened .idle []) = .next (after .nale (opened .idle [])) ∧
    Instr.nale ≠ .nalx ∧ Instr.align ≠ .nale := ⟨exec_after _ _, by decide, by decide⟩

/-- Both ends of each range of SETQP, and the values next to them. -/
theorem witness_NopAndSetqpComplete :
    ((51 : BitVec 6).toNat ≤ 51 ∧ -12 ≤ (-12 : BitVec 5).toInt ∧ (-12 : BitVec 5).toInt ≤ 12 ∧
      -12 ≤ (12 : BitVec 5).toInt ∧ (12 : BitVec 5).toInt ≤ 12) ∧
    ¬(52 : BitVec 6).toNat ≤ 51 ∧ ¬-12 ≤ (-13 : BitVec 5).toInt ∧ ¬(13 : BitVec 5).toInt ≤ 12 := by decide

/-! Transform blocks -/

/-- Words of both signs and of magnitude b. -/
def swing (b : Int) (k : Nat) : Word :=
  BitVec.ofInt 32 (if k % 2 = 0 then b else -b)

/-- A block of n such words at 0; the destination may end with the buffer RAM. -/
def swinging (n : Nat) (b : Int) : State :=
  withWords ((List.range n).map (swing b))

/-- Every block command at the bounds of its inputs, its destination ending at word 1023. -/
theorem blocks_swinging :
    BlockAt (swinging 16 255) 0 16 (swing 255) (-255) 255 ∧ BlockAt (swinging 64 255) 0 64 (swing 255) (-255) 255 ∧
    BlockAt (swinging 16 4080) 0 16 (swing 4080) (-4080) 4080 ∧ BlockAt (swinging 4 4080) 0 4 (swing 4080) (-4080) 4080 ∧
    BlockAt (swinging 64 32767) 0 64 (swing 32767) (-32768) 32767 ∧
    BlockAt (swinging 16 32767) 0 16 (swing 32767) (-32768) 32767 ∧
    BlockAt (swinging 4 32767) 0 4 (swing 32767) (-32768) 32767 := by
  unfold BlockAt
  refine ⟨?_, ?_, ?_, ?_, ?_, ?_, ?_⟩ <;> decide +kernel

theorem witness_Tq4QuantizesTransform : (2 : BitVec 2).toNat ≤ 2 ∧
    BlockAt (swinging 16 255) (0 : BitVec 10).toNat 16 (swing 255) (-255) 255 ∧
    (1008 : BitVec 10).toNat + 16 ≤ 1024 ∧ (swinging 16 255).bypass = false :=
  ⟨by decide, blocks_swinging.1, by decide, by decide +kernel⟩

theorem witness_Tq8QuantizesTransform : BlockAt (swinging 64 255) (0 : BitVec 10).toNat 64 (swing 255) (-255) 255 ∧
    (960 : BitVec 10).toNat + 64 ≤ 1024 ∧ (swinging 64 255).bypass = false :=
  ⟨blocks_swinging.2.1, by decide, by decide +kernel⟩

theorem witness_TqldcQuantizesHadamard : BlockAt (swinging 16 4080) (0 : BitVec 10).toNat 16 (swing 4080) (-4080) 4080 ∧
    (1008 : BitVec 10).toNat + 16 ≤ 1024 ∧ (swinging 16 4080).bypass = false :=
  ⟨blocks_swinging.2.2.1, by decide, by decide +kernel⟩

theorem witness_TqcdcQuantizesHadamard : BlockAt (swinging 4 4080) (0 : BitVec 10).toNat 4 (swing 4080) (-4080) 4080 ∧
    (1020 : BitVec 10).toNat + 4 ≤ 1024 ∧ (swinging 4 4080).bypass = false ∧ ((1 : BitVec 2).toNat = 1 ∧ (2 : BitVec 2).toNat = 2) :=
  ⟨blocks_swinging.2.2.2.1, by decide, by decide +kernel, by decide⟩

/-- With ac = 1 a first word no int16, with ac = 0 the bounds. -/
theorem witness_Dq4TransformsScaled :
    (∀ k < 16, (swinging 16 32767).bram.read ((0 : BitVec 10).toNat + k) = some (swing 32767 k)) ∧
    (∀ k < 16, -32768 ≤ (swing 32767 k).toInt ∧ (swing 32767 k).toInt ≤ 32767) ∧
    (let c := fun k => if k = 0 then (0x7FFFFFFF : Word) else 5;
      (∀ k < 16, (withWords (0x7FFFFFFF :: List.replicate 15 5)).bram.read ((0 : BitVec 10).toNat + k) = some (c k)) ∧
      ∀ k < 16, (true = true ∧ k = 0) ∨ (-32768 ≤ (c k).toInt ∧ (c k).toInt ≤ 32767)) ∧
    (1008 : BitVec 10).toNat + 16 ≤ 1024 ∧ (swinging 16 32767).bypass = false ∧
    (withWords (0x7FFFFFFF :: List.replicate 15 5)).bypass = false := by decide +kernel

theorem witness_Dq8TransformsScaled : BlockAt (swinging 64 32767) (0 : BitVec 10).toNat 64 (swing 32767) (-32768) 32767 ∧
    (960 : BitVec 10).toNat + 64 ≤ 1024 ∧ (swinging 64 32767).bypass = false :=
  ⟨blocks_swinging.2.2.2.2.1, by decide, by decide +kernel⟩

theorem witness_DqldcScalesHadamard : BlockAt (swinging 16 32767) (0 : BitVec 10).toNat 16 (swing 32767) (-32768) 32767 ∧
    (1008 : BitVec 10).toNat + 16 ≤ 1024 ∧ (swinging 16 32767).bypass = false :=
  ⟨blocks_swinging.2.2.2.2.2.1, by decide, by decide +kernel⟩

theorem witness_DqcdcScalesHadamard : BlockAt (swinging 4 32767) (0 : BitVec 10).toNat 4 (swing 32767) (-32768) 32767 ∧
    (1020 : BitVec 10).toNat + 4 ≤ 1024 ∧ (swinging 4 32767).bypass = false ∧ ((1 : BitVec 2).toNat = 1 ∧ (2 : BitVec 2).toNat = 2) :=
  ⟨blocks_swinging.2.2.2.2.2.2, by decide, by decide +kernel, by decide⟩

/-- The first clause with TQ4 of a block at its bounds and TQCDC of plane 2, the second with DQ4 and a wide first word. -/
theorem witness_LosslessBypassCopies :
    (let s := { swinging 16 255 with lossless := true };
      (s.lossless = true ∧ s.qpy = 0) ∧ (Instr.tq4 ⟨false, 2, true, 0, 1008⟩).wellFormed = true ∧
      (Instr.tqcdc ⟨true, 2, false, 0, 1020⟩).wellFormed = true ∧
      (∀ k < 16, s.bram.read (0 + k) = some (swing 255 k) ∧ -255 ≤ (swing 255 k).toInt ∧ (swing 255 k).toInt ≤ 255)) ∧
    (let c := fun k => if k = 0 then (0x7FFFFFFF : Word) else 5;
      let s := { withWords (0x7FFFFFFF :: List.replicate 15 5) with lossless := true };
      (s.lossless = true ∧ s.qpy = 0) ∧ (Instr.dq4 ⟨true, 0, true, 0, 1008⟩).wellFormed = true ∧
      (∀ k < 16, s.bram.read (0 + k) = some (c k)) ∧
      ∀ k < 16, (Instr.dq4 ⟨true, 0, true, 0, 1008⟩ = .dq4 ⟨true, 0, true, 0, 1008⟩ ∧ true = true ∧ k = 0) ∨
        (-32768 ≤ (c k).toInt ∧ (c k).toInt ≤ 32767)) := by decide +kernel

/-- A source and a destination one word too far, an unwritten last word, and a last word one too large. Of RLSCAN and CRES:
a source that passes word 1023 by one, the last word read unwritten with word 0 unwritten too, a last word one too large
with word 0 unwritten. -/
theorem witness_BlockChecksInOrder :
    ((Instr.tq4 ⟨true, 0, false, 1009, 0⟩).wellFormed = true ∧ 1024 < (1009 : BitVec 10).toNat + 16 ∧
      (Instr.dq8 ⟨true, 0, false, 0, 961⟩).wellFormed = true ∧ 1024 < (961 : BitVec 10).toNat + 64 ∧
      (∃ k < 16, (withWords (List.replicate 15 5)).bram.read (0 + k) = none) ∧
      (let c := fun k => if k = 15 then (256 : Word) else 5;
        (∀ k < 16, (withWords (List.replicate 15 5 ++ [256])).bram.read (0 + k) = some (c k)) ∧
        ∃ k < 16, ¬(Instr.tq4 ⟨true, 0, true, 0, 16⟩ = .dq4 ⟨true, 0, true, 0, 16⟩ ∧ true = true ∧ k = 0) ∧
          ((c k).toInt < -255 ∨ 255 < (c k).toInt))) ∧
    ((Instr.rlscan 961 0 5).wellFormed = true ∧ (Instr.cres 1021 3 0 true).wellFormed = true ∧
      1024 < (961 : BitVec 10).toNat + 64 ∧ 1024 < (1021 : BitVec 10).toNat + 4) ∧
    ((Instr.rlscan 0 0 1).wellFormed = true ∧ (Instr.cres 0 4 3 false).wellFormed = true ∧
      (∃ k < 16, 1 ≤ k ∧ State.reset.bram.read (0 + k) = none) ∧
      (let c := fun k => if k = 15 then (32768 : Word) else 5;
        (∀ k < 16, 1 ≤ k → (State.reset.writeBlock 1 (List.replicate 14 5 ++ [32768])).bram.read (0 + k) = some (c k)) ∧
        ∃ k < 16, 1 ≤ k ∧ ((c k).toInt < -32768 ∨ 32767 < (c k).toInt))) := by
  refine ⟨?_, ?_, ?_⟩ <;> decide +kernel

theorem witness_FlatBlocksSurviveQpZero :
    (let s := withWords (List.replicate 64 (BitVec.ofInt 32 (-255)));
      s.qpy = 0 ∧ s.lossless = false ∧ (∀ k (h : k < 224), s.scal[k] = 16) ∧
      (∀ k < 64, s.bram.read ((0 : BitVec 10).toNat + k) = some (BitVec.ofInt 32 (-255))) ∧
      (-255 ≤ (BitVec.ofInt 32 (-255)).toInt ∧ (BitVec.ofInt 32 (-255)).toInt ≤ 255)) ∧
    (1008 : BitVec 10).toNat + 16 ≤ 1024 ∧ (960 : BitVec 10).toNat + 64 ≤ 1024 := by decide +kernel

/-! Scan -/

/-- The words of a 2x2 chroma DC block, its values the scanned list itself. -/
theorem scanned_chroma : ScannedAt (withWords [0, 0, BitVec.ofInt 32 (-32768), 0]) 0 3 [0, 0, -32768, 0] :=
  ⟨by decide, rfl, by
    have h : ∀ i < 4, (withWords [0, 0, BitVec.ofInt 32 (-32768), 0]).bram.read (0 + (scanList 3).getD i 0) =
        some (BitVec.ofInt 32 ([0, 0, -32768, 0].getD i 0)) := by decide +kernel
    have g : ∀ i < 4, (BitVec.ofInt 32 ([0, 0, -32768, 0].getD i 0)).toInt = [0, 0, -32768, 0].getD i 0 ∧
        -32768 ≤ (BitVec.ofInt 32 ([0, 0, -32768, 0].getD i 0)).toInt ∧
        (BitVec.ofInt 32 ([0, 0, -32768, 0].getD i 0)).toInt ≤ 32767 := by decide +kernel
    intro i hi
    exact ⟨_, h i hi, g i hi⟩⟩

/-- One pair; a destination that ends at word 1023, and one that passes it. -/
theorem witness_RlscanWritesPairs : (3 : BitVec 3).toNat ≤ 5 ∧
    ScannedAt (withWords [0, 0, BitVec.ofInt 32 (-32768), 0]) (0 : BitVec 10).toNat (3 : BitVec 3).toNat [0, 0, -32768, 0] ∧
    (∀ p ∈ [(2, (-32768 : Int))], p.2 ≠ 0) ∧
    [0, 0, -32768, 0] = ([(2, (-32768 : Int))].flatMap fun p => List.replicate p.1 0 ++ [p.2]) ++ List.replicate 1 0 ∧
    (1022 : BitVec 10).toNat + [(2, (-32768 : Int))].length ≤ 1023 ∧
    1023 < (1023 : BitVec 10).toNat + [(2, (-32768 : Int))].length :=
  ⟨by decide, scanned_chroma, by decide, by decide, by decide, by decide⟩

/-! The CABAC engine -/

/-- Pending bits in an open unit; no unit, with pending bits or without; a start at slice QP 51, and one that skips the
contexts. -/
theorem witness_CinitStartsCoder :
    ((51 : BitVec 6).toNat ≤ 51 ∧ (false = true → (3 : BitVec 2) = 0 ∧ (51 : BitVec 6) = 0)) ∧
    ((0 : BitVec 6).toNat ≤ 51 ∧ (true = true → (0 : BitVec 2) = 0 ∧ (0 : BitVec 6) = 0)) ∧
    ((opened .idle [true]).bw.nalOpen = true ∧ (opened .idle [true]).bw.acc ≠ []) ∧
    State.reset.bw.nalOpen = false ∧ (opened .active []).bw.acc = [] := by decide

/-- A coder at the given range, low and count. -/
def coderAt (range low outst : Nat) : Coder :=
  ⟨range, low, outst, false, State.reset.ctx, []⟩

/-- Each clause at the two ends of its interval. -/
theorem witness_RenormalizationLoop :
    (0 < (coderAt 1 0 0).range ∧ (coderAt 255 0 0).range < 256 ∧ 256 ≤ (coderAt 256 0 0).range) ∧
    ((coderAt 128 0 0).low < 256 ∧ (coderAt 128 255 0).low < 256) ∧
    (512 ≤ (coderAt 128 512 0).low ∧ 512 ≤ (coderAt 128 1023 0).low) ∧
    (256 ≤ (coderAt 128 256 0).low ∧ (coderAt 128 511 0).low < 512) ∧
    ((coderAt 128 256 (2 ^ 32 - 2)).outst < 2 ^ 32 - 1 ∧ 2 ^ 32 - 1 ≤ (coderAt 128 511 (2 ^ 32 - 1)).outst) := by decide

/-- An open unit with seven pending bits, the coder active, and room for exactly so many bytes. -/
theorem mayCode_openUnit (room o : Nat) (h : room + o ≤ 65535) (h3 : o ≤ 2 ^ 32 - 1) :
    let s := openUnit .active (List.replicate 7 true) (65536 - room - o) o [] []
    s.Ranges ∧ MayCode s ∧ CodingRoom s room := by
  refine ⟨ranges_openUnit (by simp) (by simp) (by simp) (by omega) (by omega) h3, ⟨rfl, rfl⟩, ?_⟩
  simp only [CodingRoom, openUnit, Config.outSize]
  omega

/-- The output full, the coder at range 256 with o bits waiting. -/
def fullAt (low o : Nat) (words : List Word) : State :=
  { openUnit .active (List.replicate 7 true) 65536 0 [] words with cabac := ⟨.active, 256, low, o, false⟩ }

theorem mayCode_fullAt {low o : Nat} {words : List Word} (hw : words.length ≤ 1024) (h : low ≤ 768)
    (ho : o ≤ 2 ^ 32 - 1) : (fullAt low o words).Ranges ∧ MayCode (fullAt low o words) := by
  have r := ranges_openUnit (state := .active) (acc := List.replicate 7 true) (w := 65536) (o := 0) (fifo := [])
    (words := words) (by simp) hw (by simp) (by simp) (by simp) (by simp)
  refine ⟨{ r with coder := ?_, closed := r.closed, opened := r.opened }, rfl, rfl⟩
  simp only [fullAt, Config.outstMax]
  omega

/-- The coder comes to bits that do not fit. -/
def passesEnd (s : State) (coded : Except ErrCode Coder) : Bool :=
  match coded with
  | .ok c => !decide (s.wptr + (escape s.bw.zeros (wholeBytes (s.bw.acc ++ c.bits))).length ≤ Config.outSize)
  | .error _ => false

theorem of_passesEnd {s : State} {coded : Except ErrCode Coder} (h : passesEnd s coded = true) :
    ∃ c, coded = .ok c ∧ ¬BitsFit s c.bits := by
  cases coded with
  | error e => simp [passesEnd] at h
  | ok c => exact ⟨c, rfl, by simpa [passesEnd, BitsFit, BytesFit] using h⟩

/-- Room for exactly five bytes and the bits waiting; a decision that resolves twenty waiting bits into a full output; one
more bit waiting at OUTST_MAX. -/
theorem witness_CdecCodesDecision : ((459 : BitVec 10).toNat < 460 ∧ (459 : BitVec 10).toNat ≠ 276) ∧
    (let s := openUnit .active (List.replicate 7 true) (65536 - 5 - 65530) 65530 [] [];
      s.Ranges ∧ MayCode s ∧ CodingRoom s 5) ∧
    (let s := fullAt 0 20 [];
      (s.Ranges ∧ MayCode s) ∧ (s.ctx[459]).valMPS = false ∧
        ∃ c, renorm ⟨256 - 128, 0, 20, false, s.ctx.set 459 ⟨1, false⟩, []⟩ = .ok c ∧ ¬BitsFit s c.bits) ∧
    (let s := fullAt 300 (2 ^ 32 - 1) [];
      (s.Ranges ∧ MayCode s) ∧ (s.ctx[459]).valMPS = false ∧
        renorm ⟨256 - 128, 300, 2 ^ 32 - 1, false, s.ctx.set 459 ⟨1, false⟩, []⟩ = .error .outstOverflow) :=
  ⟨by decide, mayCode_openUnit 5 65530 (by decide) (by decide),
    ⟨mayCode_fullAt (by simp) (by simp) (by simp), by decide +kernel, of_passesEnd (by decide +kernel)⟩,
    ⟨mayCode_fullAt (by simp) (by simp) (by simp), by decide +kernel, by decide +kernel⟩⟩

/-- CBYP and CBYPN likewise, at low 0 and at low 300. -/
theorem witness_BypassBinsAreCoded :
    (let s := openUnit .active (List.replicate 7 true) (65536 - 5 - 0) 0 [] [];
      s.Ranges ∧ MayCode s ∧ CodingRoom s 5) ∧
    (let s := openUnit .active (List.replicate 7 true) (65536 - 98 - 3) 3 [] [];
      s.Ranges ∧ MayCode s ∧ CodingRoom s 98) ∧ ((32 : BitVec 6).toNat ≤ 32 ∧ (1 : BitVec 6).toNat ≤ 32) ∧
    (let s := fullAt 0 20 [];
      (s.Ranges ∧ MayCode s) ∧
        (∃ c, Except.ok (ε := ErrCode) (s.loadCoder.resolved false 256 (2 * 0)) = .ok c ∧ ¬BitsFit s c.bits) ∧
        ∃ c, codeBins s.loadCoder [.bypass false] = .ok c ∧ ¬BitsFit s c.bits) ∧
    (let s := fullAt 300 (2 ^ 32 - 1) [];
      (s.Ranges ∧ MayCode s) ∧ (¬2 * s.cabac.low < 512 ∧ ¬1024 ≤ 2 * s.cabac.low ∧ ¬s.cabac.outst < 2 ^ 32 - 1) ∧
        codeBins s.loadCoder [.bypass false] = .error .outstOverflow) :=
  ⟨mayCode_openUnit 5 0 (by decide) (by decide), mayCode_openUnit 98 3 (by decide) (by decide), by decide,
    ⟨mayCode_fullAt (by simp) (by simp) (by simp), of_passesEnd (by decide +kernel), of_passesEnd (by decide +kernel)⟩,
    ⟨mayCode_fullAt (by simp) (by simp) (by simp), by decide, by decide +kernel⟩⟩

theorem witness_CtermTerminates :
    (let s := openUnit .active (List.replicate 7 true) (65536 - 5 - 2) 2 [] [];
      s.Ranges ∧ MayCode s ∧ CodingRoom s 5) ∧
    (let s := fullAt 0 20 [];
      (s.Ranges ∧ MayCode s) ∧ (∃ c, renorm { s.loadCoder with range := 256 - 2 } = .ok c ∧ ¬BitsFit s c.bits) ∧
        ∃ c, ((renorm { s.loadCoder with range := 2, low := 0 + (256 - 2) }).map fun c =>
          { c.resolved (c.low.testBit 9) c.range c.low with
            bits := (c.resolved (c.low.testBit 9) c.range c.low).bits ++ [c.low.testBit 8, true] }) = .ok c ∧
          ¬BitsFit s c.bits) ∧
    (let s := fullAt 300 (2 ^ 32 - 1) [];
      (s.Ranges ∧ MayCode s) ∧ renorm { s.loadCoder with range := 256 - 2 } = .error .outstOverflow) ∧
    (let s := fullAt 10 (2 ^ 32 - 1) [];
      (s.Ranges ∧ MayCode s) ∧
        renorm { s.loadCoder with range := 2, low := 10 + (256 - 2) } = .error .outstOverflow) :=
  ⟨mayCode_openUnit 5 2 (by decide) (by decide),
    ⟨mayCode_fullAt (by simp) (by simp) (by simp), of_passesEnd (by decide +kernel), of_passesEnd (by decide +kernel)⟩,
    ⟨mayCode_fullAt (by simp) (by simp) (by simp), by decide +kernel⟩,
    ⟨mayCode_fullAt (by simp) (by simp) (by simp), by decide +kernel⟩⟩

/-- The coder as CINIT leaves it, and three kinds of bins. -/
theorem witness_CoderIntervalsNest :
    let c : Coder := ⟨510, 0, 0, true, State.reset.ctx, []⟩
    c.Fits ∧ c.FirstIsZero ∧ (∀ b ∈ [Bin.decision 0 true, .bypass true, .terminate false], b ≠ .terminate true) ∧
    ∃ d, codeBins c [.decision 0 true, .bypass true, .terminate false] = .ok d := by
  have hc : (⟨510, 0, 0, true, State.reset.ctx, []⟩ : Coder).Fits :=
    ⟨by simp, by simp, by simp, by simp [State.reset]⟩
  exact ⟨hc, by simp [Coder.FirstIsZero], by decide, codeBins_is_ok hc _ (by simp [Coder.size, Config.outstMax])⟩

theorem witness_EngineCommandsAreIsolated : ∀ i ∈ [Instr.cinit 3 51 false, .cdec 459 true, .cbyp true, .cbypn 32 5, .cterm true],
    isEngine i = true ∧ exec i (opened .active []) = .next (after i (opened .active [])) := by
  simp only [List.forall_mem_cons]
  exact ⟨⟨rfl, exec_after _ _⟩, ⟨rfl, exec_after _ _⟩, ⟨rfl, exec_after _ _⟩, ⟨rfl, exec_after _ _⟩, ⟨rfl, exec_after _ _⟩,
    by simp⟩

/-- CBYPN of no bins and PUTB of no bits among them; CRES of a readable block with the coder idle, and active with no unit
open. -/
theorem witness_BitCommandsCheckState :
    (((Instr.cbypn 0 0).wellFormed = true ∧ codesBins (.cbypn 0 0) = true ∧ State.reset.cabac.state ≠ .active) ∧
      ((Instr.cdec 459 true).wellFormed = true ∧ codesBins (.cdec 459 true) = true ∧
        { State.reset with cabac := ⟨.active, 510, 0, 0, true⟩ }.cabac.state = .active ∧ State.reset.bw.nalOpen = false) ∧
      ((Instr.putb 0 0).wellFormed = true ∧ isRaw (.putb 0 0) = true ∧ State.reset.bw.nalOpen = false) ∧
      ((Instr.putbytes 0 0).wellFormed = true ∧ isRaw (.putbytes 0 0) = true ∧ (opened .active []).bw.nalOpen = true ∧
        (opened .active []).cabac.state = .active)) ∧
    (let s := withWords [0, 0, BitVec.ofInt 32 (-32768), 0];
      ((3 : BitVec 3).toNat ≤ 5 ∧ ¬((3 : BitVec 3).toNat = 5 ∧ false = true)) ∧
      (ScannedAt s (0 : BitVec 10).toNat (3 : BitVec 3).toNat [0, 0, -32768, 0] ∧ s.cabac.state ≠ .active) ∧
      (ScannedAt { s with cabac := ⟨.active, 510, 0, 0, true⟩ } (0 : BitVec 10).toNat (3 : BitVec 3).toNat [0, 0, -32768, 0] ∧
        { s with cabac := ⟨.active, 510, 0, 0, true⟩ }.cabac.state = .active ∧ s.bw.nalOpen = false)) :=
  ⟨by decide, by decide, ⟨scanned_chroma, by decide⟩, ⟨scanned_chroma, by decide, by decide⟩⟩

/-! Residual blocks -/

/-- An all-zero block of category 3 and a block of one coefficient; that block into a full output, and at OUTST_MAX. -/
theorem witness_CresCodesBlock :
    ((3 : BitVec 3).toNat ≤ 5 ∧ ¬((3 : BitVec 3).toNat = 5 ∧ true = true)) ∧
    (let s := openUnit .active (List.replicate 7 true) (65536 - 9215 - 1) 1 [] [0, 0, BitVec.ofInt 32 (-32768), 0];
      s.Ranges ∧ ScannedAt s (0 : BitVec 10).toNat (3 : BitVec 3).toNat [0, 0, -32768, 0] ∧ MayCode s ∧ CodingRoom s 9215 ∧
        nonZeros [0, 0, -32768, 0] ≠ 0) ∧
    (let s := openUnit .active (List.replicate 7 true) 65536 1 [] [0, 0, 0, 0];
      s.Ranges ∧ ScannedAt s (0 : BitVec 10).toNat (3 : BitVec 3).toNat [0, 0, 0, 0] ∧ MayCode s ∧
        nonZeros [0, 0, 0, 0] = 0) ∧
    (let s := fullAt 0 20 [0, 0, BitVec.ofInt 32 (-32768), 0];
      (s.Ranges ∧ MayCode s) ∧ ScannedAt s (0 : BitVec 10).toNat (3 : BitVec 3).toNat [0, 0, -32768, 0] ∧
        ∃ c, codeBins s.loadCoder (residualBins 3 0 true [0, 0, -32768, 0]) = .ok c ∧ ¬BitsFit s c.bits) ∧
    (let s := fullAt 300 (2 ^ 32 - 1) [0, 0, BitVec.ofInt 32 (-32768), 0];
      (s.Ranges ∧ MayCode s) ∧ ScannedAt s (0 : BitVec 10).toNat (3 : BitVec 3).toNat [0, 0, -32768, 0] ∧
        codeBins s.loadCoder (residualBins 3 0 false [0, 0, -32768, 0]) = .error .outstOverflow) := by
  refine ⟨by decide, ⟨?_, scanned_chroma, ⟨rfl, rfl⟩, by simp [CodingRoom, openUnit], by decide⟩,
    ⟨?_, ⟨by decide, rfl, ?_⟩, ⟨rfl, rfl⟩, by decide⟩,
    ⟨mayCode_fullAt (by simp) (by simp) (by simp), scanned_chroma, of_passesEnd (by decide +kernel)⟩,
    ⟨mayCode_fullAt (by simp) (by simp) (by simp), scanned_chroma, by decide +kernel⟩⟩
  · exact ranges_openUnit (by simp) (by simp) (by simp) (by simp) (by simp) (by simp)
  · exact ranges_openUnit (by simp) (by simp) (by simp) (by simp) (by simp) (by simp)
  · have h : ∀ i < 4, (withWords [0, 0, 0, 0]).bram.read (0 + (scanList 3).getD i 0) = some 0 ∧
        (0 : Word).toInt = [0, 0, 0, (0 : Int)].getD i 0 ∧ -32768 ≤ (0 : Word).toInt ∧ (0 : Word).toInt ≤ 32767 := by
      decide +kernel
    exact fun i hi => ⟨0, h i hi⟩

/-- The last significant coefficient at the first place and at the last one of category 3, with its flag. -/
theorem witness_ResidualBinsFollowSyntax :
    (3 ≤ 5 ∧ 3 ≤ 3 ∧ ¬(3 = 5 ∧ true = true)) ∧
    (∀ cs ∈ [[-32768, 0, 0, 0], [0, 0, 0, 32767], [0, 0, 0, (0 : Int)]], cs.length = (scanList 3).length ∧
      ∀ c ∈ cs, -32768 ≤ c ∧ c ≤ 32767) ∧
    (0 < 4 ∧ [-32768, 0, 0, (0 : Int)].getD 0 0 ≠ 0 ∧ ∀ j, 0 < j → [-32768, 0, 0, (0 : Int)].getD j 0 = 0) ∧
    (3 < 4 ∧ [0, 0, 0, (32767 : Int)].getD 3 0 ≠ 0 ∧ ∀ j, 3 < j → [0, 0, 0, (32767 : Int)].getD j 0 = 0) ∧
    nonZeros [0, 0, 0, 0] = 0 ∧
    Bin.decision (85 + 4 * 3 + 3) false ∈ residualBins 3 3 true [0, 0, 0, 0] := by
  refine ⟨by decide, by decide, ⟨by decide, by decide, ?_⟩, ⟨by decide, by decide, ?_⟩, by decide, by decide +kernel⟩
  · rintro (_ | _ | _ | _ | j) hj <;> simp at hj ⊢
  · rintro (_ | _ | _ | _ | j) hj <;> simp at hj ⊢

/-! NAL units and raw bits -/

/-- A closed block: n descriptors, the output pointer at w. -/
def closedAt (n w : Nat) : State :=
  { State.reset with desc := List.replicate n ⟨0, 1, 0x65⟩, wptr := w }

theorem witness_NalbOpensUnit : (31 : BitVec 5) ≠ 0 ∧ (opened .idle []).bw.nalOpen = true ∧
    ((closedAt 64 64).bw.nalOpen = false ∧ (closedAt 64 64).desc.length = 64) ∧
    ((closedAt 63 65536).bw.nalOpen = false ∧ (closedAt 63 65536).desc.length ≠ 64 ∧ 65536 ≤ (closedAt 63 65536).wptr) ∧
    ((closedAt 63 65535).bw.nalOpen = false ∧ (closedAt 63 65535).desc.length ≠ 64 ∧ (closedAt 63 65535).wptr < 65536) := by
  decide +kernel

/-- A unit that ends in a zero byte with a byte of room and with none, and one that ends at the last byte. -/
theorem witness_NaleClosesUnit : State.reset.bw.nalOpen = false ∧
    ((opened .idle [true]).bw.nalOpen = true ∧ (opened .idle [true]).bw.acc ≠ []) ∧
    ((opened .active []).bw.nalOpen = true ∧ (opened .active []).bw.acc = [] ∧ (opened .active []).cabac.state = .active) ∧
    ((opened .idle []).bw.acc = [] ∧ (opened .terminated []).cabac.state ≠ .active) ∧
    (let s := { opened .idle [] with wptr := 65536, bw := ⟨true, [], 1, true, 0, 0, 0x65⟩ };
      s.bw.nalOpen = true ∧ s.bw.acc = [] ∧ s.cabac.state ≠ .active ∧ 65536 < s.wptr + if s.bw.lastZero then 1 else 0) ∧
    (let s := { opened .terminated [] with wptr := 65535, bw := ⟨true, [], 1, true, 0, 0, 0x65⟩ };
      s.bw.nalOpen = true ∧ s.bw.acc = [] ∧ s.cabac.state ≠ .active ∧ s.wptr + (if s.bw.lastZero then 1 else 0) ≤ 65536) ∧
    (let s := { opened .idle [] with wptr := 65536 };
      s.bw.nalOpen = true ∧ s.bw.acc = [] ∧ s.cabac.state ≠ .active ∧ s.wptr + (if s.bw.lastZero then 1 else 0) ≤ 65536) := by
  decide +kernel

/-- An active coder with pending bits. -/
theorem witness_NalxAbortsUnit : State.reset.bw.nalOpen = false ∧ (opened .active [true]).bw.nalOpen = true ∧
    (opened .active [true]).bw.nalStart.toNat ≤ (opened .active [true]).wptr := by decide

/-- With seven pending bits, 32 zero bits come to four zero bytes and one inserted 0x03 among them: the bits fit at 65531
and not at 65532; ALIGN and TRAIL come to one byte, at 65535 and at 65536. -/
theorem witness_RawBitCommandsWrite :
    (let s := fun w => openUnit .terminated (List.replicate 7 false) w 0 [] [];
      ((s 65531).bw.acc.length ≤ 7 ∧ MayWriteRaw (s 65531) ∧ MayWriteRaw (s 65536)) ∧
      (BitsFit (s 65531) (List.replicate 32 false) ∧ ¬BitsFit (s 65532) (List.replicate 32 false)) ∧
      (BitsFit (s 65535) [false] ∧ ¬BitsFit (s 65536) [false]) ∧ (BitsFit (s 65535) [true] ∧ ¬BitsFit (s 65536) [true])) ∧
    ((32 : BitVec 6).toNat ≤ 32 ∧ ((List.range 32).map fun i => (0 : Word).getLsbD (32 - 1 - i)) = List.replicate 32 false) ∧
    (2 ^ 31 ≤ (0xFFFFFFFE : Word).toNat + 1 ∧ (0xFFFFFFFE : Word).toNat + 1 < 2 ^ (31 + 1)) ∧
    (2 ^ 0 ≤ (0 : Word).toNat + 1 ∧ (0 : Word).toNat + 1 < 2 ^ (0 + 1)) ∧
    (((4294967293 : Nat) : Int) = (if 0 < (0x7FFFFFFF : Word).toInt then 2 * (0x7FFFFFFF : Word).toInt - 1
      else -2 * (0x7FFFFFFF : Word).toInt) ∧ 2 ^ 31 ≤ 4294967293 + 1 ∧ 4294967293 + 1 < 2 ^ (31 + 1)) ∧
    (((4294967294 : Nat) : Int) = (if 0 < (0x80000001 : Word).toInt then 2 * (0x80000001 : Word).toInt - 1
      else -2 * (0x80000001 : Word).toInt) ∧ 2 ^ 31 ≤ 4294967294 + 1 ∧ 4294967294 + 1 < 2 ^ (31 + 1)) := by
  unfold MayWriteRaw BitsFit BytesFit
  refine ⟨?_, ?_, ?_, ?_, ?_, ?_⟩ <;> decide +kernel

/-- A source that passes word 1023 by one, one that ends there, an unwritten word, no bytes at all, and the bytes 0, 0, 1
with an inserted 0x03 among them, just fitting and one too many. -/
theorem witness_PutbytesWritesPayload :
    ((1024 : BitVec 11).toNat ≤ 1024 ∧ 0 < (1024 : BitVec 11).toNat ∧ 1024 < (1 : BitVec 10).toNat + (1024 : BitVec 11).toNat) ∧
    (let s := openUnit .idle [true] 65532 0 [] []; MayWriteRaw s ∧ s.bw.acc ≠ []) ∧
    (let s := fun w => openUnit .terminated [] w 0 [] [0x100, 0, 0x101];
      let ws : List Word := [0x100, 0, 0x101];
      (MayWriteRaw (s 65532) ∧ MayWriteRaw (s 65533) ∧ (s 65532).bw.acc = []) ∧
      ((0 : BitVec 10).toNat + (3 : BitVec 11).toNat ≤ 1024 ∧ ws.length = (3 : BitVec 11).toNat) ∧
      (∀ j < (3 : BitVec 11).toNat, (s 65532).bram.read ((0 : BitVec 10).toNat + j) = some (ws.getD j 0)) ∧
      BytesFit (s 65532) (ws.map fun w => w.extractLsb' 0 8) ∧ ¬BytesFit (s 65533) (ws.map fun w => w.extractLsb' 0 8) ∧
      ((1022 : BitVec 10).toNat + (2 : BitVec 11).toNat ≤ 1024 ∧
        ∃ j < (2 : BitVec 11).toNat, (s 65532).bram.read ((1022 : BitVec 10).toNat + j) = none) ∧
      ((0 : BitVec 11).toNat = 0 ∧ BytesFit (s 65536) [] ∧ ([] : List Word).length = (0 : BitVec 11).toNat)) := by
  unfold MayWriteRaw BytesFit
  refine ⟨?_, ?_, ?_⟩ <;> decide +kernel

theorem witness_EmulationPreventionIsReversible :
    (⟨true, [], 2, true, 0, 0, 0x65⟩ : BitWriter).zeros ≤ 2 ∧
    (emitBytes ⟨true, [], 2, true, 0, 0, 0x65⟩ [3, 0]).2.length = 3 ∧ 0 + 2 < 3 := by decide

end Sys2Proof.Tests
end

/-! SUPPORT. What a command that completes can do to the state, said once for all commands: one constructor of
`Completes` for each way a command writes the state. -/

namespace Sys2Proof.Machine

/-! ### Block lengths -/

theorem length_quantizeBlock (factor : Nat → Nat) (s f : Nat) (ys : List Int) :
    (quantizeBlock factor s f ys).length = ys.length := by
  simp [quantizeBlock]

theorem length_levels4 (s : State) (intra : Bool) (plane : Nat) (ac : Bool) (xs : List Int) :
    (levels4 s intra plane ac xs).length = 16 := by
  unfold levels4
  cases ac <;> simp [length_quantizeBlock, forward4, length_rowsThenColumns]

theorem length_levels8 (s : State) (intra : Bool) (xs : List Int) : (levels8 s intra xs).length = 64 := by
  simp [levels8, length_quantizeBlock, forward8, length_rowsThenColumns]

theorem length_levelsLumaDc (s : State) (xs : List Int) : (levelsLumaDc s xs).length = 16 := by
  simp [levelsLumaDc, length_quantizeBlock, forwardLumaDc, length_rowsThenColumns]

theorem length_levelsChromaDc (s : State) (intra : Bool) (plane : Nat) (xs : List Int) :
    (levelsChromaDc s intra plane xs).length = 4 := by
  simp [levelsChromaDc, length_quantizeBlock, forwardChromaDc, length_rowsThenColumns]

theorem length_residual4 (s : State) (intra : Bool) (plane : Nat) (ac : Bool) (cs : List Word) :
    (residual4 s intra plane ac cs).length = 16 := by
  simp [residual4, inverse4, length_rowsThenColumns]

theorem length_residual8 (s : State) (intra : Bool) (cs : List Word) : (residual8 s intra cs).length = 64 := by
  simp [residual8, inverse8, length_rowsThenColumns]

theorem length_residualLumaDc (s : State) (cs : List Word) : (residualLumaDc s cs).length = 16 := by
  simp [residualLumaDc, length_rowsThenColumns]

theorem length_residualChromaDc (s : State) (intra : Bool) (plane : Nat) (cs : List Word) :
    (residualChromaDc s intra plane cs).length = 4 := by
  simp [residualChromaDc, length_rowsThenColumns]

/-! ### The templates of the block commands -/

/-- A forward command that completes stores a block of levels inside the buffer RAM (R150). -/
theorem forwardBlock_ok {i : Instr} {o : TOps} {len : Nat} {bound : Int} {levels : List Int → List (Int × Bool)}
    {s u : State} (hlen : ∀ xs, (levels xs).length = len) (h : forwardBlock i o len bound levels s = .ok u) :
    ∃ ls : List (Int × Bool), o.dst.toNat + ls.length ≤ Config.bramWords ∧
      u = storeLevels s o.dst.toNat o.ac ls := by
  simp only [forwardBlock, bind_ok_iff, Unique.exists_iff, PUnit.default_eq_unit, readBlock_ok_iff,
    Except.ok.injEq] at h
  obtain ⟨-, ws, ⟨-, hdst, hread⟩, -, rfl⟩ := h
  refine ⟨_, ?_, rfl⟩
  split <;> simpa [hlen, length_of_readWords hread] using hdst

/-- An inverse command that completes stores a block of words inside the buffer RAM (R200). -/
theorem inverseBlock_ok {i : Instr} {o : TOps} {len : Nat} {residuals : List Word → List Word} {s u : State}
    (hlen : ∀ cs, (residuals cs).length = len) (h : inverseBlock i o len residuals s = .ok u) :
    ∃ ws : List Word, o.dst.toNat + ws.length ≤ Config.bramWords ∧ u = s.writeBlock o.dst.toNat ws := by
  simp only [inverseBlock, bind_ok_iff, Unique.exists_iff, PUnit.default_eq_unit, readBlock_ok_iff,
    Except.ok.injEq] at h
  obtain ⟨-, ws, ⟨-, hdst, hread⟩, -, rfl⟩ := h
  refine ⟨_, ?_, rfl⟩
  split <;> simpa [hlen, length_of_readWords hread] using hdst

/-! ### The contexts that bins name (R300 to R304) -/

/-- The bin does not use the context j. -/
def Bin.Avoids (j : Nat) : Bin → Prop
  | .decision i _ => i ≠ j
  | .bypass _ => True
  | .terminate _ => True

@[simp] theorem avoids_decision (j i : Nat) (b : Bool) : (Bin.decision i b).Avoids j ↔ i ≠ j := Iff.rfl
@[simp] theorem avoids_bypass (j : Nat) (b : Bool) : (Bin.bypass b).Avoids j := trivial
@[simp] theorem avoids_terminate (j : Nat) (b : Bool) : (Bin.terminate b).Avoids j := trivial

theorem bypassBins_avoid (j : Nat) (bits : List Bool) : ∀ b ∈ bits.map Bin.bypass, b.Avoids j := by
  intro b hb
  obtain ⟨v, -, rfl⟩ := List.mem_map.1 hb
  trivial

theorem mapCatOffset_le (cat : Nat) : mapCatOffset cat ≤ 47 := by
  match cat with
  | 0 | 1 | 2 | 3 | 4 | 5 => decide
  | n + 6 => simp [mapCatOffset]

theorem cbfCatOffset_le (cat : Nat) : cbfCatOffset cat ≤ 16 := by
  match cat with
  | 0 | 1 | 2 | 3 | 4 => decide
  | n + 5 => simp [cbfCatOffset]

theorem absCatOffset_le (cat : Nat) : absCatOffset cat ≤ 39 := by
  match cat with
  | 0 | 1 | 2 | 3 | 4 | 5 => decide
  | n + 6 => simp [absCatOffset]

theorem sigCtx_ne {cat i : Nat} (h : cat = 5 ∨ i < 16) : sigCtx cat i ≠ 276 := by
  have := mapCatOffset_le cat
  unfold sigCtx
  split_ifs <;> omega

theorem lastCtx_ne {cat i : Nat} (h : cat = 5 ∨ i < 16) : lastCtx cat i ≠ 276 := by
  have := mapCatOffset_le cat
  unfold lastCtx
  split_ifs <;> omega

theorem absBase_add_ne (cat : Nat) {inc : Nat} (h : inc ≤ 9) : absBase cat + inc ≠ 276 := by
  have := absCatOffset_le cat
  unfold absBase
  split_ifs <;> omega

theorem mapBins_avoid {cat i : Nat} {cs : List Int} (h : cat = 5 ∨ i + cs.length ≤ 16) :
    ∀ b ∈ mapBins cat i cs, b.Avoids 276 := by
  induction cs generalizing i with
  | nil => simp [mapBins]
  | cons c cs ih =>
    cases cs with
    | nil => simp [mapBins]
    | cons d rest =>
      simp only [List.length_cons] at h ih
      have hi : cat = 5 ∨ i < 16 := by omega
      have hrest := ih (i := i + 1) (by omega)
      unfold mapBins
      split_ifs
      · simpa [sigCtx_ne hi] using hrest
      · simp [sigCtx_ne hi, lastCtx_ne hi]
      · simpa [sigCtx_ne hi, lastCtx_ne hi] using hrest

theorem suffixLoop_avoid (fuel s k : Nat) : ∀ b ∈ suffixLoop fuel s k, b.Avoids 276 := by
  induction fuel generalizing s k with
  | zero => simp [suffixLoop]
  | succ fuel ih =>
    unfold suffixLoop
    split_ifs
    · simpa using ih _ _
    · simpa using bypassBins_avoid 276 (bitsMsb k s)

theorem prefixBins_avoid (cat a : Nat) {inc0 incN : Nat} (h0 : inc0 ≤ 9) (hN : incN ≤ 9) :
    ∀ b ∈ prefixBins (absBase cat) inc0 incN a, b.Avoids 276 := by
  intro b hb
  simp only [prefixBins, List.mem_append, List.mem_map] at hb
  rcases hb with ⟨k, -, rfl⟩ | hb
  · exact absBase_add_ne cat (by split <;> assumption)
  · split at hb
    · simp only [List.mem_singleton] at hb
      subst hb
      exact absBase_add_ne cat (by split <;> assumption)
    · simp at hb

theorem levelBins_avoid (cat eq1 gt1 : Nat) (c : Int) : ∀ b ∈ levelBins cat eq1 gt1 c, b.Avoids 276 := by
  intro b hb
  simp only [levelBins, List.mem_append, List.mem_singleton] at hb
  rcases hb with (hb | hb) | rfl
  · exact prefixBins_avoid cat _ (by split <;> omega) (by omega) b hb
  · split at hb
    · exact suffixLoop_avoid _ _ _ b hb
    · simp at hb
  · trivial

theorem levelsBins_avoid (cat eq1 gt1 : Nat) (cs : List Int) : ∀ b ∈ levelsBins cat eq1 gt1 cs, b.Avoids 276 := by
  induction cs generalizing eq1 gt1 with
  | nil => simp [levelsBins]
  | cons c cs ih =>
    intro b hb
    rw [levelsBins, List.mem_append] at hb
    rcases hb with hb | hb
    · exact levelBins_avoid _ _ _ _ b hb
    · split at hb <;> exact ih _ _ b hb

/-- No bin of a residual block uses context 276, which is the one of the terminate bin (R263, R303, R304). -/
theorem residualBins_avoid {cat cbfinc : Nat} {codeCbf : Bool} {cs : List Int} (hinc : cbfinc ≤ 3)
    (h : cat = 5 ∨ cs.length ≤ 16) : ∀ b ∈ residualBins cat cbfinc codeCbf cs, b.Avoids 276 := by
  intro b hb
  simp only [residualBins, List.mem_append] at hb
  rcases hb with hb | hb
  · split at hb
    · have := cbfCatOffset_le cat
      simp only [List.mem_singleton] at hb
      subst hb
      simp only [avoids_decision, cbfCtx]
      omega
    · simp at hb
  · split at hb
    · simp at hb
    · rcases List.mem_append.1 hb with hb | hb
      · exact mapBins_avoid (by omega) b hb
      · exact levelsBins_avoid _ _ _ _ b hb

theorem length_scanList_le (cat : Nat) : cat = 5 ∨ (scanList cat).length ≤ 16 := by
  match cat with
  | 0 | 1 | 2 | 3 | 4 | 5 => decide
  | n + 6 => simp [scanList]

/-- A scanned block has one coefficient for each word of its scan (R241). -/
theorem length_of_scanBlock {m : Bram} {src cat : Nat} {cs : List Int} (h : scanBlock m src cat = .ok cs) :
    cs.length = (scanList cat).length := by
  simp only [scanBlock, bind_ok_iff, Unique.exists_iff, PUnit.default_eq_unit, Except.ok.injEq] at h
  obtain ⟨-, ws, hread, -, rfl⟩ := h
  simp [length_of_readWords hread]

/-! ### Every way to complete -/

/-- DQ4, DQ8, DQLDC, DQCDC. -/
def isInverse : Instr → Bool
  | .dq4 _ | .dq8 _ | .dqldc _ | .dqcdc _ => true
  | _ => false

/-- t comes of s by coding bins, none of them of context 276 (the terminate bin's, R263), where the coder may code
(R271). -/
def Codes (s t : State) : Prop :=
  MayCode s ∧ ∃ bins, (∀ b ∈ bins, b.Avoids 276) ∧ codeAndWrite bins s = .ok t

/-- What a command that completes makes of s, before its retirement. -/
inductive Completes (s : State) : Instr → State → Prop where
  | nop : Completes s .nop s
  | setqp {qpy : BitVec 6} {cboff croff : BitVec 5} (admitted : qpAdmitted qpy.toNat cboff.toInt croff.toInt = true) :
      Completes s (.setqp qpy cboff croff) (s.setQp qpy.toNat cboff.toInt croff.toInt)
  | forward {i : Instr} {dst : Nat} {ac : Bool} {ls : List (Int × Bool)} (family : isForward i = true)
      (inside : dst + ls.length ≤ Config.bramWords) : Completes s i (storeLevels s dst ac ls)
  | inverse {i : Instr} {dst : Nat} {ws : List Word} (family : isInverse i = true)
      (inside : dst + ws.length ≤ Config.bramWords) : Completes s i (s.writeBlock dst ws)
  | rlscan {src dst : BitVec 10} {cat : BitVec 3} {a n : Nat} {ws : List Word}
      (inside : a + ws.length ≤ Config.bramWords) :
      Completes s (.rlscan src dst cat) ((s.writeBlock a ws).setResult n)
  | cinit {model : BitVec 2} {sliceqp : BitVec 6} {eng : Bool} :
      Completes s (.cinit model sliceqp eng) { s.startCoder with
        ctx := if eng then s.ctx else initialContexts (Config.cabacInitMN model) sliceqp.toNat }
  | code {i : Instr} {t : State} (family : codesBins i = true) (codes : Codes s t) : Completes s i t
  | terminate {t : State} (codes : Codes s t) : Completes s (.cterm true) (t.setCabacState .terminated)
  | cres {src : BitVec 10} {cat : BitVec 3} {cbfinc : BitVec 2} {codeCbf : Bool} {t : State} {n : Nat}
      (codes : Codes s t) : Completes s (.cres src cat cbfinc codeCbf) (t.setResult n)
  | nalb {refIdc : BitVec 2} {nalType : BitVec 5} {t : State} (closed : s.bw.nalOpen = false)
      (free : s.nalCount ≠ Config.descDepth) (header : outBytes s [nalHeader refIdc nalType] = .ok t) :
      Completes s (.nalb refIdc nalType)
        { t with bw := ⟨true, [], 0, false, BitVec.ofNat 32 s.wptr, 0, nalHeader refIdc nalType⟩ }
  | nale {t : State} {last : List Byte} (isOpen : s.bw.nalOpen = true) (aligned : s.bw.acc = [])
      (ends : outBytes s last = .ok t) : Completes s .nale t.closeNal
  | nalx (isOpen : s.bw.nalOpen = true) : Completes s .nalx s.abortNal
  | bits {i : Instr} {t : State} {bits : List Bool} (family : isRaw i = true) (may : MayWriteRaw s)
      (written : writeBits s bits = .ok t) : Completes s i t
  | bytes {src : BitVec 10} {count : BitVec 11} {t : State} {bs : List Byte} (may : MayWriteRaw s)
      (aligned : s.bw.acc = [])
      (written : outBytes { s with bw := (emitBytes s.bw bs).1 } (emitBytes s.bw bs).2 = .ok t) :
      Completes s (.putbytes src count) t

theorem completes_cinit {model : BitVec 2} {sliceqp : BitVec 6} {eng : Bool} {s u : State}
    (h : cinitEffect model sliceqp eng s = .ok u) : Completes s (.cinit model sliceqp eng) u := by
  simp only [cinitEffect, check_bind_ok_iff, Except.ok.injEq] at h
  obtain ⟨-, rfl⟩ := h
  exact .cinit

theorem completes_rlscan {src dst : BitVec 10} {cat : BitVec 3} {s u : State} {a b c : Nat}
    (h : rlscanEffect a b c s = .ok u) : Completes s (.rlscan src dst cat) u := by
  simp only [rlscanEffect, bind_ok_iff, Unique.exists_iff, PUnit.default_eq_unit, checkRange_ok_iff,
    Except.ok.injEq] at h
  obtain ⟨cs, -, hdst, rfl⟩ := h
  exact .rlscan (by simpa [Nat.add_comm] using hdst)

theorem completes_cres {src : BitVec 10} {cat : BitVec 3} {cbfinc : BitVec 2} {codeCbf : Bool} {s u : State}
    (h : cresEffect src.toNat cat.toNat cbfinc.toNat codeCbf s = .ok u) :
    Completes s (.cres src cat cbfinc codeCbf) u := by
  simp only [cresEffect, bind_ok_iff, Unique.exists_iff, PUnit.default_eq_unit, checkCoding_ok_iff,
    Except.ok.injEq] at h
  obtain ⟨cs, hscan, hmay, -, t, hcode, rfl⟩ := h
  have hlen := length_of_scanBlock hscan
  have hcat := length_scanList_le cat.toNat
  exact .cres ⟨hmay, _, residualBins_avoid (by omega) (by omega), hcode⟩

theorem completes_nalb {refIdc : BitVec 2} {nalType : BitVec 5} {s u : State}
    (h : nalbEffect refIdc nalType s = .ok u) : Completes s (.nalb refIdc nalType) u := by
  simp only [nalbEffect, bind_ok_iff, Unique.exists_iff, PUnit.default_eq_unit, require_ok_iff, Except.ok.injEq] at h
  obtain ⟨hclosed, hfree, t, hout, rfl⟩ := h
  exact .nalb (by simpa using hclosed) (by simpa using hfree) hout

theorem completes_nale {s u : State} (h : naleEffect s = .ok u) : Completes s .nale u := by
  simp only [naleEffect, bind_ok_iff, Unique.exists_iff, PUnit.default_eq_unit, require_ok_iff, Except.ok.injEq] at h
  obtain ⟨hopen, hacc, -, t, hout, rfl⟩ := h
  exact .nale hopen (by simpa using hacc) hout

theorem completes_nalx {s u : State} (h : nalxEffect s = .ok u) : Completes s .nalx u := by
  simp only [nalxEffect, check_bind_ok_iff, require_ok_iff, Except.ok.injEq] at h
  obtain ⟨hopen, rfl⟩ := h
  exact .nalx hopen

theorem completes_putbytes {src : BitVec 10} {count : BitVec 11} {s u : State} {a n : Nat}
    (h : putbytesEffect a n s = .ok u) : Completes s (.putbytes src count) u := by
  simp only [putbytesEffect, bind_ok_iff, Unique.exists_iff, PUnit.default_eq_unit, checkRawBits_ok_iff,
    require_ok_iff] at h
  obtain ⟨hmay, hacc, -, ws, -, hout⟩ := h
  exact .bytes hmay (by simpa using hacc) hout

/-- Every effect of a command is one of `Completes`. -/
theorem completes_of_effectOf {i : Instr} {s u : State} (h : effectOf i s = .ok u) : Completes s i u := by
  cases i with
  | nop =>
    simp only [effectOf, Except.ok.injEq] at h
    exact h ▸ .nop
  | setqp qpy cboff croff =>
    simp only [effectOf, checkFields, check_bind_ok_iff, require_ok_iff, Except.ok.injEq] at h
    obtain ⟨hadm, rfl⟩ := h
    exact .setqp hadm
  | tq4 o => obtain ⟨ls, hls, rfl⟩ := forwardBlock_ok (length_levels4 s _ _ _) h; exact .forward rfl hls
  | tq8 o => obtain ⟨ls, hls, rfl⟩ := forwardBlock_ok (length_levels8 s _) h; exact .forward rfl hls
  | tqldc o => obtain ⟨ls, hls, rfl⟩ := forwardBlock_ok (length_levelsLumaDc s) h; exact .forward rfl hls
  | tqcdc o => obtain ⟨ls, hls, rfl⟩ := forwardBlock_ok (length_levelsChromaDc s _ _) h; exact .forward rfl hls
  | dq4 o => obtain ⟨ws, hws, rfl⟩ := inverseBlock_ok (length_residual4 s _ _ _) h; exact .inverse rfl hws
  | dq8 o => obtain ⟨ws, hws, rfl⟩ := inverseBlock_ok (length_residual8 s _) h; exact .inverse rfl hws
  | dqldc o => obtain ⟨ws, hws, rfl⟩ := inverseBlock_ok (length_residualLumaDc s) h; exact .inverse rfl hws
  | dqcdc o => obtain ⟨ws, hws, rfl⟩ := inverseBlock_ok (length_residualChromaDc s _ _) h; exact .inverse rfl hws
  | rlscan src dst cat => exact completes_rlscan ((check_bind_ok_iff _ _ _).1 h).2
  | cinit model sliceqp eng => exact completes_cinit ((check_bind_ok_iff _ _ _).1 h).2
  | cdec ctx bin =>
    simp only [effectOf, checkFields, check_bind_ok_iff, require_ok_iff, checkCoding_ok_iff] at h
    obtain ⟨hctx, hmay, hcode⟩ := h
    exact .code rfl ⟨hmay, _, by simpa using (Bool.and_eq_true_iff.1 hctx).2, hcode⟩
  | cbyp bin =>
    simp only [effectOf, check_bind_ok_iff, checkCoding_ok_iff] at h
    exact .code rfl ⟨h.1, _, by simp, h.2⟩
  | cbypn n value =>
    simp only [effectOf, check_bind_ok_iff, checkCoding_ok_iff] at h
    exact .code rfl ⟨h.2.1, _, bypassBins_avoid 276 _, h.2.2⟩
  | cterm bin =>
    simp only [effectOf, bind_ok_iff, Unique.exists_iff, PUnit.default_eq_unit, checkCoding_ok_iff,
      Except.ok.injEq] at h
    obtain ⟨hmay, t, hcode, rfl⟩ := h
    have hcodes : Codes s t := ⟨hmay, _, by simp, hcode⟩
    cases bin with
    | false => exact .code rfl hcodes
    | true => exact .terminate hcodes
  | cres src cat cbfinc codeCbf => exact completes_cres ((check_bind_ok_iff _ _ _).1 h).2
  | nalb refIdc nalType => exact completes_nalb ((check_bind_ok_iff _ _ _).1 h).2
  | nale => exact completes_nale h
  | nalx => exact completes_nalx h
  | putb n value =>
    simp only [effectOf, check_bind_ok_iff, checkRawBits_ok_iff] at h
    exact .bits rfl h.2.1 h.2.2
  | putue value =>
    simp only [effectOf, check_bind_ok_iff, checkRawBits_ok_iff] at h
    exact .bits rfl h.1 h.2.2
  | putse value =>
    simp only [effectOf, check_bind_ok_iff, checkRawBits_ok_iff] at h
    exact .bits rfl h.1 h.2.2
  | align =>
    simp only [effectOf, check_bind_ok_iff, checkRawBits_ok_iff] at h
    exact .bits rfl h.1 h.2
  | trail =>
    simp only [effectOf, check_bind_ok_iff, checkRawBits_ok_iff] at h
    exact .bits rfl h.1 h.2
  | putbytes src count => exact completes_putbytes ((check_bind_ok_iff _ _ _).1 h).2

/-- A command completes and retires, or records one error (R372). -/
theorem exec_cases {i : Instr} {s t : State} (h : exec i s = .next t) :
    (∃ u, Completes s i u ∧ u.retire = t) ∨ ∃ e lo hi, s.recordError e lo hi = t := by
  rcases (exec_next_iff i s t).1 h with ⟨u, hu, rfl⟩ | ⟨e, -, rfl⟩
  · exact .inl ⟨u, completes_of_effectOf hu, rfl⟩
  · exact .inr ⟨e, _, _, rfl⟩

/-- Coding stores a coder and writes bits. -/
theorem Codes.exists_writeBits {s t : State} (h : Codes s t) :
    ∃ c bits, writeBits (s.storeCoder c) bits = .ok t := by
  obtain ⟨-, bins, -, hcode⟩ := h
  obtain ⟨c, -, hw⟩ := (codeAndWrite_ok_iff _ _ _).1 hcode
  exact ⟨c, _, hw⟩

end Sys2Proof.Machine

/-! SUPPORT. Who writes what: the statements on the writers of the host-side fields, RESULT, SAT, QP, the buffer RAM and
the coder state. -/

namespace Sys2Proof.Machine

/-! ### The host side, RESULT, SAT, QP and the buffer RAM -/

/-- t differs from s in the stream side (coder, bit writer, output) and the pending interrupts at most. -/
def StreamSideOnly (s t : State) : Prop :=
  t = { s with cabac := t.cabac, ctx := t.ctx, bw := t.bw, out := t.out, wptr := t.wptr, desc := t.desc,
               irqPend := t.irqPend }

theorem streamSideOnly_of_outBytes {s t : State} {w : BitWriter} {bytes : List Byte}
    (h : outBytes { s with bw := w } bytes = .ok t) : StreamSideOnly s t := by
  obtain ⟨-, rfl⟩ := (outBytes_ok_iff _ _ _).1 h
  rfl

theorem Codes.streamSideOnly {s t : State} (h : Codes s t) : StreamSideOnly s t := by
  obtain ⟨c, bits, hw⟩ := h.exists_writeBits
  obtain ⟨-, rfl⟩ := (writeBits_ok_iff _ _ _).1 hw
  rfl

/-- What t keeps of s under a command that writes RESULT, SAT, QP and the buffer RAM only where they are its own. -/
structure OwnWritesOnly (i : Instr) (s t : State) : Prop where
  host : HostSideKept s t
  result : countsResult i = false → t.result = s.result
  sat : isForward i = false → t.sat = s.sat
  satStays : s.sat = true → t.sat = true
  qp : (∀ q b r, i ≠ .setqp q b r) → QpKept s t
  bram : writesBram i = false → t.bram = s.bram

theorem StreamSideOnly.ownWritesOnly {s t : State} (h : StreamSideOnly s t) {i : Instr} : OwnWritesOnly i s t := by
  rw [h]
  exact ⟨by constructor <;> rfl, fun _ => rfl, fun _ => rfl, id, fun _ => ⟨rfl, rfl, rfl⟩, fun _ => rfl⟩

theorem countsResult_of_isForward {i : Instr} (h : isForward i = true) : countsResult i = true := by
  cases i <;> simp_all [isForward, countsResult]

theorem writesBram_of_isForward {i : Instr} (h : isForward i = true) : writesBram i = true := by
  cases i <;> simp_all [isForward, writesBram]

theorem writesBram_of_isInverse {i : Instr} (h : isInverse i = true) : writesBram i = true := by
  cases i <;> simp_all [isInverse, writesBram]

/-- A command that completes writes no field but its own. -/
theorem Completes.ownWritesOnly {i : Instr} {s u : State} (h : Completes s i u) : OwnWritesOnly i s u := by
  cases h with
  | nop => exact StreamSideOnly.ownWritesOnly (by rfl)
  | setqp _ =>
    exact ⟨by constructor <;> rfl, fun _ => rfl, fun _ => rfl, id, fun h => absurd rfl (h _ _ _), fun _ => rfl⟩
  | forward family _ =>
    refine ⟨by constructor <;> rfl, ?_, ?_, fun h => by simp [h], fun _ => ⟨rfl, rfl, rfl⟩, ?_⟩
    · simp [countsResult_of_isForward family]
    · simp [family]
    · simp [writesBram_of_isForward family]
  | inverse family _ =>
    refine ⟨by constructor <;> rfl, fun _ => rfl, fun _ => rfl, id, fun _ => ⟨rfl, rfl, rfl⟩, ?_⟩
    simp [writesBram_of_isInverse family]
  | rlscan _ =>
    exact ⟨by constructor <;> rfl, nofun, fun _ => rfl, id, fun _ => ⟨rfl, rfl, rfl⟩, nofun⟩
  | cinit => exact StreamSideOnly.ownWritesOnly (by rfl)
  | code _ codes => exact codes.streamSideOnly.ownWritesOnly
  | terminate codes =>
    have hk := codes.streamSideOnly
    exact StreamSideOnly.ownWritesOnly (by rw [hk]; rfl)
  | cres codes =>
    obtain ⟨host, -, sat, satStays, qp, bram⟩ := codes.streamSideOnly.ownWritesOnly (i := .nop)
    exact ⟨{ host with }, nofun, sat, satStays, fun _ => qp nofun, fun _ => bram rfl⟩
  | nalb _ _ header =>
    exact StreamSideOnly.ownWritesOnly (by obtain ⟨-, rfl⟩ := (outBytes_ok_iff _ _ _).1 header; rfl)
  | nale _ _ ends =>
    exact StreamSideOnly.ownWritesOnly (by obtain ⟨-, rfl⟩ := (outBytes_ok_iff _ _ _).1 ends; rfl)
  | nalx _ => exact StreamSideOnly.ownWritesOnly (by rfl)
  | bits _ _ written => exact (streamSideOnly_of_outBytes written).ownWritesOnly
  | bytes _ _ written => exact (streamSideOnly_of_outBytes written).ownWritesOnly

/-- Settles O29: a completed command by `Completes`, a refused one because an error record keeps every such field. -/
theorem onlyTheirCommandsWrite : Obligations.OnlyTheirCommandsWrite := by
  unfold Obligations.OnlyTheirCommandsWrite
  intro i s t h
  rcases exec_cases h with ⟨u, hu, rfl⟩ | ⟨e, lo, hi, rfl⟩
  · obtain ⟨host, result, sat, satStays, qp, bram⟩ := hu.ownWritesOnly
    simp only [retire_enable, retire_lossless, retire_cmdHiStage, retire_irqEn, retire_scal, retire_fifo, retire_agenda,
      retire_readData, retire_draws, retire_result, retire_sat, retire_bram]
    exact ⟨host.enable, host.lossless, host.cmdHiStage, host.irqEn, host.scal, host.fifo, host.agenda, host.readData,
      host.draws, result, sat, satStays, by simpa [QpKept] using qp, bram⟩
  · simp [QpKept]

/-! ### The coder state -/

/-- The coder registers, its state and the contexts are kept. -/
def CoderWholeKept (s t : State) : Prop :=
  t.cabac = s.cabac ∧ t.ctx = s.ctx

theorem coderWholeKept_of_outBytes {s t : State} {w : BitWriter} {bytes : List Byte}
    (h : outBytes { s with bw := w } bytes = .ok t) : CoderWholeKept s t := by
  obtain ⟨-, rfl⟩ := (outBytes_ok_iff _ _ _).1 h
  exact ⟨rfl, rfl⟩

theorem renormLoop_ctx {n : Nat} {c d : Coder} (h : renormLoop n c = .ok d) : d.ctx = c.ctx := by
  induction n generalizing c with
  | zero => simp only [renormLoop, Except.ok.injEq] at h; rw [h]
  | succ n ih =>
    unfold renormLoop at h
    split at h
    · obtain ⟨e, hstep, hloop⟩ := (bind_ok_iff _ _ _).1 h
      rw [ih hloop, (renormStep_ok hstep).2.1]
    · simp only [Except.ok.injEq] at h; rw [h]

/-- A decision adapts its own context only (R266). -/
theorem encodeDecision_ctx {c d : Coder} {i : Nat} {b : Bool} (h : encodeDecision c i b = .ok d) :
    ∃ x, d.ctx = c.ctx.setIfInBounds i x := by
  unfold encodeDecision at h
  dsimp only at h
  split at h <;> exact ⟨_, renormLoop_ctx h⟩

theorem encodeBypass_ctx {c d : Coder} {b : Bool} (h : encodeBypass c b = .ok d) : d.ctx = c.ctx := by
  unfold encodeBypass at h
  dsimp only at h
  generalize (if b = true then c.range else 0) = x at h
  split_ifs at h
  · cases h; rfl
  · cases h; rfl
  · obtain ⟨-, rfl⟩ := (addOutstanding_ok_iff _ _).1 h; rfl

theorem encodeTerminate_ctx {c d : Coder} {b : Bool} (h : encodeTerminate c b = .ok d) : d.ctx = c.ctx := by
  unfold encodeTerminate at h
  cases b with
  | false =>
    have hloop : renorm { c with range := c.range - 2 } = .ok d := h
    rw [renormLoop_ctx hloop]
  | true =>
    simp only [if_true, encodeFlush, bind_ok_iff, Except.ok.injEq] at h
    obtain ⟨e, hloop, rfl⟩ := h
    simp only [putBit, renormLoop_ctx hloop]

/-- A bin keeps every context it does not use (R266). -/
theorem codeBin_ctx {c d : Coder} {b : Bin} {j : Nat} (hj : j < Config.nCtx) (hb : b.Avoids j)
    (h : codeBin c b = .ok d) : d.ctx[j] = c.ctx[j] := by
  cases b with
  | decision i b =>
    obtain ⟨x, hx⟩ := encodeDecision_ctx h
    simp only [hx, Vector.getElem_setIfInBounds_ne hj hb]
  | bypass b => simp only [encodeBypass_ctx h]
  | terminate b => simp only [encodeTerminate_ctx h]

theorem codeBins_ctx {bins : List Bin} {c d : Coder} {j : Nat} (hj : j < Config.nCtx)
    (hb : ∀ b ∈ bins, b.Avoids j) (h : codeBins c bins = .ok d) : d.ctx[j] = c.ctx[j] := by
  induction bins generalizing c with
  | nil => simp only [codeBins_nil, Except.ok.injEq] at h; rw [h]
  | cons b bins ih =>
    obtain ⟨e, hbin, hbins⟩ := (bind_ok_iff _ _ _).1 h
    rw [ih (fun x hx => hb x (List.mem_cons_of_mem _ hx)) hbins, codeBin_ctx hj (hb b List.mem_cons_self) hbin]

/-- Coding keeps the CABAC state and context 276. -/
theorem Codes.coder {s t : State} (h : Codes s t) :
    s.cabac.state = .active ∧ t.cabac.state = .active ∧ t.ctx[276] = s.ctx[276] := by
  obtain ⟨⟨hact, -⟩, bins, havoid, hcode⟩ := h
  obtain ⟨c, hbins, hw⟩ := (codeAndWrite_ok_iff _ _ _).1 hcode
  obtain ⟨-, rfl⟩ := (writeBits_ok_iff _ _ _).1 hw
  exact ⟨hact, hact, codeBins_ctx (by decide) havoid hbins⟩

/-- What a command may do to the coder: who writes its registers and contexts, who moves its state, and where. -/
structure CoderWrites (i : Instr) (s t : State) : Prop where
  kept : isCabac i = false → CoderKept s t
  moved : t.cabac.state = s.cabac.state ∨
    (t.cabac.state = .active ∧ ∃ m q e, i = .cinit m q e) ∨
    (s.cabac.state = .active ∧ t.cabac.state = .terminated ∧ i = .cterm true) ∨
    (t.cabac.state = .idle ∧ (i = .nale ∨ i = .nalx))
  ctx276 : (∀ m q, i ≠ .cinit m q false) → t.ctx[276] = s.ctx[276]

theorem CoderWholeKept.coderWrites {s t : State} (h : CoderWholeKept s t) {i : Instr} : CoderWrites i s t := by
  obtain ⟨hcabac, hctx⟩ := h
  exact ⟨fun _ => by simp [CoderKept, hcabac, hctx], .inl (by rw [hcabac]), fun _ => by rw [hctx]⟩

theorem isCabac_of_codesBins {i : Instr} (h : codesBins i = true) : isCabac i = true := by
  cases i <;> simp_all [codesBins, isCabac, isEngine]

theorem Codes.coderWrites {i : Instr} {s t : State} (hi : isCabac i = true) (h : Codes s t) : CoderWrites i s t := by
  obtain ⟨hact, hstill, h276⟩ := h.coder
  exact ⟨by simp [hi], .inl (by rw [hact, hstill]), fun _ => h276⟩

theorem Completes.coderWrites {i : Instr} {s u : State} (h : Completes s i u) : CoderWrites i s u := by
  cases h with
  | nop => exact CoderWholeKept.coderWrites (by constructor <;> rfl)
  | setqp _ => exact CoderWholeKept.coderWrites (by constructor <;> rfl)
  | forward _ _ => exact CoderWholeKept.coderWrites (by constructor <;> rfl)
  | inverse _ _ => exact CoderWholeKept.coderWrites (by constructor <;> rfl)
  | rlscan _ => exact CoderWholeKept.coderWrites (by constructor <;> rfl)
  | @cinit model sliceqp eng =>
    refine ⟨nofun, .inr (.inl ⟨rfl, _, _, _, rfl⟩), fun hno => ?_⟩
    cases eng with
    | false => exact absurd rfl (hno _ _)
    | true => rfl
  | code family codes => exact codes.coderWrites (isCabac_of_codesBins family)
  | terminate codes =>
    obtain ⟨hact, -, h276⟩ := codes.coder
    exact ⟨nofun, .inr (.inr (.inl ⟨hact, rfl, rfl⟩)), fun _ => h276⟩
  | cres codes =>
    obtain ⟨-, moved, h276⟩ := codes.coderWrites (i := .cres _ _ _ _) rfl
    exact ⟨nofun, moved, h276⟩
  | nalb _ _ header =>
    exact CoderWholeKept.coderWrites (by obtain ⟨-, rfl⟩ := (outBytes_ok_iff _ _ _).1 header; exact ⟨rfl, rfl⟩)
  | nale _ _ ends =>
    obtain ⟨-, rfl⟩ := (outBytes_ok_iff _ _ _).1 ends
    exact ⟨fun _ => ⟨rfl, rfl, rfl, rfl, rfl⟩, .inr (.inr (.inr ⟨rfl, .inl rfl⟩)), fun _ => rfl⟩
  | nalx _ => exact ⟨fun _ => ⟨rfl, rfl, rfl, rfl, rfl⟩, .inr (.inr (.inr ⟨rfl, .inr rfl⟩)), fun _ => rfl⟩
  | bits _ _ written => exact (coderWholeKept_of_outBytes written).coderWrites
  | bytes _ _ written => exact (coderWholeKept_of_outBytes written).coderWrites

/-- Settles O30: a completed command by `Completes`, where no coded bin names context 276; a refused one keeps the
coder. -/
theorem coderStateWriters : Obligations.CoderStateWriters := by
  unfold Obligations.CoderStateWriters
  intro i s t h
  rcases exec_cases h with ⟨u, hu, rfl⟩ | ⟨e, lo, hi, rfl⟩
  · obtain ⟨kept, moved, h276⟩ := hu.coderWrites
    simp only [CoderKept, retire_cabac, retire_ctx]
    exact ⟨kept, moved, h276⟩
  · have hkept : CoderWholeKept s (s.recordError e lo hi) := by simp [CoderWholeKept]
    obtain ⟨kept, moved, h276⟩ := hkept.coderWrites (i := i)
    exact ⟨kept, moved, h276⟩

end Sys2Proof.Machine

/-! SUPPORT. Host accesses as steps: one rule for a read and one for a write of each kind of target, and the statements
on the registers and the windows. -/

namespace Sys2Proof.Machine

/-! ### The address map (R84) -/

theorem target_ctxBank {i : Nat} (h : i < 460) : target (0x03000 + 4 * i) = .ctxBank i := by
  unfold target
  rw [if_neg (by omega), if_neg (by omega), if_neg (by omega), if_pos (by omega)]
  exact congrArg Target.ctxBank (by omega)

theorem target_nalDesc {k word : Nat} (hk : k < 64) (hw : word < 2) :
    target (0x04000 + 4 * word + 8 * k) = .nalDesc k word := by
  unfold target
  rw [if_neg (by omega), if_neg (by omega), if_neg (by omega), if_neg (by omega), if_pos (by omega)]
  exact congrArg₂ Target.nalDesc (by omega) (by omega)

theorem target_out {k : Nat} (h : k < 65536) : target (0x10000 + k) = .out k := by
  unfold target
  rw [if_neg (by omega), if_neg (by omega), if_neg (by omega), if_neg (by omega), if_neg (by omega), if_pos (by omega)]
  exact congrArg Target.out (by omega)

/-- An address inside the map, as the 17 bits of the bus. -/
theorem toNat_busAddr {a : Nat} (h : a < 0x20000) : (BitVec.ofNat 17 a).toNat = a := by
  simpa using h

/-! ### A read and a write as a step -/

section
variable {s : State} {rest : List Event} {a : BitVec 17} {v : Word}

theorem readReg_agenda (r : Reg) : readReg { s with agenda := rest } r = readReg s r := by
  cases r <;> rfl

theorem accessAligned_of_mod (h : a.toNat % 4 = 0) : accessAligned 4 a = true := by
  simp [accessAligned, h]

theorem step_read_reg {r : Reg} (h : s.agenda = .read 4 a :: rest) (ha : a.toNat % 4 = 0)
    (ht : target a.toNat = .reg r) : step s = .next { s with agenda := rest, readData := readReg s r } := by
  rw [step_of_read s rest h, hostRead, if_pos (accessAligned_of_mod ha), ht]
  simp only [readReg_agenda]
  rfl

theorem step_read_ctxBank {i : Nat} (h : s.agenda = .read 4 a :: rest) (ha : a.toNat % 4 = 0)
    (ht : target a.toNat = .ctxBank i) :
    step s = .next { s with agenda := rest, readData := ctxWord (s.ctx[i]?.getD ⟨0, false⟩) } := by
  rw [step_of_read s rest h, hostRead, if_pos (accessAligned_of_mod ha), ht]
  rfl

theorem step_read_nalDesc {k word : Nat} (h : s.agenda = .read 4 a :: rest) (ha : a.toNat % 4 = 0)
    (ht : target a.toNat = .nalDesc k word) :
    step s = .next { s with agenda := rest, readData := descWord s.desc k word } := by
  rw [step_of_read s rest h, hostRead, if_pos (accessAligned_of_mod ha), ht]
  rfl

theorem step_read_out {k : Nat} (h : s.agenda = .read 4 a :: rest) (ha : a.toNat % 4 = 0)
    (ht : target a.toNat = .out k) :
    step s = .next { s with
      agenda := rest, readData := s.outByte (k + 3) ++ s.outByte (k + 2) ++ s.outByte (k + 1) ++ s.outByte k } := by
  rw [step_of_read s rest h, hostRead, if_pos (accessAligned_of_mod ha), ht]
  rfl

theorem step_write_reg {r : Reg} (h : s.agenda = .write 4 a v :: rest) (ha : a.toNat % 4 = 0)
    (ht : target a.toNat = .reg r) : step s = .next (writeReg { s with agenda := rest } a v r) := by
  rw [step_of_write s rest h, hostWrite, if_pos (accessAligned_of_mod ha), ht]

end

/-- An access error is a refusal with the error's number, the address and the data (R375, R376). -/
theorem refused_accessError (s : State) (e : ErrCode) (a : BitVec 17) (v : Word) :
    Refused s (s.accessError e a v) (errorNumber e) (a.setWidth 32) v := by
  unfold Refused State.accessError State.recordError irqErr
  rfl

/-! ### The registers -/

/-- Fields of 5, 5 and 6 bits side by side are the fields shifted to their places. -/
theorem qpFields_eq_or (q : BitVec 6) (b r : BitVec 5) : (0#11 ++ r ++ 0#3 ++ b ++ 0#2 ++ q : Word) =
    q.setWidth 32 ||| b.setWidth 32 <<< 8 ||| r.setWidth 32 <<< 16 := by
  ext i hi
  simp only [BitVec.getElem_append, BitVec.getElem_or, BitVec.getElem_shiftLeft, BitVec.getElem_setWidth,
    BitVec.getElem_zero]
  grind

/-- The QP word by its fields (R36). -/
theorem readReg_qp {s : State} (h : s.qpy ≤ 51) : readReg s .qp = BitVec.ofNat 32 s.qpy |||
    (BitVec.ofInt 5 s.cboff).setWidth 32 <<< 8 ||| (BitVec.ofInt 5 s.croff).setWidth 32 <<< 16 := by
  have hq : BitVec.ofNat 32 s.qpy = (BitVec.ofNat 6 s.qpy).setWidth 32 := by
    apply BitVec.eq_of_toNat_eq
    simp only [BitVec.toNat_setWidth, BitVec.toNat_ofNat]
    omega
  rw [hq]
  exact qpFields_eq_or _ _ _

/-- The registers of R84 with their addresses, but for STATUS. -/
def plainRegisters : List (BitVec 17 × Reg) :=
  [(0x00000, .id), (0x00004, .ctrl), (0x0000C, .errcode), (0x00010, .errinfoLo), (0x00014, .errinfoHi), (0x00018, .qp),
   (0x0001C, .result), (0x00020, .cmdHi), (0x00024, .cmdLo), (0x00028, .irqEn), (0x0002C, .irqPend),
   (0x00030, .cabacRange), (0x00034, .cabacLow), (0x00038, .cabacOutst), (0x0003C, .cabacFirst), (0x00040, .outWptr),
   (0x00044, .nalCount), (0x00048, .nalBits), (0x0004C, .epbZeros), (0x00050, .nalStart)]

theorem target_plainRegisters :
    ∀ p ∈ plainRegisters, p.1.toNat % 4 = 0 ∧ target p.1.toNat = .reg p.2 := by
  decide

theorem flag_le (b : Bool) : flag b ≤ 1 := by
  cases b <;> decide

theorem cstateCode_le (c : CabacState) : cstateCode c ≤ 2 := by
  cases c <;> decide

theorem getLsbD_of_flag {w : Word} {k : Nat} {b : Bool} (h : w.toNat / 2 ^ k % 2 = flag b) : w.getLsbD k = b := by
  rw [← BitVec.testBit_toNat, Nat.testBit_eq_decide_div_mod_eq, h]
  cases b <;> rfl

/-- The STATUS word is the sum of its fields (R33). -/
theorem toNat_statusWord {s : State} (hfifo : s.fifo.length ≤ 16) (hacc : s.bw.acc.length ≤ 7) :
    s.statusWord.toNat = flag s.busy + 2 * flag s.err + 4 * flag s.sat + 16 * cstateCode s.cabac.state
      + 64 * flag s.bw.nalOpen + 256 * s.bw.acc.length + 65536 * s.fifo.length := by
  have hbusy := flag_le s.busy
  have herr := flag_le s.err
  have hsat := flag_le s.sat
  have hopen := flag_le s.bw.nalOpen
  have hstate := cstateCode_le s.cabac.state
  simp only [State.statusWord, State.bitpos, State.fifoCount, BitVec.toNat_ofNat]
  omega

/-- STATUS field by field (R33). -/
theorem statusWord_fields {s : State} (hfifo : s.fifo.length ≤ 16) (hacc : s.bw.acc.length ≤ 7) :
    s.statusWord.getLsbD 0 = s.busy ∧ s.statusWord.getLsbD 1 = s.err ∧ s.statusWord.getLsbD 2 = s.sat ∧
    s.statusWord.getLsbD 3 = false ∧ s.statusWord.toNat / 2 ^ 4 % 4 = cstateCode s.cabac.state ∧
    s.statusWord.getLsbD 6 = s.bw.nalOpen ∧ s.statusWord.getLsbD 7 = false ∧
    s.statusWord.toNat / 2 ^ 8 % 8 = s.bw.acc.length ∧ s.statusWord.toNat / 2 ^ 11 % 32 = 0 ∧
    s.statusWord.toNat / 2 ^ 16 = s.fifo.length := by
  have hsum := toNat_statusWord hfifo hacc
  have hbusy := flag_le s.busy
  have herr := flag_le s.err
  have hsat := flag_le s.sat
  have hopen := flag_le s.bw.nalOpen
  have hstate := cstateCode_le s.cabac.state
  have hzero : flag false = 0 := rfl
  refine ⟨getLsbD_of_flag ?_, getLsbD_of_flag ?_, getLsbD_of_flag ?_, getLsbD_of_flag ?_, ?_, getLsbD_of_flag ?_,
    getLsbD_of_flag ?_, ?_, ?_, ?_⟩ <;> omega

/-- Settles O14: every address of the list names the register whose word stands beside it; STATUS is a sum of fields
that do not overlap. -/
theorem registersReadTheirState : Obligations.RegistersReadTheirState := by
  unfold Obligations.RegistersReadTheirState
  intro s rest hqp hfifo hacc
  refine ⟨fun a v hav hread => ?_, fun hread => ⟨s.statusWord, step_read_reg hread rfl rfl, ?_⟩⟩
  · rw [← readReg_qp hqp] at hav
    change (a, v) ∈ plainRegisters.map fun p => (p.1, readReg s p.2) at hav
    obtain ⟨⟨b, r⟩, hr, heq⟩ := List.mem_map.1 hav
    obtain ⟨rfl, rfl⟩ := Prod.mk.inj heq
    obtain ⟨haligned, htarget⟩ := target_plainRegisters _ hr
    exact step_read_reg hread haligned htarget
  · have hfields := statusWord_fields hfifo hacc
    cases hc : s.cabac.state <;> rw [hc] at hfields <;> exact hfields

/-! ### The windows -/

/-- A context's word by its fields (R43). -/
theorem ctxWord_eq {x : Ctx} (h : x.pStateIdx ≤ 63) :
    ctxWord x = 0#25 ++ BitVec.ofBool x.valMPS ++ BitVec.ofNat 6 x.pStateIdx := by
  have hp : x.pStateIdx < 2 ^ 6 := by omega
  apply BitVec.eq_of_toNat_eq
  rw [BitVec.toNat_append, BitVec.toNat_ofNat, Nat.mod_eq_of_lt hp, ← Nat.shiftLeft_add_eq_or_of_lt hp, ctxWord]
  cases x.valMPS <;> simp [flag] <;> omega

/-- Settles O15: each word address of a window names the context, the descriptor word or the bytes it stands for. -/
theorem windowsReadTheirState : Obligations.WindowsReadTheirState := by
  unfold Obligations.WindowsReadTheirState
  intro s rest a hread
  refine ⟨fun i hi ha hx => ?_, fun k hk ha => ?_, fun k hk ha => ?_, fun k hk hk4 ha => ?_⟩
  all_goals have haddr : (BitVec.ofNat 17 a).toNat = a := toNat_busAddr (by omega)
  · rw [step_read_ctxBank hread (by omega) (by rw [haddr, ha, target_ctxBank hi]),
      Vector.getElem?_eq_getElem hi, Option.getD_some, ctxWord_eq hx]
  · exact step_read_nalDesc (word := 0) hread (by omega) (by rw [haddr, ha]; exact target_nalDesc hk Nat.zero_lt_two)
  · exact step_read_nalDesc (word := 1) hread (by omega) (by rw [haddr, ha]; exact target_nalDesc hk Nat.one_lt_two)
  · exact step_read_out hread (by omega) (by rw [haddr, ha, target_out hk])

/-! ### Writes of registers -/

theorem busy_iff (s : State) : s.busy = true ↔ s.fifo ≠ [] := by
  simp [State.busy]

theorem not_busy_iff (s : State) : s.busy = false ↔ s.fifo = [] := by
  simp [State.busy]

/-- The QP words a host write stores: every field in its range, no reserved bit 1 (R36). -/
def QpWordAdmitted (v : Word) : Prop :=
  (v.extractLsb' 0 6).toNat ≤ 51 ∧ -12 ≤ (v.extractLsb' 8 5).toInt ∧ (v.extractLsb' 8 5).toInt ≤ 12 ∧
    -12 ≤ (v.extractLsb' 16 5).toInt ∧ (v.extractLsb' 16 5).toInt ≤ 12 ∧ v &&& 0xFFE0E0C0 = 0

theorem qpWordAdmitted_iff (v : Word) : QpWordAdmitted v ↔ (v &&& 0xFFE0E0C0 == 0 &&
    qpAdmitted (v.extractLsb' 0 6).toNat (v.extractLsb' 8 5).toInt (v.extractLsb' 16 5).toInt) = true := by
  simp only [QpWordAdmitted, qpAdmitted, within, Bool.and_eq_true, beq_iff_eq, decide_eq_true_eq]
  tauto

section
variable {s : State} {v : Word}

theorem writeQp_busy (a : BitVec 17) (h : s.fifo ≠ []) : writeQp s a v = s.accessError .hostBusyWrite a v :=
  if_pos ((busy_iff s).2 h)

theorem writeQp_refused (a : BitVec 17) (h : s.fifo = []) (hv : ¬QpWordAdmitted v) :
    writeQp s a v = s.accessError .qpRange a v := by
  rw [qpWordAdmitted_iff] at hv
  exact (if_neg (by simp [busy_iff, h])).trans (if_neg hv)

theorem writeQp_stored (a : BitVec 17) (h : s.fifo = []) (hv : QpWordAdmitted v) : writeQp s a v =
    s.setQp (v.extractLsb' 0 6).toNat (v.extractLsb' 8 5).toInt (v.extractLsb' 16 5).toInt := by
  rw [qpWordAdmitted_iff] at hv
  exact (if_neg (by simp [busy_iff, h])).trans (if_pos hv)

end

/-- Settles O18: BUSY is tested first (log 6), then the fields and the reserved bits. -/
theorem hostWritesQp : Obligations.HostWritesQp := by
  unfold Obligations.HostWritesQp
  intro s rest v hwrite qpy cboff croff legal
  have hstep : step s = .next (writeQp { s with agenda := rest } 0x00018 v) := step_write_reg hwrite rfl rfl
  refine ⟨fun hbusy => ⟨_, hstep, ?_⟩, fun hidle hbad => ⟨_, hstep, ?_⟩, fun hidle hgood => ?_⟩
  · rw [writeQp_busy (s := { s with agenda := rest }) _ hbusy]
    exact refused_accessError _ _ _ _
  · rw [writeQp_refused (s := { s with agenda := rest }) _ hidle hbad]
    exact refused_accessError _ _ _ _
  · rw [hstep, writeQp_stored (s := { s with agenda := rest }) _ hidle hgood]
    rfl

/-- Settles O19: the two registers of the command port, with a queue that has room and one that is full. -/
theorem hostPushesCommands : Obligations.HostPushesCommands := by
  unfold Obligations.HostPushesCommands
  intro s rest v
  refine ⟨?_, fun hwrite => step_write_reg hwrite rfl rfl, fun hwrite hroom => ?_, fun hwrite hfull => ?_, rfl⟩
  · rintro (hread | hread) <;> exact step_read_reg hread rfl rfl
  · have hstep : step s = .next (pushCommand { s with agenda := rest } 0x00024 v) := step_write_reg hwrite rfl rfl
    rw [hstep, pushCommand, if_pos hroom]
  · have hstep : step s = .next (pushCommand { s with agenda := rest } 0x00024 v) := step_write_reg hwrite rfl rfl
    refine ⟨_, hstep, ?_⟩
    rw [pushCommand, if_neg (Nat.not_lt.2 hfull)]
    exact refused_accessError _ _ _ _

/-- The interrupt output is 1 where a pending bit is enabled (R40). -/
theorem irqLine_iff (s : State) :
    s.irqLine = true ↔ ∃ i < 3, s.irqPend.getLsbD i = true ∧ s.irqEn.getLsbD i = true := by
  simp only [State.irqLine, bne_iff_ne, ne_eq, BitVec.eq_of_getLsbD_eq_iff]
  simp

/-- Settles O24: each write stores its own field, bit by bit; the line by `irqLine_iff`. -/
theorem interruptRegistersAndLine : Obligations.InterruptRegistersAndLine := by
  unfold Obligations.InterruptRegistersAndLine
  intro s rest v
  refine ⟨fun hwrite => ⟨_, step_write_reg hwrite rfl rfl, rfl, fun i hi => ?_⟩,
    fun hwrite => ⟨_, step_write_reg hwrite rfl rfl, rfl, fun i hi => ?_⟩, irqLine_iff s⟩
  · simp [writeReg, field, hi]
  · simp [writeReg, field, hi]

end Sys2Proof.Machine

/-! SUPPORT. The ranges of the state (R30 to R49): reset has them, and every operation of the host and of the engine
keeps them. -/

namespace Sys2Proof.Machine

/-! ### Reset -/

theorem ranges_reset : State.reset.Ranges where
  errorClear _ := ⟨rfl, rfl, rfl⟩
  qp := by decide
  fifo := by decide
  coder := by decide
  contexts i h := by simp [State.reset]
  weights i h := by simp [State.reset]
  bram := Bram.wf_nil
  out := Memory.wf_nil
  written := by simp [State.reset]
  writer := by decide
  closed _ := ⟨rfl, rfl, rfl⟩
  opened := nofun
  desc := by decide

theorem stream_reset : State.reset.Stream where
  noStartCode _ h := absurd h (Nat.not_lt_zero _)
  units := rfl
  headers := nofun
  closedEnd _ := .inl rfl
  openStart := nofun
  openEnd := nofun

/-- Settles O26: after reset nothing is open, listed or recorded. -/
theorem resetMeetsInvariants : Obligations.ResetMeetsInvariants :=
  ⟨ranges_reset, stream_reset⟩

/-! ### Operations of the state -/

section
variable {s : State}

theorem State.Ranges.resetBlock (s : State) : s.resetBlock.Ranges :=
  { ranges_reset with }

theorem State.Ranges.recordError (h : s.Ranges) (e : ErrCode) (lo hi : Word) : (s.recordError e lo hi).Ranges := by
  cases hs : s.err with
  | true => rwa [recordError_of_err hs]
  | false =>
    rw [recordError_of_clear hs]
    exact { h with errorClear := nofun }

theorem State.Ranges.retire (h : s.Ranges) : s.retire.Ranges := by
  unfold State.retire
  split
  · exact { h with }
  · exact h

theorem State.Ranges.clearError (h : s.Ranges) : s.clearError.Ranges :=
  { h with errorClear := fun _ => ⟨rfl, rfl, rfl⟩, fifo := Nat.zero_le _ }

theorem State.Ranges.setQp (h : s.Ranges) {qpy : Nat} {cboff croff : Int}
    (hq : qpAdmitted qpy cboff croff = true) : (s.setQp qpy cboff croff).Ranges :=
  { h with qp := by simpa [qpAdmitted, within, and_assoc] using hq }

theorem State.Ranges.writeBlock (h : s.Ranges) {a : Nat} {ws : List Word} (ha : a + ws.length ≤ Config.bramWords) :
    (s.writeBlock a ws).Ranges :=
  { h with bram := Bram.wf_writeAll h.bram ha }

theorem State.Ranges.abortNal (h : s.Ranges) (ho : s.bw.nalOpen = true) : s.abortNal.Ranges :=
  { h with
    out := Memory.wf_truncate h.out _
    written := ⟨fun c hc => by simpa [Memory.truncate] using (List.mem_filter.1 hc).2,
      le_trans (Nat.le_of_lt (h.opened ho).1) h.written.2⟩
    writer := by simp
    closed := fun _ => ⟨rfl, rfl, rfl⟩
    opened := nofun }

/-- The output discarded, with no unit open (R341). -/
theorem State.Ranges.discardOutput (h : s.Ranges) (hc : s.bw.nalOpen = false) :
    State.Ranges { s with
      cabac := { s.cabac with state := .idle }, out := [], wptr := 0, desc := [],
      bw := { s.bw with nalStart := 0, nalBits := 0 } } :=
  { h with
    out := Memory.wf_nil
    written := by simp
    writer := by simp [h.closed hc]
    opened := fun ho => absurd ho (by simp [hc])
    desc := Nat.zero_le _ }

theorem State.Ranges.resetOutput (h : s.Ranges) : s.resetOutput.Ranges := by
  unfold State.resetOutput
  cases ho : s.bw.nalOpen with
  | true => exact (h.abortNal ho).discardOutput rfl
  | false => exact h.discardOutput ho

/-! ### Bytes and bits written (R321, R324 to R326) -/

/-- The ranges of the bit writer (R46, R325). -/
def BitWriter.Fits (w : BitWriter) : Prop :=
  w.acc.length ≤ 7 ∧ w.zeros ≤ 2 ∧ w.nalBits.toNat % 8 = w.acc.length

theorem emitByte_zeros_le (w : BitWriter) (b : Byte) : (emitByte w b).1.zeros ≤ 2 := by
  simp only [emitByte]
  split <;> omega

theorem putBitRaw_zeros_le {w : BitWriter} (h : w.zeros ≤ 2) (b : Bool) : (putBitRaw w b).1.zeros ≤ 2 := by
  rcases putBitRaw_cases w b with ⟨-, heq⟩ | ⟨-, heq⟩ <;> rw [heq]
  · exact h
  · exact emitByte_zeros_le _ _

theorem putBitsRaw_zeros_le {w : BitWriter} (h : w.zeros ≤ 2) (bits : List Bool) :
    (putBitsRaw w bits).1.zeros ≤ 2 := by
  induction bits generalizing w with
  | nil => exact h
  | cons b bits ih => exact ih (putBitRaw_zeros_le h b)

theorem emitBytes_zeros_le {w : BitWriter} (h : w.zeros ≤ 2) (bytes : List Byte) :
    (emitBytes w bytes).1.zeros ≤ 2 := by
  induction bytes generalizing w with
  | nil => exact h
  | cons b bytes ih => exact ih (w := emitCounted w b) (emitByte_zeros_le w b)

theorem putBitsRaw_fits {w : BitWriter} (h : w.Fits) (bits : List Bool) : (putBitsRaw w bits).1.Fits := by
  obtain ⟨hacc, hzeros, hbits⟩ := h
  have hlen := putBitsRaw_acc_length hacc bits
  obtain ⟨-, -, -, hcount⟩ := putBitsRaw_unit w bits
  refine ⟨by omega, putBitsRaw_zeros_le hzeros bits, ?_⟩
  rw [hlen, hcount, BitVec.toNat_add, BitVec.toNat_ofNat]
  omega

theorem emitBytes_fits {w : BitWriter} (h : w.Fits) (bytes : List Byte) : (emitBytes w bytes).1.Fits := by
  obtain ⟨hacc, hzeros, hbits⟩ := h
  obtain ⟨-, -, -, hsame, hcount⟩ := emitBytes_unit w bytes
  refine ⟨by rwa [hsame], emitBytes_zeros_le hzeros bytes, ?_⟩
  rw [hsame, hcount, BitVec.toNat_add, BitVec.toNat_ofNat]
  omega

/-- Bytes written at wptr are listed below the new wptr (R47). -/
theorem State.Ranges.listed_below (h : s.Ranges) {bytes : List Byte} {c : Host.Cell}
    (hc : c ∈ s.out.writeAll s.wptr bytes) : c.1 < s.wptr + bytes.length := by
  rcases Memory.mem_writeAll hc with hc | hc
  · exact Nat.lt_add_right _ (h.written.1 c hc)
  · exact hc.2

/-- Bytes added to the output of an open unit, the bit writer going on to w. -/
theorem State.Ranges.outBytes {t : State} {w : BitWriter} {bytes : List Byte} (h : s.Ranges)
    (ho : s.bw.nalOpen = true) (hw : w.Fits) (hopen : w.nalOpen = true) (hstart : w.nalStart = s.bw.nalStart)
    (hout : outBytes { s with bw := w } bytes = .ok t) : t.Ranges := by
  obtain ⟨hfit, rfl⟩ := (outBytes_ok_iff _ _ _).1 hout
  obtain ⟨hbelow, hroom⟩ := h.opened ho
  exact { h with
    out := Memory.wf_writeAll h.out hfit
    written := ⟨fun _ hc => h.listed_below hc, hfit⟩
    writer := hw
    closed := fun hc => absurd (hopen.symm.trans hc) (by decide)
    opened := fun _ => ⟨by simp only [hstart]; omega, hroom⟩ }

theorem State.Ranges.writeBits {t : State} {bits : List Bool} (h : s.Ranges) (ho : s.bw.nalOpen = true)
    (hw : writeBits s bits = .ok t) : t.Ranges := by
  obtain ⟨hopen, hstart, -, -⟩ := putBitsRaw_unit s.bw bits
  exact h.outBytes ho (putBitsRaw_fits h.writer bits) (hopen.trans ho) hstart hw

/-- The coder written back, its registers and contexts in range. -/
theorem State.Ranges.storeCoder (h : s.Ranges) {c : Coder} (hc : c.Fits) : (s.storeCoder c).Ranges :=
  { h with coder := ⟨hc.range.1, hc.range.2, hc.low, hc.outst⟩, contexts := hc.contexts }

theorem State.Ranges.codes {t : State} (h : s.Ranges) (hc : Codes s t) : t.Ranges := by
  obtain ⟨⟨-, ho⟩, bins, -, hcode⟩ := hc
  obtain ⟨c, hbins, hw⟩ := (codeAndWrite_ok_iff _ _ _).1 hcode
  exact (h.storeCoder (codeBins_fits (loadCoder_fits h) hbins).1).writeBits ho hw

/-! ### CINIT and the framing commands -/

theorem clip3_bounds {lo hi : Int} (h : lo ≤ hi) (v : Int) : lo ≤ clip3 lo hi v ∧ clip3 lo hi v ≤ hi := by
  simp only [clip3]
  omega

theorem initialContext_le (m n : Int) (sliceqp : Nat) : (initialContext m n sliceqp).pStateIdx ≤ 63 := by
  unfold initialContext
  have hpre := clip3_bounds (lo := 1) (hi := 126) (by decide) (((m * clip3 0 51 sliceqp) >>> 4) + n)
  generalize clip3 1 126 (((m * clip3 0 51 sliceqp) >>> 4) + n) = pre at hpre
  dsimp only
  split <;> (dsimp only; omega)

theorem initialContexts_le (table : Nat → BitVec 8 × BitVec 8) (sliceqp : Nat) (i : Nat) (hi : i < Config.nCtx) :
    ((initialContexts table sliceqp)[i]).pStateIdx ≤ 63 := by
  simp only [initialContexts, Vector.getElem_ofFn]
  split
  · exact le_refl 63
  · exact initialContext_le _ _ _

theorem State.Ranges.startCoder (h : s.Ranges) {ctx : Vector Ctx Config.nCtx}
    (hctx : ∀ (i : Nat) (hi : i < Config.nCtx), (ctx[i]).pStateIdx ≤ 63) :
    State.Ranges { s.startCoder with ctx := ctx } :=
  { h with coder := by simp, contexts := hctx }

/-- A unit opened (R340): its header is at the old wptr. -/
theorem State.Ranges.openNal {t : State} {hdr : Byte} (h : s.Ranges)
    (hfree : s.nalCount ≠ Config.descDepth) (hout : Machine.outBytes s [hdr] = .ok t) :
    State.Ranges { t with bw := ⟨true, [], 0, false, BitVec.ofNat 32 s.wptr, 0, hdr⟩ } := by
  obtain ⟨hfit, rfl⟩ := (outBytes_ok_iff _ _ _).1 hout
  have hstart : (BitVec.ofNat 32 s.wptr).toNat < s.wptr + 1 := by
    rw [BitVec.toNat_ofNat]
    exact Nat.lt_succ_of_le (Nat.mod_le _ _)
  exact { h with
    out := Memory.wf_writeAll h.out hfit
    written := ⟨fun _ hc => h.listed_below hc, hfit⟩
    writer := by simp
    closed := nofun
    opened := fun _ => ⟨hstart, lt_of_le_of_ne h.desc hfree⟩ }

/-- A unit closed (R342): its descriptor has room since it was opened with room (R340). -/
theorem State.Ranges.closeNal (h : s.Ranges) (ho : s.bw.nalOpen = true) (hacc : s.bw.acc = []) :
    s.closeNal.Ranges :=
  { h with
    writer := ⟨h.writer.1, Nat.zero_le _, h.writer.2.2⟩
    closed := fun _ => ⟨hacc, rfl, rfl⟩
    opened := nofun
    desc := by simpa using (h.opened ho).2 }

/-! ### Commands -/

/-- A command that completes keeps the ranges. -/
theorem Completes.ranges {i : Instr} {u : State} (hc : Completes s i u) (h : s.Ranges) : u.Ranges := by
  cases hc with
  | nop => exact h
  | setqp admitted => exact h.setQp admitted
  | forward _ inside => exact { h.writeBlock (by simpa using inside) with }
  | inverse _ inside => exact h.writeBlock inside
  | rlscan inside => exact { h.writeBlock inside with }
  | cinit =>
    refine h.startCoder ?_
    split
    · exact h.contexts
    · exact initialContexts_le _ _
  | code _ codes => exact h.codes codes
  | terminate codes => exact { h.codes codes with }
  | cres codes => exact { h.codes codes with }
  | nalb _ free header => exact h.openNal free header
  | nale isOpen aligned ends =>
    have hu := h.outBytes isOpen h.writer isOpen rfl ends
    obtain ⟨-, rfl⟩ := (outBytes_ok_iff _ _ _).1 ends
    exact hu.closeNal isOpen aligned
  | nalx isOpen => exact h.abortNal isOpen
  | bits _ may written => exact h.writeBits may.1 written
  | bytes may _ written =>
    obtain ⟨hopen, hstart, -⟩ := emitBytes_unit s.bw _
    exact h.outBytes may.1 (emitBytes_fits h.writer _) (hopen.trans may.1) hstart written

theorem State.Ranges.exec {i : Instr} {t : State} (h : s.Ranges) (hstep : exec i s = .next t) : t.Ranges := by
  rcases exec_cases hstep with ⟨u, hu, rfl⟩ | ⟨e, lo, hi, rfl⟩
  · exact (hu.ranges h).retire
  · exact h.recordError e lo hi

theorem State.Ranges.engineStep {t : State} (h : s.Ranges) (hstep : engineStep s = .next t) : t.Ranges := by
  have htail : ∀ c rest, s.fifo = c :: rest → State.Ranges { s with fifo := rest } := fun c rest hf =>
    { h with fifo := le_trans (by simp [hf]) h.fifo }
  rcases engineStep_cases s with ⟨-, heq⟩ | ⟨c, rest, e, -, hf, -, heq⟩ | ⟨c, rest, i, -, hf, -, heq⟩ <;>
    rw [heq] at hstep
  · exact Host.Outcome.next.inj hstep ▸ h
  · exact Host.Outcome.next.inj hstep ▸ (htail c rest hf).recordError e c.lo c.hi
  · exact (htail c rest hf).exec hstep

/-! ### Host accesses -/

theorem State.Ranges.answer (h : s.Ranges) (w : Word) : (s.answer w).Ranges :=
  { h with }

theorem State.Ranges.accessError (h : s.Ranges) (e : ErrCode) (a : BitVec 17) (v : Word) :
    (s.accessError e a v).Ranges :=
  h.recordError e _ v

theorem State.Ranges.readBram (h : s.Ranges) (a : Nat) : (readBram s a).Ranges := by
  unfold Machine.readBram
  split
  · exact h.answer _
  · exact { h.answer (Config.freeWord s.draws) with }

theorem State.Ranges.hostRead (h : s.Ranges) (n : Nat) (a : BitVec 17) : (hostRead s n a).Ranges := by
  unfold Machine.hostRead
  split
  · cases target a.toNat with
    | bram k => exact h.readBram k
    | unmapped => exact (h.answer 0).accessError _ _ _
    | _ => exact h.answer _
  · exact (h.answer 0).accessError _ _ _

theorem State.Ranges.writeCtrl (h : s.Ranges) (a : BitVec 17) (v : Word) : (writeCtrl s a v).Ranges := by
  unfold Machine.writeCtrl
  split
  · exact State.Ranges.resetBlock s
  · split
    · exact h.accessError _ _ _
    · have ht : (if v.getLsbD 8 then s.clearError else s).Ranges := by
        split
        · exact h.clearError
        · exact h
      generalize (if v.getLsbD 8 then s.clearError else s) = t at ht
      have hu : (if v.getLsbD 9 then t.resetOutput else t).Ranges := by
        split
        · exact ht.resetOutput
        · exact ht
      exact { hu with }

theorem State.Ranges.writeQp (h : s.Ranges) (a : BitVec 17) (v : Word) : (writeQp s a v).Ranges := by
  by_cases hidle : s.fifo = []
  · by_cases hv : QpWordAdmitted v
    · rw [writeQp_stored a hidle hv]
      exact h.setQp (Bool.and_eq_true_iff.1 ((qpWordAdmitted_iff v).1 hv)).2
    · rw [writeQp_refused a hidle hv]
      exact h.accessError _ _ _
  · rw [writeQp_busy a hidle]
    exact h.accessError _ _ _

theorem State.Ranges.pushCommand (h : s.Ranges) (a : BitVec 17) (v : Word) : (pushCommand s a v).Ranges := by
  unfold Machine.pushCommand
  split
  · next hroom => exact { h with fifo := by simpa using hroom }
  · exact State.Ranges.accessError (s := { s with cmdHiStage := 0 }) { h with } _ _ _

theorem State.Ranges.writeBram (h : s.Ranges) {k : Nat} (hk : k < Config.bramWords) (a : BitVec 17) (v : Word) :
    (writeBram s k a v).Ranges := by
  unfold Machine.writeBram
  split
  · exact h.accessError _ _ _
  · exact h.writeBlock hk

/-- A weight stored over another one that is not 0. -/
theorem weights_set {scal : Vector Byte Config.scalBytes}
    (h : ∀ (i : Nat) (hi : i < Config.scalBytes), scal[i] ≠ 0) (k : Nat) {b : Byte} (hb : b ≠ 0) (i : Nat)
    (hi : i < Config.scalBytes) : (scal.setIfInBounds k b)[i] ≠ 0 := by
  rw [Vector.getElem_setIfInBounds]
  split
  · exact hb
  · exact h i hi

theorem State.Ranges.writeScaling (h : s.Ranges) (k : Nat) (a : BitVec 17) (v : Word) :
    (writeScaling s k a v).Ranges := by
  unfold Machine.writeScaling
  split
  · exact h.accessError _ _ _
  · split
    · exact h.accessError _ _ _
    · next hv =>
      obtain ⟨h0, h1, h2, h3⟩ : byteOf v 0 ≠ 0 ∧ byteOf v 1 ≠ 0 ∧ byteOf v 2 ≠ 0 ∧ byteOf v 3 ≠ 0 := by
        simpa only [not_or] using hv
      exact { h with
        weights := weights_set (weights_set (weights_set (weights_set h.weights k h0) (k + 1) h1) (k + 2) h2)
          (k + 3) h3 }

theorem State.Ranges.writeReg (h : s.Ranges) (a : BitVec 17) (v : Word) (r : Reg) : (writeReg s a v r).Ranges := by
  cases r with
  | ctrl => exact h.writeCtrl a v
  | status => exact { h with }
  | qp => exact h.writeQp a v
  | cmdHi => exact { h with }
  | cmdLo => exact h.pushCommand a v
  | irqEn => exact { h with }
  | irqPend => exact { h with }
  | _ => exact h.accessError _ _ _

/-- The BRAM window names words of the buffer RAM only (R84). -/
theorem lt_of_target_bram {n k : Nat} (h : target n = .bram k) : k < 1024 := by
  unfold target at h
  split_ifs at h with _ hwindow
  · split at h <;> cases h
  · have hk := Target.bram.inj h
    omega

theorem State.Ranges.hostWrite (h : s.Ranges) (n : Nat) (a : BitVec 17) (v : Word) : (hostWrite s n a v).Ranges := by
  unfold Machine.hostWrite
  split
  · cases ht : target a.toNat with
    | reg r => exact h.writeReg a v r
    | bram k => exact h.writeBram (lt_of_target_bram ht) a v
    | scaling k => exact h.writeScaling k a v
    | _ => exact h.accessError _ _ _
  · exact h.accessError _ _ _

end

/-- Settles O27, by the kind of the next event: the engine's command, a host access, or the reset input. -/
theorem stepsKeepRanges : Obligations.StepsKeepRanges := by
  unfold Obligations.StepsKeepRanges
  intro s t h hstep
  have hlater : ∀ rest, State.Ranges { s with agenda := rest } := fun _ => { h with }
  rcases hag : s.agenda with _ | ⟨e, rest⟩
  · rw [step_of_agenda_nil s hag] at hstep
    exact h.engineStep hstep
  · cases e with
    | engineTurn =>
      rw [step_of_engineTurn s rest hag] at hstep
      exact (hlater rest).engineStep hstep
    | read n a =>
      rw [step_of_read s rest hag] at hstep
      exact Host.Outcome.next.inj hstep ▸ (hlater rest).hostRead n a
    | write n a v =>
      rw [step_of_write s rest hag] at hstep
      exact Host.Outcome.next.inj hstep ▸ (hlater rest).hostWrite n a v
    | resetInput =>
      rw [step_of_resetInput s rest hag] at hstep
      exact Host.Outcome.next.inj hstep ▸ State.Ranges.resetBlock _

end Sys2Proof.Machine

/-! SUPPORT. The host's accesses to the buffer RAM, the scaling RAM and the rest of the map, the engine's turn, and the
growth of the output: the statements of the memory model (20_memory.md). -/

namespace Sys2Proof.Machine

/-! ### The engine's turn (R80, R48) -/

section
variable {s : State}

theorem engineReady_iff (s : State) : s.engineReady = true ↔ s.enable = true ∧ s.err = false ∧ s.fifo ≠ [] := by
  simp [State.engineReady, busy_iff, and_assoc]

theorem engineStep_of_decode {c : Command} {later : List Command} {i : Instr} (hen : s.enable = true)
    (herr : s.err = false) (hfifo : s.fifo = c :: later) (hdec : decode c = .ok i) :
    engineStep s = exec i { s with fifo := later } := by
  have hready : s.engineReady = true := (engineReady_iff s).2 ⟨hen, herr, by simp [hfifo]⟩
  simp [engineStep, hready, hfifo, hdec]

theorem engineStep_of_waits (h : s.enable = false ∨ s.err = true ∨ s.fifo = []) : engineStep s = .next s := by
  have hready : s.engineReady = false := by
    rw [← Bool.not_eq_true, engineReady_iff]
    rcases h with h | h | h <;> simp [h]
  simp [engineStep, hready]

end

/-- Settles O6: an engine's turn by the agenda, then a ready engine with a command that decodes, or one that waits. -/
theorem stepRunsTheHeadCommand : Obligations.StepRunsTheHeadCommand := by
  unfold Obligations.StepRunsTheHeadCommand
  refine ⟨fun s c rest i hen herr hfifo hdec => ⟨fun hag => ?_, fun later hag => ?_⟩,
    fun s hwaits => ⟨fun hag => ?_, fun later hag => ?_⟩⟩
  · rw [step_of_agenda_nil s hag, engineStep_of_decode hen herr hfifo hdec]
  · rw [step_of_engineTurn s later hag, engineStep_of_decode (s := { s with agenda := later }) hen herr hfifo hdec]
  · rw [step_of_agenda_nil s hag, engineStep_of_waits hwaits]
  · rw [step_of_engineTurn s later hag, engineStep_of_waits (s := { s with agenda := later }) hwaits]

/-! ### Accesses with an error (R82, R85) -/

section
variable {s : State} {rest : List Event} {a : BitVec 17} {v : Word} {n : Nat}

theorem accessAligned_of_not (h : ¬(n = 4 ∧ a.toNat % 4 = 0)) : accessAligned n a = false := by
  simpa [accessAligned] using h

theorem step_read_misaligned (h : s.agenda = .read n a :: rest) (ha : ¬(n = 4 ∧ a.toNat % 4 = 0)) :
    step s = .next (State.accessError { s with agenda := rest, readData := 0 } .mmioAlign a 0) := by
  simp [step_of_read s rest h, hostRead, accessAligned_of_not ha, State.answer]

theorem step_write_misaligned (h : s.agenda = .write n a v :: rest) (ha : ¬(n = 4 ∧ a.toNat % 4 = 0)) :
    step s = .next (State.accessError { s with agenda := rest } .mmioAlign a v) := by
  simp [step_of_write s rest h, hostWrite, accessAligned_of_not ha]

theorem step_read_unmapped (h : s.agenda = .read 4 a :: rest) (ha : a.toNat % 4 = 0)
    (ht : target a.toNat = .unmapped) :
    step s = .next (State.accessError { s with agenda := rest, readData := 0 } .mmioAccess a 0) := by
  rw [step_of_read s rest h, hostRead, if_pos (accessAligned_of_mod ha), ht]
  rfl

end

/-- Settles O11: the width and the alignment are tested before the address is looked at (log 7). -/
theorem misalignedAccessIsRefused : Obligations.MisalignedAccessIsRefused := by
  unfold Obligations.MisalignedAccessIsRefused
  intro s n a rest ha
  exact ⟨fun hread => ⟨_, step_read_misaligned hread ha, refused_accessError _ _ _ _⟩,
    fun v hwrite => ⟨_, step_write_misaligned hwrite ha, refused_accessError _ _ _ _⟩⟩

/-- The registers that R84 lists are all the addresses below 0x54. -/
theorem exists_target_reg {n : Nat} (h : n < 0x54) : ∃ r, target n = .reg r := by
  have hlen : n / 4 < registerMap.length := by
    change n / 4 < 21
    omega
  exact ⟨registerMap[n / 4], by rw [target, if_pos h, List.getElem?_eq_getElem hlen]⟩

/-- The map of R84, as the model dispatches on it. -/
theorem target_eq_unmapped_iff {n : Nat} (h : n < 0x20000) : target n = .unmapped ↔ ¬Mapped n := by
  by_cases hreg : n < 0x54
  · obtain ⟨r, hr⟩ := exists_target_reg hreg
    simp [hr, Mapped, hreg]
  · unfold target Mapped
    rw [if_neg hreg]
    split_ifs <;> simp <;> omega

/-- The registers that a write does not change, STATUS aside (R85). -/
def readOnlyRegisters : List Reg :=
  [.id, .errcode, .errinfoLo, .errinfoHi, .result, .cabacRange, .cabacLow, .cabacOutst, .cabacFirst, .outWptr, .nalCount,
   .nalBits, .epbZeros, .nalStart]

/-- A target that no write changes: a read-only register or window, or nothing (R85). -/
inductive Target.RefusesWrites : Target → Prop where
  | reg {r : Reg} (readOnly : r ∈ readOnlyRegisters) : RefusesWrites (.reg r)
  | ctxBank (i : Nat) : RefusesWrites (.ctxBank i)
  | nalDesc (k word : Nat) : RefusesWrites (.nalDesc k word)
  | out (k : Nat) : RefusesWrites (.out k)
  | unmapped : RefusesWrites .unmapped

theorem writeReg_of_readOnly (s : State) (a : BitVec 17) (v : Word) {r : Reg} (h : r ∈ readOnlyRegisters) :
    writeReg s a v r = s.accessError .mmioAccess a v := by
  revert r
  simp [readOnlyRegisters, writeReg]

theorem step_write_refused {s : State} {rest : List Event} {a : BitVec 17} {v : Word}
    (h : s.agenda = .write 4 a v :: rest) (ha : a.toNat % 4 = 0) (ht : (target a.toNat).RefusesWrites) :
    step s = .next (State.accessError { s with agenda := rest } .mmioAccess a v) := by
  rw [step_of_write s rest h, hostWrite, if_pos (accessAligned_of_mod ha)]
  generalize target a.toNat = x at ht
  cases ht with
  | reg readOnly => exact congrArg _ (writeReg_of_readOnly _ _ _ readOnly)
  | _ => rfl

/-- Word by word: a read-only address below 0x54 names a read-only register. -/
theorem target_readOnlyRegister : ∀ k < 21, ReadOnly (4 * k) → ∃ r ∈ readOnlyRegisters, target (4 * k) = .reg r := by
  unfold ReadOnly
  decide

/-- The read-only addresses of R84 and R85, as the model dispatches on them. -/
theorem refusesWrites_of_readOnly {n : Nat} (h4 : n % 4 = 0) (h : ReadOnly n) : (target n).RefusesWrites := by
  by_cases hreg : n < 0x54
  · obtain ⟨k, rfl⟩ := Nat.dvd_of_mod_eq_zero h4
    obtain ⟨r, hr, ht⟩ := target_readOnlyRegister k (by omega) h
    exact ht ▸ .reg hr
  · simp only [ReadOnly, List.mem_cons, List.not_mem_nil, or_false] at h
    unfold target
    rw [if_neg hreg]
    split_ifs
    · omega
    · omega
    · exact .ctxBank _
    · exact .nalDesc _ _
    · exact .out _
    · exact .unmapped

/-- Settles O12: an address that is not mapped names nothing, a read-only one names a target that refuses writes. -/
theorem unmappedAndReadOnlyAccesses : Obligations.UnmappedAndReadOnlyAccesses := by
  unfold Obligations.UnmappedAndReadOnlyAccesses
  intro s a rest ha
  refine ⟨fun hmap hread => ⟨_, step_read_unmapped hread ha ((target_eq_unmapped_iff a.isLt).2 hmap), ?_⟩,
    fun hcmd hread => ?_, fun v hno hwrite => ⟨_, step_write_refused hwrite ha ?_, ?_⟩, fun v hstatus hwrite => ?_⟩
  · exact refused_accessError _ _ _ _
  · rcases hcmd with hhi | hlo
    · exact step_read_reg (r := .cmdHi) hread ha (by rw [hhi]; rfl)
    · exact step_read_reg (r := .cmdLo) hread ha (by rw [hlo]; rfl)
  · rcases hno with hmap | hro
    · exact (target_eq_unmapped_iff a.isLt).2 hmap ▸ .unmapped
    · exact refusesWrites_of_readOnly ha hro
  · exact refused_accessError _ _ _ _
  · exact step_write_reg (r := .status) hwrite ha (by rw [hstatus]; rfl)

/-! ### Reads of the map (R89) -/

section
variable {s : State} {a : BitVec 17} {n k : Nat}

/-- Only the addresses of the BRAM window name a word of the buffer RAM (R84). -/
theorem window_of_target_bram (h : target n = .bram k) : (0x01000 ≤ n ∧ n < 0x02000) ∧ k = (n - 0x01000) / 4 := by
  unfold target at h
  split_ifs at h with _ hwindow
  · split at h <;> cases h
  · exact ⟨hwindow, (Target.bram.inj h).symm⟩

theorem readBram_of_written {w : Word} (h : s.bram.read k = some w) : readBram s k = s.answer w := by
  simp [readBram, h]

/-- t is s but for the model's own read bus, and for the counter of free values. -/
def ReadBusOnly (s t : State) : Prop :=
  t = { s with readData := t.readData, draws := t.draws }

theorem readBusOnly_readBram (s : State) (k : Nat) : ReadBusOnly s (readBram s k) := by
  unfold readBram
  split <;> rfl

/-- A read of a mapped address moves the read bus, and draws a free value only for a BRAM word never written. -/
theorem hostRead_of_mapped (ha : a.toNat % 4 = 0) (hmap : Mapped a.toNat) :
    ReadBusOnly s (hostRead s 4 a) ∧
      ((0x01000 ≤ a.toNat ∧ a.toNat < 0x02000 → s.bram.read ((a.toNat - 0x01000) / 4) ≠ none) →
        (hostRead s 4 a).draws = s.draws) := by
  rw [hostRead, if_pos (accessAligned_of_mod ha)]
  cases ht : target a.toNat with
  | unmapped => exact absurd hmap ((target_eq_unmapped_iff a.isLt).1 ht)
  | bram k =>
    obtain ⟨hwindow, rfl⟩ := window_of_target_bram ht
    refine ⟨readBusOnly_readBram s _, fun hwritten => ?_⟩
    obtain ⟨w, hw⟩ := Option.ne_none_iff_exists'.1 (hwritten hwindow)
    simp only [readBram_of_written hw]
    rfl
  | _ => exact ⟨rfl, fun _ => rfl⟩

end

/-- Settles O13: `hostRead_of_mapped` at the state with the event taken. -/
theorem mappedReadsChangeNothing : Obligations.MappedReadsChangeNothing := by
  unfold Obligations.MappedReadsChangeNothing
  intro s a rest ha hmap hread
  obtain ⟨hbus, hdraws⟩ := hostRead_of_mapped (s := { s with agenda := rest }) ha hmap
  exact ⟨_, step_of_read s rest hread, hbus, hdraws⟩

/-! ### The BRAM window (R86) -/

theorem target_bram {i : Nat} (h : i < 1024) : target (0x01000 + 4 * i) = .bram i := by
  unfold target
  rw [if_neg (by omega), if_pos (by omega)]
  exact congrArg Target.bram (by omega)

theorem target_scaling {k : Nat} (h : k < 224) : target (0x02000 + k) = .scaling k := by
  unfold target
  rw [if_neg (by omega), if_neg (by omega), if_pos (by omega)]
  exact congrArg Target.scaling (by omega)

section
variable {s : State} {rest : List Event} {a : BitVec 17} {v : Word} {k : Nat}

theorem step_read_bram (h : s.agenda = .read 4 a :: rest) (ha : a.toNat % 4 = 0) (ht : target a.toNat = .bram k) :
    step s = .next (readBram { s with agenda := rest } k) := by
  rw [step_of_read s rest h, hostRead, if_pos (accessAligned_of_mod ha), ht]

theorem step_write_bram (h : s.agenda = .write 4 a v :: rest) (ha : a.toNat % 4 = 0) (ht : target a.toNat = .bram k) :
    step s = .next (writeBram { s with agenda := rest } k a v) := by
  rw [step_of_write s rest h, hostWrite, if_pos (accessAligned_of_mod ha), ht]

theorem step_read_scaling (h : s.agenda = .read 4 a :: rest) (ha : a.toNat % 4 = 0)
    (ht : target a.toNat = .scaling k) :
    step s = .next { s with
      agenda := rest
      readData := scalByte s (k + 3) ++ scalByte s (k + 2) ++ scalByte s (k + 1) ++ scalByte s k } := by
  rw [step_of_read s rest h, hostRead, if_pos (accessAligned_of_mod ha), ht]
  rfl

theorem step_write_scaling (h : s.agenda = .write 4 a v :: rest) (ha : a.toNat % 4 = 0)
    (ht : target a.toNat = .scaling k) : step s = .next (writeScaling { s with agenda := rest } k a v) := by
  rw [step_of_write s rest h, hostWrite, if_pos (accessAligned_of_mod ha), ht]

theorem writeBram_busy (a : BitVec 17) (h : s.fifo ≠ []) : writeBram s k a v = s.accessError .hostBusyWrite a v :=
  if_pos ((busy_iff s).2 h)

theorem writeBram_idle (a : BitVec 17) (h : s.fifo = []) : writeBram s k a v = s.writeBlock k [v] :=
  if_neg (by simp [busy_iff, h])

end

/-- A bus address widened to the word that ERRINFO_LO holds (R35). -/
theorem setWidth_busAddr {n : Nat} (h : n < 0x20000) : (BitVec.ofNat 17 n).setWidth 32 = BitVec.ofNat 32 n := by
  apply BitVec.eq_of_toNat_eq
  simp only [BitVec.toNat_setWidth, BitVec.toNat_ofNat]
  omega

/-- A refused access, with the address as a number. -/
theorem refused_accessError_busAddr (s : State) (e : ErrCode) {n : Nat} (h : n < 0x20000) (v : Word) :
    Refused s (s.accessError e (BitVec.ofNat 17 n) v) (errorNumber e) (BitVec.ofNat 32 n) v :=
  setWidth_busAddr h ▸ refused_accessError s e _ v

/-- Settles O16: the window's word a is BRAM word a; BUSY decides whether a write is stored. -/
theorem hostAccessesBram : Obligations.HostAccessesBram := by
  unfold Obligations.HostAccessesBram
  intro s rest i v hi
  have haddr : (BitVec.ofNat 17 (0x01000 + 4 * i)).toNat = 0x01000 + 4 * i := toNat_busAddr (by omega)
  have haligned : (BitVec.ofNat 17 (0x01000 + 4 * i)).toNat % 4 = 0 := by omega
  have htarget : target (BitVec.ofNat 17 (0x01000 + 4 * i)).toNat = .bram i := by rw [haddr, target_bram hi]
  refine ⟨fun w hread hw => ?_, fun hwrite hidle => ⟨_, step_write_bram hwrite haligned htarget, ?_⟩,
    fun hwrite hbusy => ⟨_, step_write_bram hwrite haligned htarget, ?_⟩⟩
  · rw [step_read_bram hread haligned htarget, readBram_of_written (s := { s with agenda := rest }) hw]
    rfl
  · rw [writeBram_idle (s := { s with agenda := rest }) _ hidle]
    exact ⟨rfl, fun b => Bram.read_write s.bram i b v⟩
  · rw [writeBram_busy (s := { s with agenda := rest }) _ hbusy]
    exact refused_accessError_busAddr _ _ (by omega) v

/-! ### The SCALING windows (R87) -/

/-- A word holds a weight of 0 (R44). -/
def HasZeroByte (v : Word) : Prop :=
  ∃ j < 4, byteOf v j = 0

theorem hasZeroByte_iff (v : Word) :
    HasZeroByte v ↔ byteOf v 0 = 0 ∨ byteOf v 1 = 0 ∨ byteOf v 2 = 0 ∨ byteOf v 3 = 0 := by
  constructor
  · rintro ⟨j, hj, h⟩
    interval_cases j <;> simp [h]
  · rintro (h | h | h | h)
    exacts [⟨0, by decide, h⟩, ⟨1, by decide, h⟩, ⟨2, by decide, h⟩, ⟨3, by decide, h⟩]

/-- Four weights stored at k .. k + 3 (R87). -/
def storeWeights (scal : Vector Byte Config.scalBytes) (k : Nat) (v : Word) : Vector Byte Config.scalBytes :=
  (((scal.setIfInBounds k (byteOf v 0)).setIfInBounds (k + 1) (byteOf v 1)).setIfInBounds (k + 2)
    (byteOf v 2)).setIfInBounds (k + 3) (byteOf v 3)

theorem storeWeights_getElem (scal : Vector Byte Config.scalBytes) (k : Nat) (v : Word) (j : Nat)
    (hj : j < Config.scalBytes) :
    (storeWeights scal k v)[j] = if k ≤ j ∧ j < k + 4 then byteOf v (j - k) else scal[j] := by
  simp only [storeWeights, Vector.getElem_setIfInBounds]
  by_cases h : k ≤ j ∧ j < k + 4
  · obtain ⟨d, rfl⟩ := Nat.exists_eq_add_of_le h.1
    have hd : d < 4 := by omega
    interval_cases d <;> simp
  · rw [if_neg h, if_neg (by omega), if_neg (by omega), if_neg (by omega), if_neg (by omega)]

section
variable {s : State} {v : Word} {k : Nat}

theorem writeScaling_busy (a : BitVec 17) (h : s.fifo ≠ []) :
    writeScaling s k a v = s.accessError .hostBusyWrite a v :=
  if_pos ((busy_iff s).2 h)

theorem writeScaling_zero (a : BitVec 17) (h : s.fifo = []) (hv : HasZeroByte v) :
    writeScaling s k a v = s.accessError .cfgValue a v :=
  (if_neg (by simp [busy_iff, h])).trans (if_pos ((hasZeroByte_iff v).1 hv))

theorem writeScaling_stored (a : BitVec 17) (h : s.fifo = []) (hv : ¬HasZeroByte v) :
    writeScaling s k a v = { s with scal := storeWeights s.scal k v } :=
  (if_neg (by simp [busy_iff, h])).trans (if_neg (mt (hasZeroByte_iff v).2 hv))

end

/-- Settles O17: BUSY is tested first (log 6), then the four weights; the weights stored by `storeWeights_getElem`. -/
theorem hostAccessesScaling : Obligations.HostAccessesScaling := by
  unfold Obligations.HostAccessesScaling
  intro s rest k v hk hk4
  have haddr : (BitVec.ofNat 17 (0x02000 + k)).toNat = 0x02000 + k := toNat_busAddr (by omega)
  have haligned : (BitVec.ofNat 17 (0x02000 + k)).toNat % 4 = 0 := by omega
  have htarget : target (BitVec.ofNat 17 (0x02000 + k)).toNat = .scaling k := by rw [haddr, target_scaling hk]
  refine ⟨fun hread => step_read_scaling hread haligned htarget, fun hwrite => ?_⟩
  have hstep := step_write_scaling hwrite haligned htarget
  refine ⟨fun hbusy => ⟨_, hstep, ?_⟩, fun hidle hzero => ⟨_, hstep, ?_⟩, fun hidle hnonzero => ⟨_, hstep, ?_⟩⟩
  · rw [writeScaling_busy (s := { s with agenda := rest }) _ hbusy]
    exact refused_accessError_busAddr _ _ (by omega) v
  · rw [writeScaling_zero (s := { s with agenda := rest }) _ hidle hzero]
    exact refused_accessError_busAddr _ _ (by omega) v
  · rw [writeScaling_stored (s := { s with agenda := rest }) _ hidle fun ⟨j, hj, hz⟩ => hnonzero j hj hz]
    exact ⟨rfl, fun j hj => storeWeights_getElem s.scal k v j hj⟩

/-! ### The growth of the output (R92) -/

section
variable {s t : State}

/-- Of i, from s to t: the output grows at most, and only NALE adds descriptors (R92, R333). -/
def OutputGrows (i : Instr) (s t : State) : Prop :=
  s.wptr ≤ t.wptr ∧ (∀ k < s.wptr, t.outByte k = s.outByte k) ∧
    ∃ more, t.desc = s.desc ++ more ∧ (i ≠ .nale → more = [])

theorem outputGrows_of_extended (i : Instr) (h : OutputExtended s t) : OutputGrows i s t := by
  obtain ⟨hwptr, hdesc, hbytes⟩ := h
  exact ⟨hwptr, hbytes, [], by simp [hdesc], fun _ => rfl⟩

theorem outputExtended_of_same (hwptr : t.wptr = s.wptr) (hdesc : t.desc = s.desc) (hout : t.out = s.out) :
    OutputExtended s t :=
  ⟨hwptr.ge, hdesc, fun k _ => by simp only [State.outByte, hwptr, hout]⟩

/-- Bytes written at wptr leave those below it, whatever becomes of the bit writer. -/
theorem outputExtended_of_outBytes {w : BitWriter} {bytes : List Byte}
    (h : outBytes { s with bw := w } bytes = .ok t) : OutputExtended s t := by
  refine ⟨?_, ?_, fun k hk => (outByte_of_outBytes h k).trans (if_pos hk)⟩
  all_goals obtain ⟨-, rfl⟩ := (outBytes_ok_iff _ _ _).1 h
  · exact Nat.le_add_right _ _
  · rfl

theorem Codes.outputExtended (h : Codes s t) : OutputExtended s t := by
  obtain ⟨c, bits, hw⟩ := h.exists_writeBits
  exact outputExtended_of_outBytes (s := s.storeCoder c) hw

/-- A closed unit adds its descriptor (R342). -/
theorem outputGrows_closeNal (h : OutputExtended s t) : OutputGrows .nale s t.closeNal := by
  obtain ⟨hwptr, hdesc, hbytes⟩ := h
  exact ⟨hwptr, hbytes, _, by rw [closeNal_desc, hdesc], fun h => absurd rfl h⟩

/-- A command that completes, NALX aside: it writes no output, it writes bytes at wptr, or it closes a unit. -/
theorem Completes.outputGrows {i : Instr} (h : Completes s i t) (hx : i ≠ .nalx) : OutputGrows i s t := by
  cases h with
  | nop => exact outputGrows_of_extended _ (outputExtended_of_same rfl rfl rfl)
  | setqp _ => exact outputGrows_of_extended _ (outputExtended_of_same rfl rfl rfl)
  | forward _ _ => exact outputGrows_of_extended _ (outputExtended_of_same rfl rfl rfl)
  | inverse _ _ => exact outputGrows_of_extended _ (outputExtended_of_same rfl rfl rfl)
  | rlscan _ => exact outputGrows_of_extended _ (outputExtended_of_same rfl rfl rfl)
  | cinit => exact outputGrows_of_extended _ (outputExtended_of_same rfl rfl rfl)
  | code _ codes => exact outputGrows_of_extended _ codes.outputExtended
  | terminate codes => exact outputGrows_of_extended _ codes.outputExtended
  | cres codes => exact outputGrows_of_extended _ codes.outputExtended
  | nalb _ _ header =>
    have hext := outputExtended_of_outBytes (w := s.bw) header
    exact outputGrows_of_extended _ hext
  | nale _ _ ends => exact outputGrows_closeNal (outputExtended_of_outBytes ends)
  | nalx _ => exact absurd rfl hx
  | bits _ _ written => exact outputGrows_of_extended _ (outputExtended_of_outBytes written)
  | bytes _ _ written => exact outputGrows_of_extended _ (outputExtended_of_outBytes written)

end

/-- Settles O31: a completed command by `Completes`, a refused one because an error record keeps the output. -/
theorem outputOnlyGrows : Obligations.OutputOnlyGrows := by
  unfold Obligations.OutputOnlyGrows
  intro i s t h hx
  rcases exec_cases h with ⟨u, hu, rfl⟩ | ⟨e, lo, hi, rfl⟩
  · obtain ⟨hwptr, hbytes, hdesc⟩ := hu.outputGrows hx
    simpa only [State.outByte, retire_wptr, retire_out, retire_desc] using ⟨hwptr, hbytes, hdesc⟩
  · exact outputGrows_of_extended i (outputExtended_of_same (recordError_wptr ..) (recordError_desc ..)
      (recordError_out ..))

end Sys2Proof.Machine

/-! SUPPORT. The words of a command by their fields (R110 to R113): the reserved bits of each format as fields, the two
directions of decoding and encoding, and the statements of 30_encoding.md. -/

namespace Sys2Proof.Machine

/-! ### Fields of a word -/

section
variable {w v : Nat} (x : BitVec w) (y : BitVec v) {off len : Nat}

/-- The library's lemma, found by `simp` when the width of the append is written as a numeral. -/
theorem extractLsb'_append_high (h : v ≤ off) :
    BitVec.extractLsb' off len (no_index (x ++ y)) = x.extractLsb' (off - v) len :=
  BitVec.extractLsb'_append_eq_of_le h

/-- The library's lemma, found by `simp` when the width of the append is written as a numeral. -/
theorem extractLsb'_append_low (h : off + len ≤ v) :
    BitVec.extractLsb' off len (no_index (x ++ y)) = y.extractLsb' off len :=
  BitVec.extractLsb'_append_eq_of_add_le h

end

theorem bit_getElem {w : Nat} (v : BitVec w) {k : Nat} (h : k < w) : bit v[k] = v.extractLsb' k 1 := by
  ext i hi
  simp [bit, Nat.lt_one_iff.1 hi, h]

@[simp] theorem bit_beq_one (b : Bool) : (bit b == 1#1) = b := by
  cases b <;> rfl

/-! ### Reserved bits as fields (R111) -/

theorem and_or_eq_zero_iff (v a b : Word) : v &&& (a ||| b) = 0 ↔ v &&& a = 0 ∧ v &&& b = 0 := by
  rw [BitVec.and_or_distrib_left]
  exact BitVec.or_eq_zero_iff

theorem and_fieldMask_eq_zero_iff (v : Word) (lo len : Nat) :
    v &&& (BitVec.allOnes len).setWidth 32 <<< lo = 0 ↔ field v lo len = 0 := by
  simp only [BitVec.eq_of_getLsbD_eq_iff, field, BitVec.getLsbD_and, BitVec.getLsbD_shiftLeft, BitVec.getLsbD_setWidth,
    BitVec.getLsbD_allOnes, BitVec.getLsbD_extractLsb']
  constructor
  · intro h k hk
    have := h (lo + k)
    have := v.getLsbD_of_ge (lo + k)
    grind
  · intro h k hk
    have := h (k - lo)
    grind

/-- The word with 1 in the bits of the given fields (lowest bit, length). -/
def fieldsMask (fields : List (Nat × Nat)) : Word :=
  fields.foldr (fun r m => (BitVec.allOnes r.2).setWidth 32 <<< r.1 ||| m) 0

theorem and_fieldsMask_eq_zero_iff (v : Word) (fields : List (Nat × Nat)) :
    v &&& fieldsMask fields = 0 ↔ ∀ r ∈ fields, field v r.1 r.2 = 0 := by
  induction fields with
  | nil => simp [fieldsMask]
  | cons r rs ih =>
    rw [List.forall_mem_cons, ← ih, ← and_fieldMask_eq_zero_iff, ← and_or_eq_zero_iff]
    rfl

/-- The reserved fields of each format, over lo and hi (R111). -/
def reservedFields : Format → List (Nat × Nat) × List (Nat × Nat)
  | .n => ([(0, 26)], [(0, 32)])
  | .q => ([(21, 5), (13, 3), (6, 2)], [(0, 32)])
  | .t => ([(0, 2)], [(0, 32)])
  | .sRlscan => ([(22, 4), (0, 2)], [(3, 29)])
  | .sCres => ([(22, 4), (0, 12)], [(6, 26)])
  | .ci => ([(22, 2), (1, 15)], [(0, 32)])
  | .cd => ([(1, 15)], [(0, 32)])
  | .cb => ([(1, 25)], [(0, 32)])
  | .v => ([(22, 4), (0, 16)], [])
  | .u => ([(0, 26)], [])
  | .h => ([(21, 3), (0, 16)], [(0, 32)])
  | .p => ([(22, 4), (0, 12)], [(11, 21)])

theorem reservedBits_eq (f : Format) :
    reservedBits f = (fieldsMask (reservedFields f).1, fieldsMask (reservedFields f).2) := by
  cases f <;> decide

theorem reservedClear_iff (f : Format) (c : Command) :
    reservedClear f c = true ↔ c.lo &&& (reservedBits f).1 = 0 ∧ c.hi &&& (reservedBits f).2 = 0 := by
  simp [reservedClear]

/-- No reserved bit is 1 exactly where every reserved field is 0. -/
theorem reservedClear_iff_fields (f : Format) (c : Command) : reservedClear f c = true ↔
    (∀ r ∈ (reservedFields f).1, field c.lo r.1 r.2 = 0) ∧ ∀ r ∈ (reservedFields f).2, field c.hi r.1 r.2 = 0 := by
  rw [reservedClear_iff, reservedBits_eq, and_fieldsMask_eq_zero_iff, and_fieldsMask_eq_zero_iff]

/-! ### Decoding, by the opcode map and the reserved bits -/

theorem decode_of_opcodeMap_none {c : Command} (h : opcodeMap c = none) : decode c = .error .illegalOpcode := by
  simp [decode, h]

theorem decode_of_opcodeMap {c : Command} {f : Format} {i : Instr} (h : opcodeMap c = some (f, i)) :
    decode c = if reservedClear f c then .ok i else .error .reservedNonzero := by
  simp [decode, h]

theorem decode_ok_iff (c : Command) (i : Instr) :
    decode c = .ok i ↔ ∃ f, opcodeMap c = some (f, i) ∧ reservedClear f c = true := by
  rcases hmap : opcodeMap c with _ | ⟨f, j⟩
  · simp [decode_of_opcodeMap_none hmap]
  · rw [decode_of_opcodeMap hmap]
    split <;> simp [*]

theorem decode_illegalOpcode_iff (c : Command) : decode c = .error .illegalOpcode ↔ opcodeMap c = none := by
  rcases hmap : opcodeMap c with _ | ⟨f, i⟩
  · simp [decode_of_opcodeMap_none hmap]
  · rw [decode_of_opcodeMap hmap]
    split <;> simp

/-! ### An instruction's words decode to it -/

/-- The format of each command (R113). -/
def formatOf : Instr → Format
  | .nop | .nale | .nalx | .align | .trail => .n
  | .setqp _ _ _ => .q
  | .tq4 _ | .tq8 _ | .tqldc _ | .tqcdc _ | .dq4 _ | .dq8 _ | .dqldc _ | .dqcdc _ => .t
  | .rlscan _ _ _ => .sRlscan
  | .cres _ _ _ _ => .sCres
  | .cinit _ _ _ => .ci
  | .cdec _ _ => .cd
  | .cbyp _ | .cterm _ => .cb
  | .cbypn _ _ | .putb _ _ => .v
  | .putue _ | .putse _ => .u
  | .nalb _ _ => .h
  | .putbytes _ _ => .p

theorem opcodeMap_encode (i : Instr) : opcodeMap (encode i) = some (formatOf i, i) := by
  cases i <;>
    simp [opcodeMap, encode, encodeT, tOps, formatOf, Command.opcode, field, BitVec.getLsbD_eq_extractLsb',
      -BitVec.getLsbD_eq_getElem, extractLsb'_append_high, extractLsb'_append_low]

theorem reservedClear_encode (i : Instr) : reservedClear (formatOf i) (encode i) = true := by
  rw [reservedClear_iff_fields]
  cases i <;>
    simp [reservedFields, encode, encodeT, formatOf, field, extractLsb'_append_high, extractLsb'_append_low]

theorem decode_encode (i : Instr) : decode (encode i) = .ok i :=
  (decode_ok_iff _ _).2 ⟨formatOf i, opcodeMap_encode i, reservedClear_encode i⟩

/-! ### A command that decodes is the encoding -/

/-- The operand fields of each format, over lo and hi (R111). -/
def operandFields : Format → List (Nat × Nat) × List (Nat × Nat)
  | .n => ([], [])
  | .q => ([(16, 5), (8, 5), (0, 6)], [])
  | .t => ([(25, 1), (23, 2), (22, 1), (12, 10), (2, 10)], [])
  | .sRlscan => ([(12, 10), (2, 10)], [(0, 3)])
  | .sCres => ([(12, 10)], [(5, 1), (3, 2), (0, 3)])
  | .ci => ([(24, 2), (16, 6), (0, 1)], [])
  | .cd => ([(16, 10), (0, 1)], [])
  | .cb => ([(0, 1)], [])
  | .v => ([(16, 6)], [(0, 32)])
  | .u => ([], [(0, 32)])
  | .h => ([(24, 2), (16, 5)], [])
  | .p => ([(12, 10)], [(0, 11)])

/-- Every bit of lo lies in the opcode, a reserved field or an operand field. -/
theorem fieldsMask_lo (f : Format) :
    fieldsMask ((26, 6) :: (reservedFields f).1 ++ (operandFields f).1) = BitVec.allOnes 32 := by
  cases f <;> decide

/-- Every bit of hi lies in a reserved field or an operand field. -/
theorem fieldsMask_hi (f : Format) :
    fieldsMask ((reservedFields f).2 ++ (operandFields f).2) = BitVec.allOnes 32 := by
  cases f <;> decide

/-- Words that agree on fields covering every bit are equal. -/
theorem word_eq_of_fields {v w : Word} {fields : List (Nat × Nat)} (hcover : fieldsMask fields = BitVec.allOnes 32)
    (h : ∀ r ∈ fields, field v r.1 r.2 = field w r.1 r.2) : v = w := by
  have hxor : (v ^^^ w) &&& fieldsMask fields = 0#32 := by
    refine (and_fieldsMask_eq_zero_iff _ _).2 ?_
    intro r hr
    rw [field, BitVec.extractLsb'_xor]
    simpa [field] using h r hr
  rwa [hcover, BitVec.and_allOnes, BitVec.xor_eq_zero_iff] at hxor

/-- The operands a command is assembled from are put back in their fields. -/
theorem operandFields_encode {c : Command} {f : Format} {i : Instr} (h : opcodeMap c = some (f, i)) :
    f = formatOf i ∧ (encode i).opcode.toNat = c.opcode.toNat ∧
    (∀ r ∈ (operandFields f).1, field (encode i).lo r.1 r.2 = field c.lo r.1 r.2) ∧
    ∀ r ∈ (operandFields f).2, field (encode i).hi r.1 r.2 = field c.hi r.1 r.2 := by
  unfold opcodeMap at h
  split at h <;> cases h
  all_goals
    refine ⟨rfl, ?_, ?_⟩
    · rw [‹c.opcode.toNat = _›]
      simp [Command.opcode, encode, encodeT, field, extractLsb'_append_high]
    · simp [operandFields, encode, encodeT, tOps, field, bit_getElem, extractLsb'_append_high, extractLsb'_append_low]

/-- A command that decodes is the encoding of what it decodes to: the two agree in the opcode, the reserved fields and
the operand fields. -/
theorem encode_of_decode {c : Command} {i : Instr} (h : decode c = .ok i) : encode i = c := by
  obtain ⟨f, hmap, hclear⟩ := (decode_ok_iff _ _).1 h
  obtain ⟨rfl, hop, hlo, hhi⟩ := operandFields_encode hmap
  obtain ⟨hlo0, hhi0⟩ := (reservedClear_iff_fields _ _).1 hclear
  obtain ⟨hlo0', hhi0'⟩ := (reservedClear_iff_fields _ _).1 (reservedClear_encode i)
  have hl : (encode i).lo = c.lo := by
    refine word_eq_of_fields (fieldsMask_lo (formatOf i)) ?_
    simp only [List.cons_append, List.forall_mem_cons, List.forall_mem_append]
    exact ⟨BitVec.eq_of_toNat_eq hop, fun r hr => (hlo0' r hr).trans (hlo0 r hr).symm, hlo⟩
  have hh : (encode i).hi = c.hi := by
    refine word_eq_of_fields (fieldsMask_hi (formatOf i)) ?_
    simp only [List.forall_mem_append]
    exact ⟨fun r hr => (hhi0' r hr).trans (hhi0 r hr).symm, hhi⟩
  exact congrArg₂ Command.mk hl hh

/-! ### The bit numbering of opcode_table.json -/

theorem commandOfBits_words (c : Command) : commandOfBits 64 (c.hi.toNat * 2 ^ 32 + c.lo.toNat) = c := by
  have hlo := c.lo.isLt
  have hhi := c.hi.isLt
  rw [commandOfBits, Nat.mod_eq_of_lt (by omega)]
  have hl : BitVec.ofNat 32 (c.hi.toNat * 2 ^ 32 + c.lo.toNat) = c.lo := by bv_omega
  have hh : BitVec.ofNat 32 ((c.hi.toNat * 2 ^ 32 + c.lo.toNat) / 2 ^ 32) = c.hi := by bv_omega
  exact congrArg₂ Command.mk hl hh

theorem decodeTableWord_words (c : Command) {i : Instr} (h : decode c = .ok i) :
    decodeTableWord 64 (c.hi.toNat * 2 ^ 32 + c.lo.toNat) = some i := by
  rw [decodeTableWord, commandOfBits_words, h]

/-- Settles O1: the encoding of an instruction has its opcode, its operands and no reserved bit; and two commands of one
format that agree in the opcode and the operands, with no reserved bit, are equal. -/
theorem decodeAndEncodeAgree : Obligations.DecodeAndEncodeAgree := by
  unfold Obligations.DecodeAndEncodeAgree
  exact ⟨fun i => ⟨decode_encode i, decodeTableWord_words _ (decode_encode i)⟩, fun c i => encode_of_decode⟩

/-! ### Decode errors (R114, R116) -/

theorem toNat_shiftRight_26 (c : Command) : (c.lo >>> 26).toNat = c.opcode.toNat := by
  have := c.lo.isLt
  simp only [Command.opcode, field, BitVec.extractLsb'_toNat, BitVec.toNat_ushiftRight, Nat.shiftRight_eq_div_pow]
  omega

/-- The opcodes of no command (R116). -/
theorem opcodeMap_eq_none_iff (c : Command) : opcodeMap c = none ↔
    (0x02 ≤ c.opcode.toNat ∧ c.opcode.toNat ≤ 0x07) ∨ (0x11 ≤ c.opcode.toNat ∧ c.opcode.toNat ≤ 0x17) ∨
    (0x1E ≤ c.opcode.toNat ∧ c.opcode.toNat ≤ 0x1F) ∨ 0x29 ≤ c.opcode.toNat := by
  unfold opcodeMap
  split <;> simp only [reduceCtorEq, true_iff, false_iff, imp_false] at * <;> omega

theorem refused_recordError (s : State) (e : ErrCode) (lo hi : Word) :
    Refused s (s.recordError e lo hi) (errorNumber e) lo hi := by
  unfold Refused State.recordError irqErr
  rfl

/-- The engine's step on a command that does not decode takes it from the FIFO and records the error (R114, R372). -/
theorem step_of_decode_error {s : State} {c : Command} {rest : List Command} {e : ErrCode} (h : AtHead s c rest)
    (hd : decode c = .error e) :
    ∃ t, step s = .next t ∧ Refused { s with fifo := rest } t (errorNumber e) c.lo c.hi := by
  obtain ⟨hagenda, hen, herr, hfifo⟩ := h
  have hready : s.engineReady = true := (engineReady_iff s).2 ⟨hen, herr, by simp [hfifo]⟩
  refine ⟨_, ?_, refused_recordError _ e c.lo c.hi⟩
  simp [step_of_agenda_nil s hagenda, engineStep, hready, hfifo, hd]

/-- Settles O3, by the opcode map's own cases, and the engine's step on a command that does not decode. -/
theorem unlistedOpcodesAreIllegal : Obligations.UnlistedOpcodesAreIllegal := by
  unfold Obligations.UnlistedOpcodesAreIllegal
  refine ⟨fun c => ?_, fun s c rest h hd => step_of_decode_error h hd⟩
  rw [decode_illegalOpcode_iff, opcodeMap_eq_none_iff, toNat_shiftRight_26]

/-- Each row of the table of masks has the masks of its opcode's format (R111, R113). -/
theorem opcodeMap_of_reservedMasks {c : Command} {opcode : Nat} {lo hi : Word}
    (hrow : (opcode, lo, hi) ∈ reservedMasks) (hop : c.opcode.toNat = opcode) :
    ∃ f i, opcodeMap c = some (f, i) ∧ reservedBits f = (lo, hi) := by
  subst hop
  unfold opcodeMap
  split
  case h_27 => simp_all [reservedMasks]
  all_goals
    rw [‹c.opcode.toNat = _›] at hrow
    obtain ⟨rfl, rfl⟩ : lo = _ ∧ hi = _ := by simpa [reservedMasks] using hrow
    exact ⟨_, _, rfl, rfl⟩

/-- Settles O4: a row of the table has the masks the decoder checks. -/
theorem reservedBitsAreRefused : Obligations.ReservedBitsAreRefused := by
  unfold Obligations.ReservedBitsAreRefused
  intro c opcode lo hi hrow hop
  obtain ⟨f, i, hmap, hbits⟩ := opcodeMap_of_reservedMasks hrow (toNat_shiftRight_26 c ▸ hop)
  have hclear := reservedClear_iff f c
  rw [hbits] at hclear
  refine ⟨fun hzero => ⟨i, ?_⟩, fun hone s rest h => step_of_decode_error (e := .reservedNonzero) h ?_⟩
  · rw [decode_of_opcodeMap hmap, if_pos (hclear.2 hzero)]
  · rw [decode_of_opcodeMap hmap, if_neg (by rw [hclear]; tauto)]

/-- Settles O2, by evaluation of the decoder on each pair of words. -/
theorem printedWordsDecode : Obligations.PrintedWordsDecode := by
  unfold Obligations.PrintedWordsDecode
  decide

end Sys2Proof.Machine

/-! SUPPORT. Field values (R115): the field check comes first in every command, and no later check answers one of its
errors. -/

namespace Sys2Proof.Machine

/-! ### The field check -/

theorem checkFields_ok_iff (i : Instr) : checkFields i = .ok () ↔ i.wellFormed = true := by
  cases i with
  | nop => exact Laws.Fields.nop
  | setqp qpy cboff croff => exact Laws.Fields.setqp qpy cboff croff
  | tq4 o => exact Laws.Fields.tq4 o
  | tq8 o => exact Laws.Fields.tq8 o
  | tqldc o => exact Laws.Fields.tqldc o
  | tqcdc o => exact Laws.Fields.tqcdc o
  | dq4 o => exact Laws.Fields.dq4 o
  | dq8 o => exact Laws.Fields.dq8 o
  | dqldc o => exact Laws.Fields.dqldc o
  | dqcdc o => exact Laws.Fields.dqcdc o
  | rlscan src dst cat => exact Laws.Fields.rlscan src dst cat
  | cinit model sliceqp eng => exact Laws.Fields.cinit model sliceqp eng
  | cdec ctx bin => exact Laws.Fields.cdec ctx bin
  | cbyp bin => exact Laws.Fields.cbyp bin
  | cbypn n value => exact Laws.Fields.cbypn n value
  | cterm bin => exact Laws.Fields.cterm bin
  | cres src cat cbfinc codeCbf => exact Laws.Fields.cres src cat cbfinc codeCbf
  | nalb refIdc nalType => exact Laws.Fields.nalb refIdc nalType
  | nale => exact Laws.Fields.nale
  | nalx => exact Laws.Fields.nalx
  | putb n value => exact Laws.Fields.putb n value
  | putue value => exact Laws.Fields.putue value
  | putse value => exact Laws.Fields.putse value
  | align => exact Laws.Fields.align
  | trail => exact Laws.Fields.trail
  | putbytes src count => exact Laws.Fields.putbytes src count

theorem exists_checkFields_error {i : Instr} (h : i.wellFormed = false) : ∃ e, checkFields i = .error e := by
  cases hc : checkFields i with
  | ok => simp [(checkFields_ok_iff i).1 hc] at h
  | error e => exact ⟨e, rfl⟩

/-- The field check answers the error the table names (R115). -/
theorem errorNumber_of_checkFields {i : Instr} {e : ErrCode} (h : checkFields i = .error e) :
    errorNumber e = fieldError i := by
  cases i with
  | cinit model sliceqp eng =>
    simp only [checkFields, check_bind_error_iff, require_error_iff, require_ok_iff] at h
    rcases h with ⟨hqp, rfl⟩ | ⟨hqp, -, rfl⟩
    · simp [fieldError, errorNumber, of_decide_eq_false hqp]
    · simp [fieldError, errorNumber, of_decide_eq_true hqp]
  | nop | cbyp _ | cterm _ | nale | nalx | putue _ | putse _ | align | trail => cases h
  | _ =>
    obtain ⟨-, rfl⟩ := (require_error_iff _ _ _).1 h
    rfl

/-- The field check is the first check of every command (R114). -/
theorem effectOf_of_checkFields {i : Instr} {e : ErrCode} (h : checkFields i = .error e) (s : State) :
    effectOf i s = .error e := by
  cases i with
  | nop | cbyp _ | cterm _ | nale | nalx | putue _ | putse _ | align | trail => cases h
  | _ => simp [effectOf, forwardBlock, inverseBlock, h]

theorem commandRefused_of_effectOf {i : Instr} {s : State} {e : ErrCode} (h : effectOf i s = .error e) :
    CommandRefused i s (errorNumber e) :=
  ⟨_, by rw [exec_eq_finish, h, finish_error], refused_recordError _ _ _ _⟩

/-! ### The errors a computation can answer -/

/-- Every error of the computation meets p. -/
def ErrorsMeet {α : Type} (p : ErrCode → Prop) (x : Except ErrCode α) : Prop :=
  ∀ e, x = .error e → p e

section
variable {α β : Type} {p : ErrCode → Prop}

theorem ErrorsMeet.ok (a : α) : ErrorsMeet p (.ok a : Except ErrCode α) := nofun

theorem ErrorsMeet.bind {x : Except ErrCode α} {f : α → Except ErrCode β} (hx : ErrorsMeet p x)
    (hf : ∀ a, ErrorsMeet p (f a)) : ErrorsMeet p (x >>= f) := by
  intro e h
  rcases (bind_error_iff x f e).1 h with hx' | ⟨a, -, hf'⟩
  · exact hx e hx'
  · exact hf a e hf'

theorem ErrorsMeet.ite {c : Prop} {_ : Decidable c} {x y : Except ErrCode α} (hx : ErrorsMeet p x)
    (hy : ErrorsMeet p y) : ErrorsMeet p (if c then x else y) := by
  split
  · exact hx
  · exact hy

theorem errorsMeet_require (b : Bool) {e : ErrCode} (h : p e) : ErrorsMeet p (require b e) := by
  intro f hf
  obtain ⟨-, rfl⟩ := (require_error_iff b e f).1 hf
  exact h

/-! ### Coding stops with OUTST_OVERFLOW only (R272) -/

variable (hp : p .outstOverflow)
include hp

theorem errorsMeet_addOutstanding (c : Coder) : ErrorsMeet p (addOutstanding c) := by
  unfold addOutstanding
  refine .ite (.ok _) ?_
  rintro _ ⟨⟩
  exact hp

theorem errorsMeet_renormStep (c : Coder) : ErrorsMeet p (renormStep c) := by
  unfold renormStep
  exact .ite (.ok _) (.ite (.ok _) (.bind (errorsMeet_addOutstanding hp _) fun _ => .ok _))

theorem errorsMeet_renormLoop (n : Nat) (c : Coder) : ErrorsMeet p (renormLoop n c) := by
  induction n generalizing c with
  | zero => exact .ok _
  | succ n ih =>
    unfold renormLoop
    exact .ite (.bind (errorsMeet_renormStep hp c) ih) (.ok _)

theorem errorsMeet_codeBin (c : Coder) (b : Bin) : ErrorsMeet p (codeBin c b) := by
  have hrenorm : ∀ d, ErrorsMeet p (renorm d) := errorsMeet_renormLoop hp 8
  cases b with
  | decision i b =>
    unfold codeBin encodeDecision
    exact .ite (hrenorm _) (hrenorm _)
  | bypass b =>
    unfold codeBin encodeBypass
    exact .ite (.ok _) (.ite (.ok _) (errorsMeet_addOutstanding hp _))
  | terminate b =>
    cases b with
    | false => exact hrenorm _
    | true => exact .bind (hrenorm _) fun _ => .ok _

theorem errorsMeet_codeBins (c : Coder) (bs : List Bin) : ErrorsMeet p (codeBins c bs) := by
  induction bs generalizing c with
  | nil => exact .ok _
  | cons b bs ih => exact .bind (errorsMeet_codeBin hp c b) ih

end

/-! ### No check after the field check answers an error of a field value -/

/-- The errors of field values (R115). -/
def isFieldError : ErrCode → Bool
  | .badField | .qpRange | .ctxRange => true
  | _ => false

theorem errorNumber_ne_of_not_isFieldError {e : ErrCode} (h : isFieldError e = false) :
    errorNumber e ≠ 0x03 ∧ errorNumber e ≠ 0x04 ∧ errorNumber e ≠ 0x08 := by
  revert h
  cases e <;> decide

/-- A computation that answers no error of a field value. -/
abbrev NoFieldError {α : Type} (x : Except ErrCode α) : Prop :=
  ErrorsMeet (isFieldError · = false) x

section
variable (s : State) (m : Bram)

theorem noFieldError_checkRange (a len : Nat) : NoFieldError (checkRange a len) :=
  errorsMeet_require _ rfl

theorem noFieldError_checkInput (lo hi : Int) (xs : List Int) : NoFieldError (checkInput lo hi xs) :=
  errorsMeet_require _ rfl

theorem noFieldError_readWords (as : List Nat) : NoFieldError (readWords m as) := by
  intro e h
  obtain ⟨rfl, -⟩ := (readWords_error_iff m as e).1 h
  rfl

theorem noFieldError_readBlock (src dst len : Nat) : NoFieldError (readBlock m src dst len) :=
  .bind (noFieldError_checkRange _ _) fun _ => .bind (noFieldError_checkRange _ _) fun _ => noFieldError_readWords m _

theorem noFieldError_scanBlock (src cat : Nat) : NoFieldError (scanBlock m src cat) :=
  .bind (noFieldError_checkRange _ _) fun _ => .bind (noFieldError_readWords _ _) fun _ =>
    .bind (noFieldError_checkInput _ _ _) fun _ => .ok _

theorem noFieldError_outBytes (bytes : List Byte) : NoFieldError (outBytes s bytes) := by
  intro e h
  obtain ⟨-, rfl⟩ := (outBytes_error_iff s bytes e).1 h
  rfl

theorem noFieldError_writeBits (bits : List Bool) : NoFieldError (writeBits s bits) :=
  noFieldError_outBytes _ _

theorem noFieldError_checkRawBits : NoFieldError (checkRawBits s) :=
  .bind (errorsMeet_require _ rfl) fun _ => errorsMeet_require _ rfl

theorem noFieldError_checkCoding : NoFieldError (checkCoding s) :=
  .bind (errorsMeet_require _ rfl) fun _ => errorsMeet_require _ rfl

theorem noFieldError_codeAndWrite (bins : List Bin) : NoFieldError (codeAndWrite bins s) :=
  .bind (errorsMeet_codeBins (p := (isFieldError · = false)) rfl _ _) fun _ => noFieldError_writeBits _ _

theorem noFieldError_checkCoding_codeAndWrite (bins : List Bin) :
    NoFieldError (do checkCoding s; codeAndWrite bins s) :=
  .bind (noFieldError_checkCoding s) fun _ => noFieldError_codeAndWrite s bins

theorem noFieldError_forwardBlock {i : Instr} (hi : NoFieldError (checkFields i)) (o : TOps) (len : Nat) (bound : Int)
    (levels : List Int → List (Int × Bool)) : NoFieldError (forwardBlock i o len bound levels s) :=
  .bind hi fun _ => .bind (noFieldError_readBlock _ _ _ _) fun _ => .bind (noFieldError_checkInput _ _ _) fun _ => .ok _

theorem noFieldError_inverseBlock {i : Instr} (hi : NoFieldError (checkFields i)) (o : TOps) (len : Nat)
    (residuals : List Word → List Word) : NoFieldError (inverseBlock i o len residuals s) :=
  .bind hi fun _ => .bind (noFieldError_readBlock _ _ _ _) fun _ => .bind (noFieldError_checkInput _ _ _) fun _ => .ok _

theorem noFieldError_rlscanEffect (src dst cat : Nat) : NoFieldError (rlscanEffect src dst cat s) :=
  .bind (noFieldError_scanBlock _ _ _) fun _ => .bind (noFieldError_checkRange _ _) fun _ => .ok _

theorem noFieldError_cinitEffect (model : BitVec 2) (sliceqp : BitVec 6) (eng : Bool) :
    NoFieldError (cinitEffect model sliceqp eng s) :=
  .bind (errorsMeet_require _ rfl) fun _ => .ok _

theorem noFieldError_cresEffect (src cat cbfinc : Nat) (codeCbf : Bool) :
    NoFieldError (cresEffect src cat cbfinc codeCbf s) :=
  .bind (noFieldError_scanBlock _ _ _) fun _ => .bind (noFieldError_checkCoding s) fun _ =>
    .bind (errorsMeet_require _ rfl) fun _ => .bind (noFieldError_codeAndWrite s _) fun _ => .ok _

theorem noFieldError_nalbEffect (refIdc : BitVec 2) (nalType : BitVec 5) :
    NoFieldError (nalbEffect refIdc nalType s) :=
  .bind (errorsMeet_require _ rfl) fun _ => .bind (errorsMeet_require _ rfl) fun _ =>
    .bind (noFieldError_outBytes s _) fun _ => .ok _

theorem noFieldError_naleEffect : NoFieldError (naleEffect s) :=
  .bind (errorsMeet_require _ rfl) fun _ => .bind (errorsMeet_require _ rfl) fun _ =>
    .bind (errorsMeet_require _ rfl) fun _ => .bind (noFieldError_outBytes s _) fun _ => .ok _

theorem noFieldError_nalxEffect : NoFieldError (nalxEffect s) :=
  .bind (errorsMeet_require _ rfl) fun _ => .ok _

theorem noFieldError_putbytesEffect (src count : Nat) : NoFieldError (putbytesEffect src count s) :=
  .bind (noFieldError_checkRawBits s) fun _ => .bind (errorsMeet_require _ rfl) fun _ =>
    .bind (errorsMeet_require _ rfl) fun _ => .bind (noFieldError_readWords _ _) fun _ => noFieldError_outBytes _ _

end

/-- A command with admitted field values answers no error of a field value. -/
theorem noFieldError_effectOf {i : Instr} (h : i.wellFormed = true) (s : State) : NoFieldError (effectOf i s) := by
  have hi : NoFieldError (checkFields i) := (checkFields_ok_iff i).2 h ▸ .ok ()
  cases i with
  | nop => exact .ok _
  | setqp qpy cboff croff => exact .bind hi fun _ => .ok _
  | tq4 o | tq8 o | tqldc o | tqcdc o => exact noFieldError_forwardBlock s hi _ _ _ _
  | dq4 o | dq8 o | dqldc o | dqcdc o => exact noFieldError_inverseBlock s hi _ _ _
  | rlscan src dst cat => exact .bind hi fun _ => noFieldError_rlscanEffect s _ _ _
  | cinit model sliceqp eng => exact .bind hi fun _ => noFieldError_cinitEffect s _ _ _
  | cdec ctx bin => exact .bind hi fun _ => noFieldError_checkCoding_codeAndWrite s _
  | cbyp bin => exact noFieldError_checkCoding_codeAndWrite s _
  | cbypn n value => exact .bind hi fun _ => noFieldError_checkCoding_codeAndWrite s _
  | cterm bin =>
    exact .bind (noFieldError_checkCoding s) fun _ => .bind (noFieldError_codeAndWrite s _) fun _ => .ok _
  | cres src cat cbfinc codeCbf => exact .bind hi fun _ => noFieldError_cresEffect s _ _ _ _
  | nalb refIdc nalType => exact .bind hi fun _ => noFieldError_nalbEffect s _ _
  | nale => exact noFieldError_naleEffect s
  | nalx => exact noFieldError_nalxEffect s
  | putb n value =>
    exact .bind hi fun _ => .bind (noFieldError_checkRawBits s) fun _ => noFieldError_writeBits s _
  | putue value | putse value =>
    exact .bind (noFieldError_checkRawBits s) fun _ => .bind (errorsMeet_require _ rfl) fun _ =>
      noFieldError_writeBits s _
  | align | trail => exact .bind (noFieldError_checkRawBits s) fun _ => noFieldError_writeBits s _
  | putbytes src count => exact .bind hi fun _ => noFieldError_putbytesEffect s _ _

/-- Settles O5: a field value out of the table fails the first check; else the field check passes, and no later one
answers its errors. -/
theorem fieldValuesAreChecked : Obligations.FieldValuesAreChecked := by
  unfold Obligations.FieldValuesAreChecked
  refine fun i s herr hcode => ⟨fun hbad => ?_, fun hgood t hexec => ?_⟩
  · obtain ⟨e, he⟩ := exists_checkFields_error hbad
    rw [← errorNumber_of_checkFields he]
    exact commandRefused_of_effectOf (effectOf_of_checkFields he s)
  · rcases (exec_next_iff i s t).1 hexec with ⟨u, hu, rfl⟩ | ⟨e, he, rfl⟩
    · rw [retire_errcode, (completes_of_effectOf hu).ownWritesOnly.host.errcode, hcode]
      decide
    · rw [recordError_of_clear herr]
      exact errorNumber_ne_of_not_isFieldError (noFieldError_effectOf hgood s e he)

end Sys2Proof.Machine

/-! SUPPORT. The source block of a command: the checks that the block commands, RLSCAN and CRES share, in their order
(R150, R200, R242), what they answer, and the statement on their refusals. -/

namespace Sys2Proof.Machine

/-! ### Reading a block -/

/-- The words read at the given offsets of a block, when each is valid. -/
theorem readWords_offsets {m : Bram} {a : Nat} {offsets : List Nat} {c : Nat → Word}
    (h : ∀ k ∈ offsets, m.read (a + k) = some (c k)) :
    readWords m (offsets.map (a + ·)) = .ok (offsets.map c) := by
  rw [readWords_ok_iff, List.map_map, List.map_map]
  exact List.map_congr_left h

theorem readWords_offsets_uninit {m : Bram} {a : Nat} {offsets : List Nat}
    (h : ∃ k ∈ offsets, m.read (a + k) = none) : readWords m (offsets.map (a + ·)) = .error .uninitRead := by
  obtain ⟨k, hk, hnone⟩ := h
  exact (readWords_error_iff _ _ _).2 ⟨rfl, a + k, List.mem_map_of_mem hk, hnone⟩

theorem checkRange_error {a len : Nat} (h : 1024 < a + len) : checkRange a len = .error .bramRange :=
  (require_error_iff _ _ _).2 ⟨by simpa using h, rfl⟩

theorem checkInput_error {lo hi : Int} {xs : List Int} (h : ∃ x ∈ xs, x < lo ∨ hi < x) :
    checkInput lo hi xs = .error .inputRange := by
  refine (require_error_iff _ _ _).2 ⟨?_, rfl⟩
  obtain ⟨x, hx, hout⟩ := h
  refine List.all_eq_false.2 ⟨x, hx, ?_⟩
  simp only [within, Bool.and_eq_true, decide_eq_true_eq]
  omega

/-! ### The checks of a source block, said once -/

/-- A list, or with `skip` its tail: DQ4 with ac = 1 does not range check its first word (R200). -/
def tailIf {α : Type} (skip : Bool) (xs : List α) : List α :=
  if skip then xs.drop 1 else xs

@[simp] theorem tailIf_false {α : Type} (xs : List α) : tailIf false xs = xs := rfl

theorem map_tailIf {α β : Type} (f : α → β) (skip : Bool) (xs : List α) :
    (tailIf skip xs).map f = tailIf skip (xs.map f) := by
  cases skip <;> simp [tailIf]

theorem mem_tailIf_range {skip : Bool} {len k : Nat} :
    k ∈ tailIf skip (List.range len) ↔ k < len ∧ ¬(skip = true ∧ k = 0) := by
  cases skip with
  | false => simp
  | true =>
    rw [tailIf, if_pos rfl, List.range_eq_range', List.drop_range', List.mem_range'_1]
    simp only [true_and]
    omega

/-- The words at the given offsets of a source block, after the checks of the fields, of the blocks' ranges, of the valid
bits and of the values. -/
def checkedSource (i : Instr) (ranges : Except ErrCode Unit) (m : Bram) (src : Nat) (offsets : List Nat) (skip : Bool)
    (lo hi : Int) : Except ErrCode (List Word) := do
  checkFields i
  ranges
  let ws ← readWords m (offsets.map (src + ·))
  checkInput lo hi ((tailIf skip ws).map BitVec.toInt)
  .ok ws

/-- The range checks of a block command's source and destination (R150). -/
def blockRanges (o : TOps) (len : Nat) : Except ErrCode Unit := do
  checkRange o.src.toNat len
  checkRange o.dst.toNat len

theorem blockRanges_ok {o : TOps} {len : Nat} (hsrc : o.src.toNat + len ≤ 1024) (hdst : o.dst.toNat + len ≤ 1024) :
    blockRanges o len = .ok () := by
  simp [blockRanges, check_bind_ok_iff, checkRange_ok_iff, hsrc, hdst]

theorem blockRanges_error {o : TOps} {len : Nat} (h : 1024 < o.src.toNat + len ∨ 1024 < o.dst.toNat + len) :
    blockRanges o len = .error .bramRange := by
  rw [blockRanges, check_bind_error_iff]
  by_cases hsrc : o.src.toNat + len ≤ 1024
  · exact .inr ⟨(checkRange_ok_iff _ _).2 hsrc, checkRange_error (by omega)⟩
  · exact .inl (checkRange_error (by omega))

/-- A forward command is the checks of its source and then its results. -/
theorem forwardBlock_eq (i : Instr) (o : TOps) (len : Nat) (bound : Int) (levels : List Int → List (Int × Bool))
    (s : State) :
    forwardBlock i o len bound levels s =
      checkedSource i (blockRanges o len) s.bram o.src.toNat (List.range len) false (-bound) bound >>= fun ws =>
        .ok (storeLevels s o.dst.toNat o.ac
          (if s.bypass then (ws.map BitVec.toInt).map fun x => (x, false) else levels (ws.map BitVec.toInt))) := by
  simp [forwardBlock, checkedSource, readBlock, blockRanges, blockAddrs, bind_assoc]

/-- An inverse command is the checks of its source and then its results. -/
theorem inverseBlock_eq (i : Instr) (o : TOps) (len : Nat) (residuals : List Word → List Word) (s : State) :
    inverseBlock i o len residuals s =
      checkedSource i (blockRanges o len) s.bram o.src.toNat (List.range len) o.ac (-32768) 32767 >>= fun cs =>
        .ok (s.writeBlock o.dst.toNat (if s.bypass then cs else residuals cs)) := by
  simp [inverseBlock, checkedSource, readBlock, blockRanges, blockAddrs, tailIf, bind_assoc]

theorem checkFields_scanBlock_eq (i : Instr) (s : State) (src cat : Nat) (rest : List Int → Except ErrCode State) :
    (checkFields i >>= fun _ => scanBlock s.bram src cat >>= rest) =
      checkedSource i (checkRange src (scanRange cat)) s.bram src (scanList cat) false (-32768) 32767 >>= fun ws =>
        rest (ws.map BitVec.toInt) := by
  simp [checkedSource, scanBlock, bind_assoc]

section
variable {i : Instr} {ranges : Except ErrCode Unit} {s : State} {src : Nat} {offsets : List Nat} {skip : Bool}
  {lo hi : Int}

/-- The source block read, when every check passes. -/
theorem checkedSource_ok (hwf : i.wellFormed = true) (hranges : ranges = .ok ()) {c : Nat → Word}
    (hread : ∀ k ∈ offsets, s.bram.read (src + k) = some (c k))
    (hin : ∀ k ∈ tailIf skip offsets, lo ≤ (c k).toInt ∧ (c k).toInt ≤ hi) :
    checkedSource i ranges s.bram src offsets skip lo hi = .ok (offsets.map c) := by
  have hinput : checkInput lo hi ((tailIf skip (offsets.map c)).map BitVec.toInt) = .ok () := by
    rw [checkInput_ok_iff, ← map_tailIf, List.map_map]
    simpa using hin
  simp [checkedSource, (checkFields_ok_iff i).2 hwf, hranges, readWords_offsets hread, hinput]

/-- The command makes the checks of a source block first. -/
def ChecksSource (i : Instr) (ranges : Except ErrCode Unit) (s : State) (src : Nat) (offsets : List Nat) (skip : Bool)
    (lo hi : Int) : Prop :=
  ∃ rest, effectOf i s = checkedSource i ranges s.bram src offsets skip lo hi >>= rest

variable (h : ChecksSource i ranges s src offsets skip lo hi) (hwf : i.wellFormed = true)
include h

theorem ChecksSource.refused {e : ErrCode} (he : checkedSource i ranges s.bram src offsets skip lo hi = .error e) :
    CommandRefused i s (errorNumber e) := by
  obtain ⟨rest, hrest⟩ := h
  exact commandRefused_of_effectOf (by rw [hrest, he, error_bind])

include hwf

theorem ChecksSource.refused_bramRange (hranges : ranges = .error .bramRange) : CommandRefused i s 0x05 :=
  h.refused (e := .bramRange) (by simp [checkedSource, (checkFields_ok_iff i).2 hwf, hranges])

variable (hranges : ranges = .ok ())
include hranges

theorem ChecksSource.refused_uninitRead (hnone : ∃ k ∈ offsets, s.bram.read (src + k) = none) :
    CommandRefused i s 0x06 :=
  h.refused (e := .uninitRead)
    (by simp [checkedSource, (checkFields_ok_iff i).2 hwf, hranges, readWords_offsets_uninit hnone])

theorem ChecksSource.refused_inputRange {c : Nat → Word} (hread : ∀ k ∈ offsets, s.bram.read (src + k) = some (c k))
    (hout : ∃ k ∈ tailIf skip offsets, (c k).toInt < lo ∨ hi < (c k).toInt) : CommandRefused i s 0x07 := by
  have hinput : checkInput lo hi ((tailIf skip (offsets.map c)).map BitVec.toInt) = .error .inputRange := by
    refine checkInput_error ?_
    rw [← map_tailIf, List.map_map]
    simpa using hout
  exact h.refused (e := .inputRange)
    (by simp [checkedSource, (checkFields_ok_iff i).2 hwf, hranges, readWords_offsets hread, hinput])

end

/-! ### Which command checks which block -/

theorem residualBound_eq : residualBound = 255 := by decide

theorem dcBound_eq : dcBound = 4080 := by decide

theorem checksSource_forward {i : Instr} {o : TOps} {len : Nat} {bound hi : Int}
    {levels : List Int → List (Int × Bool)} {s : State} (h : effectOf i s = forwardBlock i o len bound levels s)
    (hbound : bound = hi) : ChecksSource i (blockRanges o len) s o.src.toNat (List.range len) false (-hi) hi :=
  hbound ▸ ⟨_, h.trans (forwardBlock_eq ..)⟩

theorem checksSource_inverse {i : Instr} {o : TOps} {len : Nat} {residuals : List Word → List Word} {s : State}
    (h : effectOf i s = inverseBlock i o len residuals s) :
    ChecksSource i (blockRanges o len) s o.src.toNat (List.range len) o.ac (-32768) 32767 :=
  ⟨_, h.trans (inverseBlock_eq ..)⟩

theorem checksSource_rlscan (src dst : BitVec 10) (cat : BitVec 3) (s : State) :
    ChecksSource (.rlscan src dst cat) (checkRange src.toNat (scanRange cat.toNat)) s src.toNat (scanList cat.toNat)
      false (-32768) 32767 :=
  ⟨_, checkFields_scanBlock_eq ..⟩

theorem checksSource_cres (src : BitVec 10) (cat : BitVec 3) (cbfinc : BitVec 2) (codeCbf : Bool) (s : State) :
    ChecksSource (.cres src cat cbfinc codeCbf) (checkRange src.toNat (scanRange cat.toNat)) s src.toNat
      (scanList cat.toNat) false (-32768) 32767 :=
  ⟨_, checkFields_scanBlock_eq ..⟩

/-! ### The words a scan reads (R241) -/

/-- The first word read of a block category: categories 1 and 4 leave word 0 out (R241). -/
def scanFirst (cat : BitVec 3) : Nat :=
  if cat = 1 ∨ cat = 4 then 1 else 0

theorem scanRange_toNat (cat : BitVec 3) :
    scanRange cat.toNat = if cat = 3 then 4 else if cat = 5 then 64 else 16 := by
  revert cat; decide

/-- A scan is an order of the words from the first on. -/
theorem scanList_perm (cat : BitVec 3) (h : cat.toNat ≤ 5) :
    (scanList cat.toNat).Perm (List.range' (scanFirst cat) (scanRange cat.toNat - scanFirst cat)) := by
  revert cat; decide +kernel

theorem mem_scanList {cat : BitVec 3} (h : cat.toNat ≤ 5) (k : Nat) :
    k ∈ scanList cat.toNat ↔ k < scanRange cat.toNat ∧ scanFirst cat ≤ k := by
  have hfirst : scanFirst cat ≤ scanRange cat.toNat := by revert cat; decide
  rw [(scanList_perm cat h).mem_iff, List.mem_range'_1]
  omega

/-! ### The refusals -/

/-- The refusals of a block command, in their order. -/
theorem blockRefusals {i : Instr} {o : TOps} {len : Nat} {skip : Bool} {lo hi : Int} {s : State}
    (h : ChecksSource i (blockRanges o len) s o.src.toNat (List.range len) skip lo hi) (hwf : i.wellFormed = true)
    (hskip : skip = true → i = .dq4 o ∧ o.ac = true) :
    (1024 < o.src.toNat + len ∨ 1024 < o.dst.toNat + len → CommandRefused i s 0x05) ∧
    (o.src.toNat + len ≤ 1024 → o.dst.toNat + len ≤ 1024 →
      ((∃ k < len, s.bram.read (o.src.toNat + k) = none) → CommandRefused i s 0x06) ∧
      ∀ c : Nat → Word, (∀ k < len, s.bram.read (o.src.toNat + k) = some (c k)) →
        (∃ k < len, ¬(i = .dq4 o ∧ o.ac = true ∧ k = 0) ∧ ((c k).toInt < lo ∨ hi < (c k).toInt)) →
        CommandRefused i s 0x07) := by
  refine ⟨fun hrange => h.refused_bramRange hwf (blockRanges_error hrange), fun hsrc hdst => ?_⟩
  have hranges := blockRanges_ok hsrc hdst
  refine ⟨fun hnone => h.refused_uninitRead hwf hranges (by simpa using hnone), fun c hread hout => ?_⟩
  refine h.refused_inputRange hwf hranges (c := c) (by simpa using hread) ?_
  obtain ⟨k, hk, hchecked, hbad⟩ := hout
  refine ⟨k, mem_tailIf_range.2 ⟨hk, fun ⟨hs, h0⟩ => hchecked ?_⟩, hbad⟩
  exact ⟨(hskip hs).1, (hskip hs).2, h0⟩

/-- The refusals of a command that scans its source, in their order. -/
theorem scanRefusals {i : Instr} {src : BitVec 10} {cat : BitVec 3} {s : State}
    (h : ChecksSource i (checkRange src.toNat (scanRange cat.toNat)) s src.toNat (scanList cat.toNat) false
      (-32768) 32767) (hwf : i.wellFormed = true) (hcat : cat.toNat ≤ 5) :
    (1024 < src.toNat + scanRange cat.toNat → CommandRefused i s 0x05) ∧
    (src.toNat + scanRange cat.toNat ≤ 1024 →
      ((∃ k < scanRange cat.toNat, scanFirst cat ≤ k ∧ s.bram.read (src.toNat + k) = none) → CommandRefused i s 0x06) ∧
      ∀ c : Nat → Word, (∀ k < scanRange cat.toNat, scanFirst cat ≤ k → s.bram.read (src.toNat + k) = some (c k)) →
        (∃ k < scanRange cat.toNat, scanFirst cat ≤ k ∧ ((c k).toInt < -32768 ∨ 32767 < (c k).toInt)) →
        CommandRefused i s 0x07) := by
  have hmem := mem_scanList hcat
  refine ⟨fun hrange => h.refused_bramRange hwf (checkRange_error hrange), fun hsrc => ?_⟩
  have hranges := (checkRange_ok_iff _ _).2 hsrc
  refine ⟨fun hnone => h.refused_uninitRead hwf hranges ?_, fun c hread hout => ?_⟩
  · obtain ⟨k, hk, hfirst, hnone⟩ := hnone
    exact ⟨k, (hmem k).2 ⟨hk, hfirst⟩, hnone⟩
  · obtain ⟨k, hk, hfirst, hbad⟩ := hout
    refine h.refused_inputRange hwf hranges (c := c) (fun k hk => ?_) ⟨k, (hmem k).2 ⟨hk, hfirst⟩, hbad⟩
    exact hread k ((hmem k).1 hk).1 ((hmem k).1 hk).2

theorem ac_eq_false_of_wellFormed {o : TOps} (h : (Instr.dq8 o).wellFormed = true ∨ (Instr.dqldc o).wellFormed = true ∨
    (Instr.dqcdc o).wellFormed = true) : o.ac = false := by
  simp only [Instr.wellFormed] at h
  cases hac : o.ac <;> simp_all

/-- Settles O42: every command makes the checks of a source block first, and a block fails the first that applies. -/
theorem blockChecksInOrder : Obligations.BlockChecksInOrder := by
  unfold Obligations.BlockChecksInOrder
  constructor
  · intro s o i len lo hi hi' hwf
    simp only [List.mem_cons, List.not_mem_nil, or_false, Prod.mk.injEq] at hi'
    rcases hi' with ⟨rfl, rfl, rfl, rfl⟩ | ⟨rfl, rfl, rfl, rfl⟩ | ⟨rfl, rfl, rfl, rfl⟩ | ⟨rfl, rfl, rfl, rfl⟩ |
      ⟨rfl, rfl, rfl, rfl⟩ | ⟨rfl, rfl, rfl, rfl⟩ | ⟨rfl, rfl, rfl, rfl⟩ | ⟨rfl, rfl, rfl, rfl⟩
    · exact blockRefusals (checksSource_forward rfl residualBound_eq) hwf (by simp)
    · exact blockRefusals (checksSource_forward rfl residualBound_eq) hwf (by simp)
    · exact blockRefusals (checksSource_forward rfl dcBound_eq) hwf (by simp)
    · exact blockRefusals (checksSource_forward rfl dcBound_eq) hwf (by simp)
    · exact blockRefusals (checksSource_inverse rfl) hwf fun hac => ⟨rfl, hac⟩
    all_goals
      have hac : o.ac = false := ac_eq_false_of_wellFormed (by simp only [hwf, true_or, or_true])
      exact blockRefusals (checksSource_inverse rfl) hwf (by simp [hac])
  · intro s src dst cat cbfinc codeCbf i hi hwf
    rw [← scanRange_toNat]
    simp only [List.mem_cons, List.not_mem_nil, or_false] at hi
    rcases hi with rfl | rfl
    · exact scanRefusals (checksSource_rlscan ..) hwf (by simpa [Instr.wellFormed] using hwf)
    · exact scanRefusals (checksSource_cres ..) hwf (by
        simp only [Instr.wellFormed, Bool.and_eq_true, decide_eq_true_eq] at hwf
        exact hwf.1)

end Sys2Proof.Machine

/-! SUPPORT. The block commands that complete (R150, R200): what they leave, the transforms element by element, the
quantizer, and the statements on the forward commands and on the lossless bypass. -/

namespace Sys2Proof.Machine

/-! ### The words of a block after it is stored -/

theorem blockStored_of_bram {s t : State} {a len : Nat} {c : Nat → Word}
    (h : t.bram = s.bram.writeAll a ((List.range len).map c)) : BlockStored s t a len c := by
  refine ⟨fun k hk => ?_, fun b hb => ?_⟩
  · rw [h, Bram.read_writeAll_at _ _ _ _ (by simpa using hk)]
    simp
  · rw [h, Bram.read_writeAll_outside _ _ _ _ (by simpa using hb)]

theorem blockStored_congr {s t : State} {a len : Nat} {c d : Nat → Word} (h : ∀ k < len, c k = d k)
    (hc : BlockStored s t a len c) : BlockStored s t a len d :=
  ⟨fun k hk => h k hk ▸ hc.1 k hk, hc.2⟩

/-! ### What a completed command leaves -/

theorem tailIf_range (skip : Bool) (len : Nat) :
    tailIf skip (List.range len) = (List.range len).filter fun k => (if skip then 1 else 0) ≤ k := by
  cases skip with
  | false => simp
  | true => cases len <;> simp [tailIf, List.range_succ_eq_map, List.filter_map, Function.comp_def]

/-- RESULT counts the non-zero levels from the first counted one on (R162 to R165). -/
theorem countLevels_map_range (ac : Bool) (len : Nat) (L : Nat → Int) :
    countLevels ac ((List.range len).map L) =
      ((List.range len).filter fun k => (if ac then 1 else 0) ≤ k ∧ L k ≠ 0).length := by
  change ((tailIf ac _).filter _).length = _
  rw [← map_tailIf, tailIf_range, List.filter_map, List.length_map, List.filter_filter]
  simp only [Function.comp_apply, Bool.decide_and, Bool.and_comm]

theorem irqAfter_retire {s u : State} (hfifo : u.fifo = s.fifo) (hpend : u.irqPend = s.irqPend) :
    IrqAfter s u.retire 0 := by
  rw [IrqAfter, retire_irqPend, hfifo, hpend]
  simp

/-- Levels and saturations stored as a forward command stores them. -/
theorem forwardDone_storeLevels (s : State) (dst len : Nat) (ac : Bool) {q : Nat → Int × Bool} {L : Nat → Int}
    {S : Nat → Prop} (hL : ∀ k < len, (q k).1 = L k) (hS : ∀ k < len, (q k).2 = true ↔ S k) :
    ForwardDone s (storeLevels s dst ac ((List.range len).map q)).retire dst len (if ac then 1 else 0) L S where
  levels := by
    refine blockStored_congr (c := fun k => BitVec.ofInt 32 (q k).1) (fun k hk => by rw [hL k hk]) ?_
    exact blockStored_of_bram (by simp [Function.comp_def])
  result := by
    have hcount : ((List.range len).map q).map Prod.fst = (List.range len).map L := by
      rw [List.map_map]
      exact List.map_congr_left fun k hk => hL k (List.mem_range.1 hk)
    rw [retire_result, storeLevels_result, hcount, countLevels_map_range]
  sat := by
    rw [retire_sat, storeLevels_sat, Bool.or_eq_true, List.any_map, List.any_eq_true]
    refine or_congr_right (exists_congr fun k => ?_)
    rw [List.mem_range]
    exact and_congr_right (hS k)
  qp := ⟨retire_qpy _, retire_cboff _, retire_croff _⟩
  stream := by simp [StreamKept, OutputKept, State.outByte]
  host := by constructor <;> simp
  irq := irqAfter_retire rfl rfl

theorem inverseDone_writeBlock (s : State) (dst len : Nat) (R : Nat → Word) :
    InverseDone s (s.writeBlock dst ((List.range len).map R)).retire dst len R where
  residuals := blockStored_of_bram (by simp)
  flags := ⟨retire_result _, retire_sat _⟩
  qp := ⟨retire_qpy _, retire_cboff _, retire_croff _⟩
  stream := by simp [StreamKept, OutputKept, State.outByte]
  host := by constructor <;> simp
  irq := irqAfter_retire rfl rfl

theorem exec_of_effectOf {i : Instr} {s u : State} (h : effectOf i s = .ok u) : exec i s = .next u.retire := by
  rw [exec_eq_finish, h, finish_ok]

/-- A forward command completes for every source block in its range (R150), with the levels and saturations that q gives
its bypass or its quantizer. -/
theorem forward_completes {i : Instr} {s : State} {o : TOps} {len : Nat} {bound hi : Int}
    {levels : List Int → List (Int × Bool)} {c : Nat → Word} {q : Nat → Int × Bool} {L : Nat → Int} {S : Nat → Prop}
    (heff : effectOf i s = forwardBlock i o len bound levels s) (hbound : bound = hi) (hwf : i.wellFormed = true)
    (hsrc : BlockAt s o.src.toNat len c (-hi) hi) (hdst : o.dst.toNat + len ≤ 1024)
    (hq : (if s.bypass then ((List.range len).map fun k => (c k).toInt).map fun x => (x, false)
      else levels ((List.range len).map fun k => (c k).toInt)) = (List.range len).map q)
    (hL : ∀ k < len, (q k).1 = L k) (hS : ∀ k < len, (q k).2 = true ↔ S k) :
    ∃ t, exec i s = .next t ∧ ForwardDone s t o.dst.toNat len (if o.ac then 1 else 0) L S := by
  obtain ⟨hrange, hwords⟩ := hsrc
  have hchecked : checkedSource i (blockRanges o len) s.bram o.src.toNat (List.range len) false (-bound) bound =
      .ok ((List.range len).map c) :=
    checkedSource_ok hwf (blockRanges_ok hrange hdst) (by simpa using fun k hk => (hwords k hk).1)
      (by simpa [hbound] using fun k hk => (hwords k hk).2)
  refine ⟨_, exec_of_effectOf (u := storeLevels s o.dst.toNat o.ac ((List.range len).map q)) ?_,
    forwardDone_storeLevels s _ _ _ hL hS⟩
  have hints : ((List.range len).map c).map BitVec.toInt = (List.range len).map fun k => (c k).toInt := by
    rw [List.map_map]
    rfl
  rw [heff, forwardBlock_eq, hchecked, ok_bind, hints, hq]

/-- An inverse command completes for every source block in its range (R200), with the residuals that R gives its bypass
or its transform. -/
theorem inverse_completes {i : Instr} {s : State} {o : TOps} {len : Nat} {residuals : List Word → List Word}
    {c R : Nat → Word} (heff : effectOf i s = inverseBlock i o len residuals s) (hwf : i.wellFormed = true)
    (hsrc : o.src.toNat + len ≤ 1024) (hdst : o.dst.toNat + len ≤ 1024)
    (hread : ∀ k < len, s.bram.read (o.src.toNat + k) = some (c k))
    (hin : ∀ k < len, (o.ac = true ∧ k = 0) ∨ (-32768 ≤ (c k).toInt ∧ (c k).toInt ≤ 32767))
    (hR : (if s.bypass then (List.range len).map c else residuals ((List.range len).map c)) = (List.range len).map R) :
    ∃ t, exec i s = .next t ∧ InverseDone s t o.dst.toNat len R := by
  have hchecked : checkedSource i (blockRanges o len) s.bram o.src.toNat (List.range len) o.ac (-32768) 32767 =
      .ok ((List.range len).map c) := by
    refine checkedSource_ok hwf (blockRanges_ok hsrc hdst) (by simpa using hread) fun k hk => ?_
    obtain ⟨hlen, hchecked⟩ := mem_tailIf_range.1 hk
    exact (hin k hlen).resolve_left hchecked
  refine ⟨_, exec_of_effectOf (u := s.writeBlock o.dst.toNat ((List.range len).map R)) ?_,
    inverseDone_writeBlock s _ _ _⟩
  rw [heff, inverseBlock_eq, hchecked, ok_bind, hR]

/-! ### The lossless bypass (R156) -/

theorem bypass_of_lossless {s : State} (hl : s.lossless = true) (hq : s.qpy = 0) : s.bypass = true := by
  simp [State.bypass, hl, hq]

theorem forward_bypass {i : Instr} {s : State} {o : TOps} {len : Nat} {bound hi : Int}
    {levels : List Int → List (Int × Bool)} {c : Nat → Word}
    (heff : effectOf i s = forwardBlock i o len bound levels s) (hbound : bound = hi) (hb : s.bypass = true)
    (hwf : i.wellFormed = true) (hsrc : BlockAt s o.src.toNat len c (-hi) hi) (hdst : o.dst.toNat + len ≤ 1024) :
    ∃ t, exec i s = .next t ∧
      ForwardDone s t o.dst.toNat len (if o.ac then 1 else 0) (fun k => (c k).toInt) fun _ => False :=
  forward_completes (q := fun k => ((c k).toInt, false)) heff hbound hwf hsrc hdst (by simp [hb])
    (fun _ _ => rfl) (by simp)

theorem inverse_bypass {i : Instr} {s : State} {o : TOps} {len : Nat} {residuals : List Word → List Word}
    {c : Nat → Word} (heff : effectOf i s = inverseBlock i o len residuals s) (hb : s.bypass = true)
    (hwf : i.wellFormed = true) (hsrc : o.src.toNat + len ≤ 1024) (hdst : o.dst.toNat + len ≤ 1024)
    (hread : ∀ k < len, s.bram.read (o.src.toNat + k) = some (c k))
    (hin : ∀ k < len, (i = .dq4 o ∧ o.ac = true ∧ k = 0) ∨ (-32768 ≤ (c k).toInt ∧ (c k).toInt ≤ 32767)) :
    ∃ t, exec i s = .next t ∧ InverseDone s t o.dst.toNat len c :=
  inverse_completes heff hwf hsrc hdst hread (fun k hk => (hin k hk).imp_left And.right) (by simp [hb])

/-- Settles O41: the eight commands by the two templates, whose bypass takes the source for the results. -/
theorem losslessBypassCopies : Obligations.LosslessBypassCopies := by
  unfold Obligations.LosslessBypassCopies
  intro s o c hl hq
  have hb := bypass_of_lossless hl hq
  constructor
  · intro i len bound hi hwf hsrc hdst
    simp only [List.mem_cons, List.not_mem_nil, or_false, Prod.mk.injEq] at hi
    rcases hi with ⟨rfl, rfl, rfl⟩ | ⟨rfl, rfl, rfl⟩ | ⟨rfl, rfl, rfl⟩ | ⟨rfl, rfl, rfl⟩
    · exact forward_bypass rfl residualBound_eq hb hwf hsrc hdst
    · exact forward_bypass rfl residualBound_eq hb hwf hsrc hdst
    · exact forward_bypass rfl dcBound_eq hb hwf hsrc hdst
    · exact forward_bypass rfl dcBound_eq hb hwf hsrc hdst
  · intro i len hi hwf hsrc hdst hread hin
    simp only [List.mem_cons, List.not_mem_nil, or_false, Prod.mk.injEq] at hi
    rcases hi with ⟨rfl, rfl⟩ | ⟨rfl, rfl⟩ | ⟨rfl, rfl⟩ | ⟨rfl, rfl⟩ <;>
      exact inverse_bypass rfl hb hwf hsrc hdst hread hin

/-! ### Two-dimensional transforms, element by element -/

theorem getD_map_range {α : Type} {n k : Nat} (x : Nat → α) (d : α) (hk : k < n) :
    ((List.range n).map x).getD k d = x k := by
  simp [hk]

theorem index_lt_sq {n i j : Nat} (hi : i < n) (hj : j < n) : n * i + j < n * n :=
  calc n * i + j < n * (i + 1) := by rw [Nat.mul_succ]; omega
    _ ≤ n * n := Nat.mul_le_mul_left n hi

theorem div_lt_and_mod_lt_of_lt_sq {n k : Nat} (hk : k < n * n) : k / n < n ∧ k % n < n :=
  ⟨Nat.div_lt_of_lt_mul hk, Nat.mod_lt _ (Nat.pos_of_mul_pos_left (Nat.zero_lt_of_lt hk))⟩

section
variable {α : Type} [Inhabited α]

theorem twoPass_congr {n : Nat} (f : List α → List α) {x y : Nat → α} (h : ∀ k < n * n, x k = y k) (r c : Nat) :
    twoPass n f x r c = twoPass n f y r c := by
  unfold twoPass
  congr 2
  refine List.map_congr_left fun i hi => ?_
  congr 2
  refine List.map_congr_left fun j hj => h _ ?_
  exact index_lt_sq (List.mem_range.1 hi) (List.mem_range.1 hj)

/-- A two-dimensional transform of a block given by its elements is the block of the elements `twoPass` gives. -/
theorem rowsThenColumns_map_range (n : Nat) (f : List α → List α) (x : Nat → α) :
    rowsThenColumns n f ((List.range (n * n)).map x) =
      (List.range (n * n)).map fun k => twoPass n f x (k / n) (k % n) := by
  have hlen : ((List.range (n * n)).map x).length = n * n := by simp
  apply List.ext_getElem
  · simp [length_rowsThenColumns]
  · intro k h1 h2
    have hk : k < n * n := by simpa using h2
    obtain ⟨hr, hc⟩ := div_lt_and_mod_lt_of_lt_sq hk
    have hat := rowsThenColumns_at n f _ hlen _ _ hr hc
    rw [Nat.div_add_mod, List.getD_eq_getElem _ _ h1] at hat
    rw [hat, List.getElem_map, List.getElem_range]
    exact twoPass_congr f (fun j hj => getD_map_range x default hj) _ _

end

/-- The one-dimensional transform f of n elements is the product with the matrix A. -/
def IsProduct {α : Type} [CommRing α] [Inhabited α] (n : Nat) (A : Nat → Nat → α) (f : List α → List α) : Prop :=
  ∀ (v : Nat → α) (r : Nat), r < n →
    (f ((List.range n).map v)).getD r default = ((List.range n).map fun i => A r i * v i).sum

/-- A transform by A on rows and then on columns is A X Aᵀ (R151, R158, R159). -/
theorem IsProduct.twoPass_eq {α : Type} [CommRing α] [Inhabited α] {n : Nat} {A : Nat → Nat → α}
    {f : List α → List α} (h : IsProduct n A f) (x : Nat → α) {r c : Nat} (hr : r < n) (hc : c < n) :
    twoPass n f x r c = matrixProduct n A x (fun i j => A j i) r c := by
  unfold twoPass matrixProduct
  rw [h _ r hr]
  refine congrArg List.sum (List.map_congr_left fun i _ => ?_)
  rw [h _ c hc, ← List.sum_map_mul_left]
  refine congrArg List.sum (List.map_congr_left fun j _ => ?_)
  ring

theorem matrixProduct_congr_right {α : Type} [Add α] [Mul α] [Zero α] {n : Nat} (A : Nat → Nat → α) (x : Nat → α)
    {B C : Nat → Nat → α} (r : Nat) {c : Nat} (h : ∀ j < n, B j c = C j c) :
    matrixProduct n A x B r c = matrixProduct n A x C r c := by
  unfold matrixProduct
  refine congrArg List.sum (List.map_congr_left fun i _ => congrArg List.sum (List.map_congr_left fun j hj => ?_))
  rw [h j (List.mem_range.1 hj)]

theorem isProduct_t4 : IsProduct 4 (matrixOf matrixCf) t4 := by
  intro v r hr
  interval_cases r <;> simp [List.range_succ, t4, matrixOf, matrixCf] <;> ring

theorem isProduct_hadamard4 {α : Type} [CommRing α] [Inhabited α] :
    IsProduct 4 (matrixOf (matrixH4 (α := α))) hadamard4 := by
  intro v r hr
  interval_cases r <;> simp [List.range_succ, hadamard4, matrixOf, matrixH4] <;> ring

theorem isProduct_hadamard2 {α : Type} [CommRing α] [Inhabited α] :
    IsProduct 2 (matrixOf (matrixH2 (α := α))) hadamard2 := by
  intro v r hr
  interval_cases r <;> simp [List.range_succ, hadamard2, matrixOf, matrixH2]; ring

theorem matrixH4_symm {α : Type} [CommRing α] {i j : Nat} (hi : i < 4) (hj : j < 4) :
    matrixOf (matrixH4 (α := α)) i j = matrixOf matrixH4 j i := by
  interval_cases i <;> interval_cases j <;> rfl

theorem matrixH2_symm {α : Type} [CommRing α] {i j : Nat} (hi : i < 2) (hj : j < 2) :
    matrixOf (matrixH2 (α := α)) i j = matrixOf matrixH2 j i := by
  interval_cases i <;> interval_cases j <;> rfl

/-! ### The quantizer (R155, R160) -/

theorem quantize_fst (y : Int) (m s f : Nat) : (quantize y m s f).1 = levelOf y m s f := by
  unfold quantize levelOf
  change (if 32767 < rawLevel y m s f ∨ rawLevel y m s f < -32768
    then (clip3 (-32768) 32767 (rawLevel y m s f), true) else (rawLevel y m s f, false)).1 = _
  unfold clip3
  split <;> omega

theorem quantize_snd (y : Int) (m s f : Nat) : (quantize y m s f).2 = true ↔ Saturates y m s f := by
  unfold quantize Saturates
  change (if 32767 < rawLevel y m s f ∨ rawLevel y m s f < -32768
    then (clip3 (-32768) 32767 (rawLevel y m s f), true) else (rawLevel y m s f, false)).2 = true ↔ _
  split <;> simp_all

theorem quantizeBlock_map_range (factor : Nat → Nat) (s f n : Nat) (Y : Nat → Int) :
    quantizeBlock factor s f ((List.range n).map Y) = (List.range n).map fun k => quantize (Y k) (factor k) s f := by
  apply List.ext_getElem
  · simp [quantizeBlock]
  · intro k h1 h2
    simp [quantizeBlock]

theorem roundOffset_eq (qbits : Nat) (intra : Bool) : roundOffset qbits intra = offsetOf qbits intra := by
  cases intra <;> simp [roundOffset, offsetOf]

theorem weightedFactor_eq (mf w : Nat) : weightedFactor mf w = factorOf mf w := rfl

/-! ### The forward transforms, element by element -/

/-- The arithmetic shift by one (R10). Lean reads `z >>> 1` with the count an `Int` where Mathlib is imported, else with
a `Nat` (next lemma). -/
@[simp] theorem int_shiftRight_one (z : Int) : z >>> (1 : Int) = z / 2 :=
  (Int.shiftRight_natCast_right z 1).trans (Int.shiftRight_eq_div_pow z 1)

@[simp] theorem int_shiftRight_one_nat (z : Int) : z >>> (1 : Nat) = z / 2 :=
  Int.shiftRight_eq_div_pow z 1

section
variable (x : Nat → Int)

theorem forward4_map_range : forward4 ((List.range 16).map x) = (List.range 16).map fun k =>
    matrixProduct 4 (matrixOf matrixCf) x (fun i j => matrixOf matrixCf j i) (k / 4) (k % 4) := by
  refine (rowsThenColumns_map_range 4 t4 x).trans (List.map_congr_left fun k hk => ?_)
  obtain ⟨hr, hc⟩ := div_lt_and_mod_lt_of_lt_sq (List.mem_range.1 hk)
  exact isProduct_t4.twoPass_eq x hr hc

theorem forward8_map_range :
    forward8 ((List.range 64).map x) = (List.range 64).map fun k => twoPass 8 t8 x (k / 8) (k % 8) :=
  rowsThenColumns_map_range 8 t8 x

end

/-- H4 X H4 (R158, R207). -/
theorem hadamard4_map_range {α : Type} [CommRing α] [Inhabited α] (x : Nat → α) :
    rowsThenColumns 4 hadamard4 ((List.range 16).map x) = (List.range 16).map fun k =>
      matrixProduct 4 (matrixOf matrixH4) x (matrixOf matrixH4) (k / 4) (k % 4) := by
  refine (rowsThenColumns_map_range 4 hadamard4 x).trans (List.map_congr_left fun k hk => ?_)
  obtain ⟨hr, hc⟩ := div_lt_and_mod_lt_of_lt_sq (List.mem_range.1 hk)
  rw [isProduct_hadamard4.twoPass_eq x hr hc]
  exact matrixProduct_congr_right _ x _ fun j hj => matrixH4_symm hc hj

/-- H2 X H2 (R159, R208). -/
theorem hadamard2_map_range {α : Type} [CommRing α] [Inhabited α] (x : Nat → α) :
    rowsThenColumns 2 hadamard2 ((List.range 4).map x) = (List.range 4).map fun k =>
      matrixProduct 2 (matrixOf matrixH2) x (matrixOf matrixH2) (k / 2) (k % 2) := by
  refine (rowsThenColumns_map_range 2 hadamard2 x).trans (List.map_congr_left fun k hk => ?_)
  obtain ⟨hr, hc⟩ := div_lt_and_mod_lt_of_lt_sq (List.mem_range.1 hk)
  rw [isProduct_hadamard2.twoPass_eq x hr hc]
  exact matrixProduct_congr_right _ x _ fun j hj => matrixH2_symm hc hj

section
variable (x : Nat → Int)

theorem forwardLumaDc_map_range : forwardLumaDc ((List.range 16).map x) = (List.range 16).map fun k =>
    (matrixProduct 4 (matrixOf matrixH4) x (matrixOf matrixH4) (k / 4) (k % 4) + 1) / 2 := by
  rw [forwardLumaDc, hadamard4_map_range, List.map_map]
  exact List.map_congr_left fun k _ => by simp

theorem forwardChromaDc_map_range : forwardChromaDc ((List.range 4).map x) = (List.range 4).map fun k =>
    matrixProduct 2 (matrixOf matrixH2) x (matrixOf matrixH2) (k / 2) (k % 2) :=
  hadamard2_map_range x

end

/-! ### The forward commands -/

/-- A forward command without bypass completes with the quantized coefficients Y, the k-th with the factor m k, all with
the shift qb and the offset f. -/
theorem forward_quantizes {i : Instr} {s : State} {o : TOps} {len : Nat} {bound hi : Int}
    {levels : List Int → List (Int × Bool)} {c : Nat → Word} {Y : Nat → Int} {m : Nat → Nat} {qb f : Nat}
    (heff : effectOf i s = forwardBlock i o len bound levels s) (hbound : bound = hi) (hb : s.bypass = false)
    (hwf : i.wellFormed = true) (hac : o.ac = false)
    (hsrc : BlockAt s o.src.toNat len c (-hi) hi) (hdst : o.dst.toNat + len ≤ 1024)
    (hlevels : levels ((List.range len).map fun k => (c k).toInt) = quantizeBlock m qb f ((List.range len).map Y)) :
    ∃ t, exec i s = .next t ∧ ForwardDone s t o.dst.toNat len 0 (fun k => levelOf (Y k) (m k) qb f)
      fun k => Saturates (Y k) (m k) qb f := by
  have h := forward_completes (q := fun k => quantize (Y k) (m k) qb f) heff hbound hwf hsrc hdst
    (by simp only [hb, Bool.false_eq_true, if_false, hlevels, quantizeBlock_map_range])
    (fun k _ => quantize_fst ..) (fun k _ => quantize_snd ..)
  simpa only [hac, Bool.false_eq_true, if_false] using h

/-- Settles O34: T8 is its butterfly on rows and then on columns. -/
theorem tq8QuantizesTransform : Obligations.Tq8QuantizesTransform := by
  unfold Obligations.Tq8QuantizesTransform
  intro s o c hplane hac hsrc hdst hb
  refine forward_quantizes (levels := levels8 s o.intra) rfl residualBound_eq hb ?_ hac hsrc hdst ?_
  · simp [Instr.wellFormed, hac, ← BitVec.toNat_inj, hplane]
  · rw [levels8, forward8_map_range, roundOffset_eq]
    rfl

/-- Settles O35: the Hadamard transform on rows and then on columns is H4 X H4. -/
theorem tqldcQuantizesHadamard : Obligations.TqldcQuantizesHadamard := by
  unfold Obligations.TqldcQuantizesHadamard
  intro s o c hplane hac hintra hsrc hdst hb
  refine forward_quantizes (levels := levelsLumaDc s) rfl dcBound_eq hb ?_ hac hsrc hdst ?_
  · simp [Instr.wellFormed, hac, hintra, ← BitVec.toNat_inj, hplane]
  · rw [levelsLumaDc, forwardLumaDc_map_range, roundOffset_eq]
    rfl

/-- Settles O36: the Hadamard transform on rows and then on columns is H2 X H2. -/
theorem tqcdcQuantizesHadamard : Obligations.TqcdcQuantizesHadamard := by
  unfold Obligations.TqcdcQuantizesHadamard
  intro s o c hplane hac hsrc hdst hb
  refine forward_quantizes (levels := levelsChromaDc s o.intra o.plane.toNat) rfl dcBound_eq hb ?_ hac hsrc hdst ?_
  · simpa [Instr.wellFormed, hac, ← BitVec.toNat_inj] using hplane
  · rw [levelsChromaDc, forwardChromaDc_map_range, roundOffset_eq]
    rfl

/-- The levels of TQ4 by elements: with ac = 1 the first is the raw transform DC (R162). -/
theorem levels4_map_range (s : State) (intra : Bool) (plane : Nat) (ac : Bool) (x : Nat → Int) :
    levels4 s intra plane ac ((List.range 16).map x) = (List.range 16).map fun k =>
      let Y := fun k =>
        matrixProduct 4 (matrixOf matrixCf) x (fun i j => matrixOf matrixCf j i) (k / 4) (k % 4)
      let qp := qpOf s plane
      if ac = true ∧ k = 0 then (Y 0, false)
      else quantize (Y k) (factorOf (entry mf4 (qp % 6) (cls4 (k / 4) (k % 4))) (weight s (list4 intra plane) k))
        (15 + qp / 6) (offsetOf (15 + qp / 6) intra) := by
  rw [levels4, forward4_map_range, quantizeBlock_map_range, roundOffset_eq]
  cases ac with
  | false => simp [weightedFactor_eq]
  | true => simp [List.range_succ_eq_map, weightedFactor_eq]

/-- Settles O33: T4 on rows and then on columns is Cf X Cfᵀ; element 0 with ac = 1 apart. -/
theorem tq4QuantizesTransform : Obligations.Tq4QuantizesTransform := by
  unfold Obligations.Tq4QuantizesTransform
  intro s o c hplane hsrc hdst hb
  refine forward_completes rfl residualBound_eq (by simpa [Instr.wellFormed] using hplane) hsrc hdst
    (by simp only [hb, Bool.false_eq_true, if_false]; exact levels4_map_range ..) (fun k _ => ?_) (fun k _ => ?_)
  · by_cases h : o.ac = true ∧ k = 0
    · simp [h]
    · simp only [if_neg h]
      exact quantize_fst ..
  · by_cases h : o.ac = true ∧ k = 0
    · simp [h]
    · simp only [if_neg h]
      exact (quantize_snd ..).trans (and_iff_right h).symm

end Sys2Proof.Machine

/-! SUPPORT. Dequantization and the inverse transforms (R201 to R208), element by element, and the statements on the
inverse commands without bypass. -/

namespace Sys2Proof.Machine

/-! ### Scaling (R203, R205, R207) -/

theorem scale_eq_scaled (unit qp : Nat) (x ls : Word) : scale unit qp x ls = scaled unit qp x ls := by
  have hunit : unit ≤ qp / 6 ↔ 6 * unit ≤ qp := by omega
  simp only [scale, scaled, hunit]
  rfl

theorem mapIdx_map_range {α β : Type} (f : Nat → α → β) (n : Nat) (c : Nat → α) :
    ((List.range n).map c).mapIdx f = (List.range n).map fun k => f k (c k) := by
  apply List.ext_getElem <;> simp

/-! ### The inverse transforms, element by element -/

theorem inverse4_map_range (D : Nat → Word) : inverse4 ((List.range 16).map D) = (List.range 16).map fun k =>
    (twoPass 4 it4 D (k / 4) (k % 4) + 32).sshiftRight 6 := by
  rw [inverse4, rowsThenColumns_map_range 4 it4 D, List.map_map]
  rfl

theorem inverse8_map_range (D : Nat → Word) : inverse8 ((List.range 64).map D) = (List.range 64).map fun k =>
    (twoPass 8 it8 D (k / 8) (k % 8) + 32).sshiftRight 6 := by
  rw [inverse8, rowsThenColumns_map_range 8 it8 D, List.map_map]
  rfl

/-! ### The inverse commands -/

/-- An inverse command without bypass and with ac = 0 completes for every source block of int16 words (R200). -/
theorem inverse_transforms {i : Instr} {s : State} {o : TOps} {len : Nat} {residuals : List Word → List Word}
    {c R : Nat → Word} (heff : effectOf i s = inverseBlock i o len residuals s) (hb : s.bypass = false)
    (hwf : i.wellFormed = true) (hsrc : BlockAt s o.src.toNat len c (-32768) 32767) (hdst : o.dst.toNat + len ≤ 1024)
    (hR : residuals ((List.range len).map c) = (List.range len).map R) :
    ∃ t, exec i s = .next t ∧ InverseDone s t o.dst.toNat len R := by
  obtain ⟨hrange, hwords⟩ := hsrc
  exact inverse_completes heff hwf hrange hdst (fun k hk => (hwords k hk).1) (fun k hk => .inr (hwords k hk).2)
    (by simpa [hb] using hR)

/-- Settles O37: the scaled levels, the first with ac = 1 apart, through the butterfly on rows and then on columns. -/
theorem dq4TransformsScaled : Obligations.Dq4TransformsScaled := by
  unfold Obligations.Dq4TransformsScaled
  intro s o c hplane hsrc hdst hread hin hb
  refine inverse_completes rfl (by simpa [Instr.wellFormed] using hplane) hsrc hdst hread hin ?_
  simp only [hb, Bool.false_eq_true, if_false]
  rw [residual4, mapIdx_map_range, ← inverse4_map_range]
  refine congrArg inverse4 (List.map_congr_left fun k _ => ?_)
  by_cases h : o.ac = true ∧ k = 0
  · simp [h]
  · simp only [if_neg h]
    exact scale_eq_scaled ..

/-- Settles O38: the scaled levels through the butterfly on rows and then on columns. -/
theorem dq8TransformsScaled : Obligations.Dq8TransformsScaled := by
  unfold Obligations.Dq8TransformsScaled
  intro s o c hplane hac hsrc hdst hb
  refine inverse_transforms (residuals := residual8 s o.intra) rfl hb ?_ hsrc hdst ?_
  · simp [Instr.wellFormed, hac, ← BitVec.toNat_inj, hplane]
  · rw [residual8, mapIdx_map_range, ← inverse8_map_range]
    exact congrArg inverse8 (List.map_congr_left fun k _ => scale_eq_scaled ..)

/-- Settles O39: the Hadamard transform on rows and then on columns is H4 C H4, and R207 scales it. -/
theorem dqldcScalesHadamard : Obligations.DqldcScalesHadamard := by
  unfold Obligations.DqldcScalesHadamard
  intro s o c hplane hac hintra hsrc hdst hb
  refine inverse_transforms (residuals := residualLumaDc s) rfl hb ?_ hsrc hdst ?_
  · simp [Instr.wellFormed, hac, hintra, ← BitVec.toNat_inj, hplane]
  · rw [residualLumaDc, hadamard4_map_range, List.map_map]
    exact List.map_congr_left fun k _ => scale_eq_scaled ..

/-- Settles O40: the Hadamard transform on rows and then on columns is H2 C H2, and R208 scales it. -/
theorem dqcdcScalesHadamard : Obligations.DqcdcScalesHadamard := by
  unfold Obligations.DqcdcScalesHadamard
  intro s o c hplane hac hsrc hdst hb
  refine inverse_transforms (residuals := residualChromaDc s o.intra o.plane.toNat) rfl hb ?_ hsrc hdst ?_
  · simpa [Instr.wellFormed, hac, ← BitVec.toNat_inj] using hplane
  · rw [residualChromaDc, hadamard2_map_range, List.map_map]
    rfl

end Sys2Proof.Machine

/-! SUPPORT. Flat blocks (R214): a forward butterfly takes a flat row to its DC alone, an inverse one takes a DC alone to
a flat row, and at QP 0 with flat weights the quantized DC comes back exactly. -/

namespace Sys2Proof.Machine

/-! ### Flat blocks and blocks with a DC only -/

/-- The value d at index 0, and 0 elsewhere. -/
def dcOnly {α : Type} [Zero α] (d : α) (k : Nat) : α :=
  if k = 0 then d else 0

/-- A block in raster order has its DC in row 0 and column 0. -/
theorem dcOnly_mul_add {α : Type} [Zero α] (d : α) {n : Nat} (hn : 0 < n) (r c : Nat) :
    dcOnly d (n * r + c) = dcOnly (dcOnly d r) c := by
  by_cases hr : r = 0 <;> simp [dcOnly, hr, hn.ne']

/-- The one-dimensional transform f of n elements takes a flat row to its DC, n times the value, alone. -/
def GathersDc (n : Nat) (f : List Int → List Int) : Prop :=
  ∀ a : Int, ∀ r < n, (f ((List.range n).map fun _ => a)).getD r default = dcOnly (n * a) r

/-- The one-dimensional transform f of n elements takes a DC alone to a flat row. -/
def SpreadsDc (n : Nat) (f : List Word → List Word) : Prop :=
  ∀ d : Word, ∀ r < n, (f ((List.range n).map (dcOnly d))).getD r default = d

theorem gathersDc_t4 : GathersDc 4 t4 := by
  intro a r hr
  interval_cases r <;> simp [List.range_succ, t4, dcOnly]; ring

theorem gathersDc_t8 : GathersDc 8 t8 := by
  intro a r hr
  interval_cases r <;> simp [List.range_succ, t8, dcOnly]; ring

theorem spreadsDc_it4 : SpreadsDc 4 it4 := by
  intro d r hr
  interval_cases r <;> simp [List.range_succ, it4, sar, dcOnly]

theorem spreadsDc_it8 : SpreadsDc 8 it8 := by
  intro d r hr
  interval_cases r <;> simp [List.range_succ, it8, sar, dcOnly]

/-- A flat block goes to its DC, n * n times the value, alone. -/
theorem GathersDc.twoPass_flat {n : Nat} {f : List Int → List Int} (h : GathersDc n f) (a : Int) {k : Nat}
    (hk : k < n * n) : twoPass n f (fun _ => a) (k / n) (k % n) = dcOnly (n * (n * a)) k := by
  obtain ⟨hr, hc⟩ := div_lt_and_mod_lt_of_lt_sq hk
  have hindex := dcOnly_mul_add (n * (n * a)) (Nat.zero_lt_of_lt hr) (k / n) (k % n)
  rw [Nat.div_add_mod] at hindex
  rw [twoPass, h a _ hc, h _ _ hr, hindex]
  by_cases hc0 : k % n = 0 <;> by_cases hr0 : k / n = 0 <;> simp [dcOnly, hc0, hr0]

/-- A block with a DC only goes to a flat block. -/
theorem SpreadsDc.twoPass_dcOnly {n : Nat} {f : List Word → List Word} (h : SpreadsDc n f) {D : Nat → Word} {d : Word}
    (hD : ∀ k < n * n, D k = dcOnly d k) {r c : Nat} (hr : r < n) (hc : c < n) : twoPass n f D r c = d := by
  have hrow (i : Nat) : (f ((List.range n).map fun j => dcOnly d (n * i + j))).getD c default = dcOnly d i := by
    simp only [dcOnly_mul_add d (Nat.zero_lt_of_lt hc) i]
    exact h (dcOnly d i) c hc
  rw [twoPass_congr f hD, twoPass]
  simp only [hrow]
  exact h d r hr

/-! ### Levels and scaling at QP 0 -/

theorem neg_32768_le_levelOf (y : Int) (m s f : Nat) : -32768 ≤ levelOf y m s f :=
  Int.le_max_left ..

theorem levelOf_le_32767 (y : Int) (m s f : Nat) : levelOf y m s f ≤ 32767 := by
  unfold levelOf
  omega

theorem levelOf_dcOnly (y : Int) {m M : Nat} (s f : Nat) {k : Nat} (hm : k = 0 → m = M) :
    levelOf (dcOnly y k) m s f = dcOnly (levelOf y M s f) k := by
  by_cases hk : k = 0
  · simp [dcOnly, hk, hm hk]
  · simp [dcOnly, hk, levelOf, rawLevel]

theorem sshiftRight_ofInt {z : Int} (hlo : -2147483648 ≤ z) (hhi : z ≤ 2147483647) (n : Nat) :
    (BitVec.ofInt 32 z).sshiftRight n = BitVec.ofInt 32 (z / 2 ^ n) := by
  rw [BitVec.sshiftRight_eq, BitVec.toInt_ofInt_eq_self (by decide) (by omega) (by omega), Int.shiftRight_eq_div_pow]
  rfl

/-- The rounded form of the scaling, exact where nothing wraps (R203, R205). -/
theorem scaled_qp_zero {unit ls : Nat} {x : Int} (hunit : 0 < unit) (hlo : -2147483648 ≤ x * ls + 2 ^ (unit - 1))
    (hhi : x * ls + 2 ^ (unit - 1) ≤ 2147483647) :
    scaled unit 0 (BitVec.ofInt 32 x) (BitVec.ofNat 32 ls) = BitVec.ofInt 32 ((x * ls + 2 ^ (unit - 1)) / 2 ^ unit) := by
  rw [← sshiftRight_ofInt hlo hhi, scaled, if_neg (by omega), BitVec.ofInt_add, BitVec.ofInt_mul, BitVec.ofInt_natCast,
    ← BitVec.ofInt_natCast 32 (2 ^ _)]
  simp

/-- At QP 0 a level scale that is g times 2 to the `unit` is the factor g, and the level 0 rounds to 0. -/
theorem scaled_dcOnly {unit g ls k : Nat} {x : Int} (hunit : 0 < unit) (hls : k = 0 → ls = g * 2 ^ unit)
    (hlo : -2147483648 ≤ x * (g * 2 ^ unit : Nat) + 2 ^ (unit - 1))
    (hhi : x * (g * 2 ^ unit : Nat) + 2 ^ (unit - 1) ≤ 2147483647) (hround : 2 ^ (unit - 1) ≤ (2147483647 : Int)) :
    scaled unit 0 (dcOnly (BitVec.ofInt 32 x) k) (BitVec.ofNat 32 ls) = dcOnly (BitVec.ofInt 32 (x * g)) k := by
  have hpos : (0 : Int) < 2 ^ (unit - 1) := by positivity
  have hhalf : (2 : Int) ^ unit = 2 * 2 ^ (unit - 1) := by rw [← pow_succ', Nat.sub_add_cancel hunit]
  have hrounds : (2 : Int) ^ (unit - 1) / 2 ^ unit = 0 := Int.ediv_eq_zero_of_lt (by omega) (by omega)
  by_cases hk : k = 0
  · simp only [dcOnly, hk, if_true, hls hk]
    rw [scaled_qp_zero hunit hlo hhi, add_comm, Nat.cast_mul, ← mul_assoc, Nat.cast_pow, Nat.cast_two,
      Int.add_mul_ediv_right _ _ (by omega), hrounds, zero_add]
  · simp only [dcOnly, hk, if_false]
    have hzero := scaled_qp_zero (ls := ls) (x := 0) hunit (by omega) (by omega)
    simpa [hrounds] using hzero

/-- A level times g rounds to a over 64, if its magnitude times g does to the magnitude of a. -/
theorem levelOf_mul_rounds {y a : Int} {m s f g : Nat} (hsign : y.sign = a.sign)
    (hmax : (y.natAbs * m + f) / 2 ^ s ≤ 32767)
    (hlo : 64 * a.natAbs < (y.natAbs * m + f) / 2 ^ s * g + 32)
    (hhi : (y.natAbs * m + f) / 2 ^ s * g < 64 * a.natAbs + 32) : (levelOf y m s f * g + 32) / 64 = a := by
  unfold levelOf rawLevel
  rw [hsign]
  generalize (y.natAbs * m + f) / 2 ^ s = q at *
  rw [← Nat.cast_lt (α := Int), Nat.cast_add, Nat.cast_mul, Nat.cast_mul] at hhi hlo
  rcases lt_trichotomy a 0 with h | rfl | h
  · rw [Int.sign_eq_neg_one_of_neg h]
    have hlevel : max (-32768) (min 32767 (-1 * (q : Int))) = -q := by omega
    rw [hlevel, Int.neg_mul]
    omega
  · simp
  · rw [Int.sign_eq_one_of_pos h]
    have hlevel : max (-32768) (min 32767 (1 * (q : Int))) = q := by omega
    rw [hlevel]
    omega

/-- The level of the DC 16 a of a flat 4x4 block, scaled by 10 (16 * 10 over 16, R201, class 0), rounds to a. -/
theorem flatLevel4_rounds {a : Int} (intra : Bool) (hlo : -255 ≤ a) (hhi : a ≤ 255) :
    (levelOf (4 * (4 * a)) 13107 15 (offsetOf 15 intra) * 10 + 32) / 64 = a := by
  have hoffset : offsetOf 15 intra = 10922 ∨ offsetOf 15 intra = 5461 := by cases intra <;> decide
  refine levelOf_mul_rounds (g := 10) (by simp [Int.sign_mul, show Int.sign 4 = 1 from rfl]) ?_ ?_ ?_ <;> omega

/-- The level of the DC 64 a of a flat 8x8 block, scaled by 5 (16 * 20 over 64, R201, class 0), rounds to a. -/
theorem flatLevel8_rounds {a : Int} (intra : Bool) (hlo : -255 ≤ a) (hhi : a ≤ 255) :
    (levelOf (8 * (8 * a)) 13107 16 (offsetOf 16 intra) * 5 + 32) / 64 = a := by
  have hoffset : offsetOf 16 intra = 21845 ∨ offsetOf 16 intra = 10922 := by cases intra <;> decide
  refine levelOf_mul_rounds (g := 5) (by simp [Int.sign_mul, show Int.sign 8 = 1 from rfl]) ?_ ?_ ?_ <;> omega

/-! ### The state at QP 0 with flat weights -/

/-- QPY is 0, every weight is 16, and LOSSLESS is 0 (R214). -/
structure FlatAtQpZero (s : State) : Prop where
  qpy : s.qpy = 0
  lossless : s.lossless = false
  scal : ∀ k (h : k < 224), s.scal[k] = 16

section
variable {s t : State} (hs : FlatAtQpZero s)
include hs

theorem FlatAtQpZero.bypass : s.bypass = false := by
  simp [State.bypass, hs.lossless]

theorem FlatAtQpZero.qpOf_zero : qpOf s (0 : BitVec 2).toNat = 0 := by
  simp [qpOf, hs.qpy]

theorem FlatAtQpZero.scalByte_eq {k : Nat} (hk : k < 224) : scalByte s k = 16 := by
  rw [scalByte, Vector.getElem?_eq_getElem hk, Option.getD_some, hs.scal k hk]

theorem FlatAtQpZero.weight_zero {list : Nat} (hlist : list ≤ 7) : weight s list 0 = 16 := by
  refine congrArg BitVec.toNat (hs.scalByte_eq ?_)
  interval_cases list <;> decide

theorem FlatAtQpZero.of_forwardDone {dst len first : Nat} {L : Nat → Int} {S : Nat → Prop}
    (h : ForwardDone s t dst len first L S) : FlatAtQpZero t where
  qpy := h.qp.1.trans hs.qpy
  lossless := h.host.lossless.trans hs.lossless
  scal := by simpa only [h.host.scal] using hs.scal

end

/-! ### Flat blocks forward and back -/

/-- A block of levels with a DC only, as a source block of an inverse command. -/
theorem blockAt_of_forwardDone {s t : State} {dst len first : Nat} {L : Nat → Int} {S : Nat → Prop} {l : Int}
    (h : ForwardDone s t dst len first L S) (hdst : dst + len ≤ 1024) (hL : ∀ k < len, L k = dcOnly l k)
    (hlo : -32768 ≤ l) (hhi : l ≤ 32767) :
    BlockAt t dst len (dcOnly (BitVec.ofInt 32 l)) (-32768) 32767 := by
  refine ⟨hdst, fun k hk => ?_⟩
  have hword : BitVec.ofInt 32 (dcOnly l k) = dcOnly (BitVec.ofInt 32 l) k := by
    by_cases h0 : k = 0 <;> simp [dcOnly, h0]
  have hrange : -32768 ≤ dcOnly l k ∧ dcOnly l k ≤ 32767 := by
    unfold dcOnly
    split <;> omega
  simp only [← hword]
  rw [BitVec.toInt_ofInt_eq_self (by decide) (by omega) (by omega), ← hL k hk]
  exact ⟨h.levels.1 k hk, hL k hk ▸ hrange⟩

/-- TQ4 takes a flat block to the level of its DC alone. -/
theorem tq4_flat {s : State} (hs : FlatAtQpZero s) {intra : Bool} {src dst : BitVec 10} {a : Int}
    (hlo : -255 ≤ a) (hhi : a ≤ 255)
    (hsrc : BlockAt s src.toNat 16 (fun _ => BitVec.ofInt 32 a) (-255) 255) (hdst : dst.toNat + 16 ≤ 1024) :
    ∃ t, exec (.tq4 ⟨intra, 0, false, src, dst⟩) s = .next t ∧ FlatAtQpZero t ∧
      BlockAt t dst.toNat 16
        (dcOnly (BitVec.ofInt 32 (levelOf (4 * (4 * a)) 13107 15 (offsetOf 15 intra)))) (-32768) 32767 := by
  obtain ⟨t, hexec, hdone⟩ :=
    tq4QuantizesTransform s ⟨intra, 0, false, src, dst⟩ _ (by simp) hsrc hdst hs.bypass
  refine ⟨t, hexec, hs.of_forwardDone hdone, blockAt_of_forwardDone hdone hdst (fun k hk => ?_)
    (neg_32768_le_levelOf ..) (levelOf_le_32767 ..)⟩
  obtain ⟨hr, hc⟩ := div_lt_and_mod_lt_of_lt_sq (n := 4) hk
  have hint : (BitVec.ofInt 32 a).toInt = a := BitVec.toInt_ofInt_eq_self (by decide) (by omega) (by omega)
  have hY := (isProduct_t4.twoPass_eq (fun _ => a) hr hc).symm.trans (gathersDc_t4.twoPass_flat a hk)
  simp only [hs.qpOf_zero, Bool.false_eq_true, false_and, if_false, hint, hY]
  refine levelOf_dcOnly _ _ _ fun h0 => ?_
  rw [h0, hs.weight_zero (by split <;> decide)]
  rfl

/-- TQ8 takes a flat block to the level of its DC alone. -/
theorem tq8_flat {s : State} (hs : FlatAtQpZero s) {intra : Bool} {src dst : BitVec 10} {a : Int}
    (hlo : -255 ≤ a) (hhi : a ≤ 255)
    (hsrc : BlockAt s src.toNat 64 (fun _ => BitVec.ofInt 32 a) (-255) 255) (hdst : dst.toNat + 64 ≤ 1024) :
    ∃ t, exec (.tq8 ⟨intra, 0, false, src, dst⟩) s = .next t ∧ FlatAtQpZero t ∧
      BlockAt t dst.toNat 64
        (dcOnly (BitVec.ofInt 32 (levelOf (8 * (8 * a)) 13107 16 (offsetOf 16 intra)))) (-32768) 32767 := by
  obtain ⟨t, hexec, hdone⟩ :=
    tq8QuantizesTransform s ⟨intra, 0, false, src, dst⟩ _ rfl rfl hsrc hdst hs.bypass
  refine ⟨t, hexec, hs.of_forwardDone hdone, blockAt_of_forwardDone hdone hdst (fun k hk => ?_)
    (neg_32768_le_levelOf ..) (levelOf_le_32767 ..)⟩
  have hint : (BitVec.ofInt 32 a).toInt = a := BitVec.toInt_ofInt_eq_self (by decide) (by omega) (by omega)
  simp only [hs.qpy, hint, gathersDc_t8.twoPass_flat a (k := k) hk]
  refine levelOf_dcOnly _ _ _ fun h0 => ?_
  rw [h0, hs.weight_zero (by split <;> decide)]
  rfl

/-- A dequantized DC alone goes to a flat block of its rounded 64th (R204, R206). -/
theorem SpreadsDc.residual {n : Nat} {f : List Word → List Word} (h : SpreadsDc n f) {D : Nat → Word} {z : Int}
    (hlo : -2147483648 ≤ z + 32) (hhi : z + 32 ≤ 2147483647) (hD : ∀ k < n * n, D k = dcOnly (BitVec.ofInt 32 z) k)
    {k : Nat} (hk : k < n * n) : (twoPass n f D (k / n) (k % n) + 32).sshiftRight 6 = BitVec.ofInt 32 ((z + 32) / 64) := by
  obtain ⟨hr, hc⟩ := div_lt_and_mod_lt_of_lt_sq hk
  rw [h.twoPass_dcOnly hD hr hc]
  change (BitVec.ofInt 32 z + BitVec.ofInt 32 32).sshiftRight 6 = _
  rw [← BitVec.ofInt_add, sshiftRight_ofInt hlo hhi]
  rfl

/-- DQ4 takes a DC level l alone to a flat block of 10 l over 64, rounded. -/
theorem dq4_dcOnly {s : State} (hs : FlatAtQpZero s) {intra : Bool} {src dst : BitVec 10} {l : Int}
    (hlo : -32768 ≤ l) (hhi : l ≤ 32767)
    (hsrc : BlockAt s src.toNat 16 (dcOnly (BitVec.ofInt 32 l)) (-32768) 32767) (hdst : dst.toNat + 16 ≤ 1024) :
    ∃ t, exec (.dq4 ⟨intra, 0, false, src, dst⟩) s = .next t ∧
      ∀ k < 16, t.bram.read (dst.toNat + k) = some (BitVec.ofInt 32 ((l * 10 + 32) / 64)) := by
  obtain ⟨hrange, hwords⟩ := hsrc
  obtain ⟨t, hexec, hdone⟩ := dq4TransformsScaled s ⟨intra, 0, false, src, dst⟩ _ (by simp) hrange hdst
    (fun k hk => (hwords k hk).1) (fun k hk => .inr (hwords k hk).2) hs.bypass
  refine ⟨t, hexec, fun k hk => (hdone.residuals.1 k hk).trans (congrArg some ?_)⟩
  refine spreadsDc_it4.residual (by omega) (by omega) (fun j _ => ?_) hk
  simp only [hs.qpOf_zero, Bool.false_eq_true, false_and, if_false]
  refine scaled_dcOnly (g := 10) (by decide) (fun h0 => ?_) (by omega) (by omega) (by decide)
  rw [h0, hs.weight_zero (by split <;> decide)]
  rfl

/-- DQ8 takes a DC level l alone to a flat block of 5 l over 64, rounded. -/
theorem dq8_dcOnly {s : State} (hs : FlatAtQpZero s) {intra : Bool} {src dst : BitVec 10} {l : Int}
    (hlo : -32768 ≤ l) (hhi : l ≤ 32767)
    (hsrc : BlockAt s src.toNat 64 (dcOnly (BitVec.ofInt 32 l)) (-32768) 32767) (hdst : dst.toNat + 64 ≤ 1024) :
    ∃ t, exec (.dq8 ⟨intra, 0, false, src, dst⟩) s = .next t ∧
      ∀ k < 64, t.bram.read (dst.toNat + k) = some (BitVec.ofInt 32 ((l * 5 + 32) / 64)) := by
  obtain ⟨t, hexec, hdone⟩ :=
    dq8TransformsScaled s ⟨intra, 0, false, src, dst⟩ _ rfl rfl hsrc hdst hs.bypass
  refine ⟨t, hexec, fun k hk => (hdone.residuals.1 k hk).trans (congrArg some ?_)⟩
  refine spreadsDc_it8.residual (by omega) (by omega) (fun j _ => ?_) hk
  simp only [hs.qpy]
  refine scaled_dcOnly (g := 5) (by decide) (fun h0 => ?_) (by omega) (by omega) (by decide)
  rw [h0, hs.weight_zero (by split <;> decide)]
  rfl

/-- Settles O43: a flat block goes to the level of its DC alone, and that level comes back to a flat block of the same
value. -/
theorem flatBlocksSurviveQpZero : Obligations.FlatBlocksSurviveQpZero := by
  unfold Obligations.FlatBlocksSurviveQpZero
  intro s intra src lv dst a hlo hhi hqpy hlossless hscal
  have hs : FlatAtQpZero s := ⟨hqpy, hlossless, hscal⟩
  constructor
  · intro hsrc hlv hdst
    obtain ⟨t, hexec, ht, hlevels⟩ := tq4_flat hs (intra := intra) hlo hhi hsrc hlv
    obtain ⟨u, hexec', hwords⟩ :=
      dq4_dcOnly ht (intra := intra) (neg_32768_le_levelOf ..) (levelOf_le_32767 ..) hlevels hdst
    exact ⟨t, u, hexec, hexec', by simpa only [flatLevel4_rounds intra hlo hhi] using hwords⟩
  · intro hsrc hlv hdst
    obtain ⟨t, hexec, ht, hlevels⟩ := tq8_flat hs (intra := intra) hlo hhi hsrc hlv
    obtain ⟨u, hexec', hwords⟩ :=
      dq8_dcOnly ht (intra := intra) (neg_32768_le_levelOf ..) (levelOf_le_32767 ..) hlevels hdst
    exact ⟨t, u, hexec, hexec', by simpa only [flatLevel8_rounds intra hlo hhi] using hwords⟩

end Sys2Proof.Machine

/-! SUPPORT. The run/level extraction RLSCAN (R240 to R245): what a scan of a valid block reads, the pairs of a list
written as zero runs and levels, their words, and the statement on RLSCAN. -/

namespace Sys2Proof.Machine

/-! ### The scan of a valid block (R241, R242) -/

/-- A block whose words are valid and in range passes the checks of its scan, and is read as its coefficients. -/
theorem scanBlock_of_scannedAt {s : State} {src cat : Nat} {cs : List Int} (h : ScannedAt s src cat cs) :
    scanBlock s.bram src cat = .ok cs := by
  obtain ⟨hrange, hlen, hwords⟩ := h
  choose! w hread hval hlo hhi using hwords
  have hws : readWords s.bram ((scanList cat).map (src + ·)) = .ok ((List.range cs.length).map w) := by
    refine (readWords_ok_iff _ _ _).2 (List.ext_getElem (by simp [hlen]) fun i hi _ => ?_)
    have hi' : i < (scanList cat).length := by simpa using hi
    simpa [hi'] using hread i (hlen ▸ hi')
  have hcs : ((List.range cs.length).map w).map BitVec.toInt = cs :=
    List.ext_getElem (by simp) fun i _ hi => by simpa [hi] using hval i hi
  have hinput : checkInput (-32768) 32767 cs = .ok () := by
    rw [← hcs, checkInput_ok_iff]
    simpa using fun i hi => ⟨hlo i hi, hhi i hi⟩
  simp only [scanBlock, (checkRange_ok_iff _ _).2 hrange, hws, hcs, hinput, ok_bind]

/-! ### The pairs of runs and levels (R243) -/

theorem runLevels_replicate_append (run n : Nat) (cs : List Int) :
    runLevels run (List.replicate n 0 ++ cs) = runLevels (run + n) cs := by
  induction n generalizing run with
  | zero => rfl
  | succ n ih =>
    rw [List.replicate_succ, List.cons_append, runLevels, if_pos rfl, ih, Nat.add_right_comm, Nat.add_assoc]

theorem runLevels_replicate (run n : Nat) : runLevels run (List.replicate n 0) = [] := by
  simpa [runLevels] using runLevels_replicate_append run n []

theorem runLevels_cons_of_ne_zero (run : Nat) {c : Int} (hc : c ≠ 0) (cs : List Int) :
    runLevels run (c :: cs) = (run, c) :: runLevels 0 cs := by
  rw [runLevels, if_neg hc]

/-- The pairs of a list that pairs unfold to are those pairs: trailing zeros give none. -/
theorem runLevels_unfolded {pairs : List (Nat × Int)} (hne : ∀ p ∈ pairs, p.2 ≠ 0) (trailing : Nat) :
    runLevels 0 ((pairs.flatMap fun p => List.replicate p.1 0 ++ [p.2]) ++ List.replicate trailing 0) = pairs := by
  induction pairs with
  | nil => exact runLevels_replicate 0 trailing
  | cons p ps ih =>
    obtain ⟨hp, hps⟩ := List.forall_mem_cons.1 hne
    rw [List.flatMap_cons, List.append_assoc, List.append_assoc, runLevels_replicate_append, List.singleton_append,
      runLevels_cons_of_ne_zero _ hp, ih hps, Nat.zero_add]

/-! ### The words of a destination list (R244, R245) -/

/-- The word of a pair in arithmetic: the run above the low 16 bits of the level. -/
theorem packPair_eq (p : Nat × Int) : packPair p = BitVec.ofNat 32 (p.1 * 65536 + (BitVec.ofInt 16 p.2).toNat) := by
  have hlevel : (BitVec.ofInt 16 p.2).toNat < 2 ^ 16 := (BitVec.ofInt 16 p.2).isLt
  apply BitVec.eq_of_toNat_eq
  rw [packPair, BitVec.toNat_append, ← Nat.shiftLeft_add_eq_or_of_lt hlevel, BitVec.toNat_ofNat, BitVec.toNat_ofNat,
    Nat.shiftLeft_eq]
  omega

/-- What RLSCAN stores at its destination (R245): the number of the pairs, and then their words. -/
def pairWords (pairs : List (Nat × Int)) : List Word :=
  BitVec.ofNat 32 pairs.length :: pairs.map packPair

@[simp] theorem length_pairWords (pairs : List (Nat × Int)) : (pairWords pairs).length = 1 + pairs.length := by
  simp [pairWords, Nat.add_comm]

theorem pairWords_eq_map_range (pairs : List (Nat × Int)) :
    pairWords pairs = (List.range (1 + pairs.length)).map fun j => if j = 0 then BitVec.ofNat 32 pairs.length
      else BitVec.ofNat 32 ((pairs.getD (j - 1) (0, 0)).1 * 65536 +
        (BitVec.ofInt 16 (pairs.getD (j - 1) (0, 0)).2).toNat) := by
  refine List.ext_getElem (by simp) fun j hj _ => ?_
  cases j with
  | zero => simp [pairWords]
  | succ k =>
    have hk : k < pairs.length := by simpa [Nat.add_comm 1] using hj
    simp [pairWords, packPair_eq, hk]

/-! ### RLSCAN -/

/-- After the checks of the scanned block, RLSCAN checks its destination and stores the pairs (R245). -/
theorem effectOf_rlscan {s : State} {src dst : BitVec 10} {cat : BitVec 3} {pairs : List (Nat × Int)} {cs : List Int}
    (hcat : cat.toNat ≤ 5) (hscan : ScannedAt s src.toNat cat.toNat cs) (hpairs : runLevels 0 cs = pairs) :
    effectOf (.rlscan src dst cat) s = checkRange dst.toNat (1 + pairs.length) >>= fun _ =>
      .ok ((s.writeBlock dst.toNat (pairWords pairs)).setResult pairs.length) := by
  have hfields : checkFields (.rlscan src dst cat) = .ok () :=
    (checkFields_ok_iff _).2 (by simpa [Instr.wellFormed] using hcat)
  simp only [effectOf, rlscanEffect, hfields, scanBlock_of_scannedAt hscan, hpairs, ok_bind, pairWords]

/-- Settles O44: the pairs of the scanned list are the pairs it unfolds from; the destination check alone is left. -/
theorem rlscanWritesPairs : Obligations.RlscanWritesPairs := by
  unfold Obligations.RlscanWritesPairs
  intro s src dst cat cs pairs trailing hcat hscan hne hcs
  have heff := effectOf_rlscan (dst := dst) hcat hscan (hcs ▸ runLevels_unfolded hne trailing)
  constructor
  · intro hdst
    have hrange := (checkRange_ok_iff dst.toNat (1 + pairs.length)).2 (by omega)
    rw [hrange, ok_bind] at heff
    refine ⟨_, exec_of_effectOf heff, blockStored_of_bram ?_, retire_result _, retire_sat _,
      ⟨retire_qpy _, retire_cboff _, retire_croff _⟩, ?_, ?_, irqAfter_retire rfl rfl⟩
    · rw [← pairWords_eq_map_range, retire_bram, setResult_bram, writeBlock_bram]
    · simp [StreamKept, OutputKept, State.outByte]
    · constructor <;> simp
  · intro hdst
    rw [checkRange_error (by omega), error_bind] at heff
    exact commandRefused_of_effectOf heff

end Sys2Proof.Machine

/-! SUPPORT. The arithmetic code place by place (R265 to R269): RenormE and a bypass bin share one step, which resolves a
bit or lets it wait; the number that bits, waiting bits and low stand for, the nesting of the coding intervals, and the
statements on RenormE and on the intervals. -/

namespace Sys2Proof.Machine

/-! ### One place of the code (R265, R267, R268) -/

/-- One place of the code, for RenormE and for a bypass bin alike: of the interval at `low` of size `range`, in the
doubled scale, the leading bit is resolved (PutBit), or it waits where the interval may lie on both sides of the middle
(R272 bounds the count). -/
def Coder.place (c : Coder) (range low : Nat) : Except ErrCode Coder :=
  if 1024 ≤ low then .ok (c.resolved true range (low - 1024))
  else if low < 512 then .ok (c.resolved false range low)
  else if c.outst < 2 ^ 32 - 1 then .ok { c with range := range, low := low - 512, outst := c.outst + 1 }
  else .error .outstOverflow

theorem addOutstanding_eq_ite (c : Coder) : addOutstanding c =
    if c.outst < 2 ^ 32 - 1 then .ok { c with outst := c.outst + 1 } else .error .outstOverflow := rfl

theorem renormStep_eq_place (c : Coder) : renormStep c = c.place (2 * c.range) (2 * c.low) := by
  unfold renormStep Coder.place
  by_cases hlow : c.low < 256
  · rw [if_pos hlow, if_neg (by omega), if_pos (by omega)]
    rfl
  · by_cases hhigh : 512 ≤ c.low
    · rw [if_neg hlow, if_pos hhigh, if_pos (by omega), show 2 * c.low - 1024 = 2 * (c.low - 512) by omega,
        ok_bind]
      simp only [putBit, Coder.resolved]
    · rw [if_neg hlow, if_neg hhigh, if_neg (by omega), if_neg (by omega),
        show 2 * c.low - 512 = 2 * (c.low - 256) by omega, addOutstanding_eq_ite]
      dsimp only
      split_ifs <;> rfl

theorem encodeBypass_eq_place (c : Coder) (b : Bool) :
    encodeBypass c b = c.place c.range (2 * c.low + if b then c.range else 0) := rfl

/-- A place either resolves its bit and those waiting, or waits itself. -/
theorem place_ok {c d : Coder} {range low : Nat} (h : c.place range low = .ok d) :
    (∃ b l, low = l + 1024 * flag b ∧ (b = false → l < 512) ∧ d = c.resolved b range l) ∨
      (512 ≤ low ∧ low < 1024 ∧ d = { c with range := range, low := low - 512, outst := c.outst + 1 }) := by
  unfold Coder.place at h
  split_ifs at h with hhigh hlow hcount
  · exact .inl ⟨true, low - 1024, (Nat.sub_add_cancel hhigh).symm, nofun, (Except.ok.inj h).symm⟩
  · exact .inl ⟨false, low, rfl, fun _ => hlow, (Except.ok.inj h).symm⟩
  · exact .inr ⟨by omega, by omega, (Except.ok.inj h).symm⟩

/-! ### The number that the bits stand for -/

/-- The number of a list of bits, its first bit the most significant. -/
def bitsValue (bits : List Bool) : Nat :=
  bits.foldl (fun v b => 2 * v + flag b) 0

theorem lower_eq (c : Coder) :
    c.lower = bitsValue c.bits * 2 ^ (10 + c.outst) + 512 * (2 ^ c.outst - 1) + c.low := rfl

theorem bitsValue_concat (bits : List Bool) (b : Bool) : bitsValue (bits ++ [b]) = 2 * bitsValue bits + flag b := by
  simp [bitsValue]

/-- A run of one bit: with the run's bit added, the number is shifted by the run's length. -/
theorem bitsValue_append_replicate (bits : List Bool) (n : Nat) (b : Bool) :
    bitsValue (bits ++ List.replicate n b) + flag b = (bitsValue bits + flag b) * 2 ^ n := by
  induction n with
  | zero => simp
  | succ n ih =>
    rw [List.replicate_succ', ← List.append_assoc, bitsValue_concat, pow_succ, ← mul_assoc, ← ih]
    omega

/-- A first bit is suppressed as the 0 it is (R268). -/
theorem bitsValue_firstBit {c : Coder} {b : Bool} (hfirst : c.first = true → c.bits = [] ∧ b = false) :
    bitsValue (c.bits ++ if c.first then [] else [b]) = 2 * bitsValue c.bits + flag b := by
  cases hf : c.first with
  | false => simp [bitsValue_concat]
  | true =>
    obtain ⟨hbits, rfl⟩ := hfirst hf
    simp [hbits, bitsValue, flag]

/-- Bits resolved: the waiting bits are the bit's complement, so that the carry is in the number (R268). -/
theorem lower_resolved {c : Coder} {b : Bool} (hfirst : c.first = true → c.bits = [] ∧ b = false) (range l : Nat) :
    (c.resolved b range l).lower + 2 * c.low = 2 * c.lower + (l + 1024 * flag b) := by
  have hvalue := bitsValue_append_replicate (c.bits ++ if c.first then [] else [b]) c.outst (!b)
  rw [bitsValue_firstBit hfirst] at hvalue
  have hpos : 1 ≤ 2 ^ c.outst := Nat.one_le_two_pow
  rw [add_mul, add_mul, mul_assoc] at hvalue
  rw [lower_eq, lower_eq c, pow_add 2 10 c.outst, mul_left_comm]
  simp only [Coder.resolved]
  generalize bitsValue c.bits * 2 ^ c.outst = v at *
  generalize 2 ^ c.outst = p at *
  cases b <;> simp [flag] at hvalue ⊢ <;> omega

/-- A waiting bit: the number it adds is its place less its complement's (R265, R268). -/
theorem lower_waiting (c : Coder) (range l : Nat) :
    ({ c with range := range, low := l, outst := c.outst + 1 } : Coder).lower + 2 * c.low =
      2 * c.lower + (l + 512) := by
  have hpos : 1 ≤ 2 ^ c.outst := Nat.one_le_two_pow
  simp only [lower_eq, ← add_assoc 10, pow_succ, ← mul_assoc]
  generalize bitsValue c.bits * 2 ^ (10 + c.outst) = v at *
  generalize 2 ^ c.outst = p at *
  omega

/-! ### Nested intervals -/

/-- The places of the code so far: the bits out and waiting, and the suppressed first bit (R268). -/
def Coder.places (c : Coder) : Nat :=
  c.bits.length + c.outst + flag (!c.first)

/-- The interval of d, n places after that of c, lies in it; d has n places more, c's bits among them. -/
structure Coder.Nests (c d : Coder) (n : Nat) : Prop where
  below : c.lower * 2 ^ n ≤ d.lower
  above : d.lower + d.range ≤ (c.lower + c.range) * 2 ^ n
  places : d.places = c.places + n
  bits : c.bits <+: d.bits
  first : d.first = true → c.first = true

theorem Coder.Nests.refl (c : Coder) : c.Nests c 0 :=
  ⟨by simp, by simp, rfl, List.prefix_rfl, id⟩

theorem Coder.Nests.trans {c d e : Coder} {m n : Nat} (h : c.Nests d m) (g : d.Nests e n) : c.Nests e (m + n) where
  below := by
    rw [pow_add, ← mul_assoc]
    exact (Nat.mul_le_mul_right _ h.below).trans g.below
  above := by
    rw [pow_add, ← mul_assoc]
    exact g.above.trans (Nat.mul_le_mul_right _ h.above)
  places := by rw [g.places, h.places, add_assoc]
  bits := h.bits.trans g.bits
  first := h.first ∘ g.first

/-- d comes of c by some places of the code. -/
def Coder.Refines (c d : Coder) : Prop :=
  d.FirstIsZero ∧ ∃ n, c.Nests d n

theorem Coder.Refines.trans {c d e : Coder} (h : c.Refines d) (g : d.Refines e) : c.Refines e := by
  obtain ⟨-, m, hm⟩ := h
  obtain ⟨hfirst, n, hn⟩ := g
  exact ⟨hfirst, m + n, hm.trans hn⟩

theorem places_resolved (c : Coder) (b : Bool) (range l : Nat) : (c.resolved b range l).places = c.places + 1 := by
  unfold Coder.places Coder.resolved
  cases c.first with
  | false => simp [flag]; omega
  | true => simp [flag]

/-- One place from an interval within the doubled one refines the code. -/
theorem place_refines {c d : Coder} {range low : Nat} (h : c.place range low = .ok d) (hc : c.FirstIsZero)
    (hrange : 0 < range) (hbelow : 2 * c.low ≤ low) (habove : low + range ≤ 2 * (c.low + c.range)) : c.Refines d := by
  rcases place_ok h with ⟨b, l, rfl, -, rfl⟩ | ⟨hhalf, -, rfl⟩
  · have hfirst : c.first = true → c.bits = [] ∧ b = false := by
      intro hf
      obtain ⟨hbits, hlow⟩ := hc hf
      refine ⟨hbits, ?_⟩
      cases b with
      | false => rfl
      | true => simp only [flag, if_true] at habove; omega
    have hlower := lower_resolved hfirst range l
    refine ⟨nofun, 1, by omega, ?_, places_resolved c b range l, ?_, nofun⟩
    · simp only [Coder.resolved] at hlower ⊢
      omega
    · simp only [Coder.resolved, List.append_assoc]
      exact List.prefix_append _ _
  · have hlower := lower_waiting c range (low - 512)
    refine ⟨fun hf => ?_, 1, by omega, ?_, ?_, List.prefix_rfl, id⟩
    · obtain ⟨hbits, hlow⟩ := hc hf
      exact ⟨hbits, by dsimp only; omega⟩
    · dsimp only
      omega
    · simp only [Coder.places]
      omega

/-- An interval within the old one, before RenormE (R266, R269). -/
theorem narrow_refines {c : Coder} (hc : c.FirstIsZero) {range low : Nat} (ctx : Vector Ctx Config.nCtx)
    (hbelow : c.low ≤ low) (habove : low + range ≤ c.low + c.range) :
    c.Refines { c with range := range, low := low, ctx := ctx } := by
  refine ⟨fun hf => ?_, 0, ?_, ?_, rfl, List.prefix_rfl, id⟩
  · obtain ⟨hbits, hlow⟩ := hc hf
    exact ⟨hbits, habove.trans hlow⟩
  · simp only [lower_eq]
    omega
  · simp only [lower_eq]
    omega

theorem renormLoop_refines {n : Nat} {c d : Coder} (h : renormLoop n c = .ok d) (hc : c.FirstIsZero)
    (hrange : 0 < c.range) : c.Refines d := by
  induction n generalizing c with
  | zero => exact Except.ok.inj h ▸ ⟨hc, 0, .refl c⟩
  | succ n ih =>
    unfold renormLoop at h
    split_ifs at h
    · obtain ⟨e, hstep, hloop⟩ := (bind_ok_iff _ _ _).1 h
      have herange := (renormStep_ok hstep).1
      rw [renormStep_eq_place] at hstep
      have hplace := place_refines hstep hc (by omega) (by omega) (by omega)
      exact hplace.trans (ih hloop hplace.1 (by omega))
    · exact Except.ok.inj h ▸ ⟨hc, 0, .refl c⟩

/-- A decision or a terminate bin of 0: the interval narrows, and RenormE follows. -/
theorem narrow_renorm_refines {c d : Coder} {range low : Nat} {ctx : Vector Ctx Config.nCtx} (hc : c.FirstIsZero)
    (h : renorm { c with range := range, low := low, ctx := ctx } = .ok d) (hrange : 0 < range) (hbelow : c.low ≤ low)
    (habove : low + range ≤ c.low + c.range) : c.Refines d := by
  have hnarrow := narrow_refines hc ctx hbelow habove
  exact hnarrow.trans (renormLoop_refines h hnarrow.1 hrange)

/-! ### Bins -/

theorem encodeDecision_refines {c d : Coder} {i : Nat} {b : Bool} (hfits : c.Fits) (hc : c.FirstIsZero)
    (h : encodeDecision c i b = .ok d) : c.Refines d := by
  obtain ⟨hlps, -, hmps⟩ := rLPS_bounds hfits i
  unfold encodeDecision at h
  dsimp only at h
  split at h
  · exact narrow_renorm_refines hc h (by omega) (by omega) (by omega)
  · exact narrow_renorm_refines hc h (by omega) le_rfl (by omega)

theorem encodeBypass_refines {c d : Coder} {b : Bool} (hfits : c.Fits) (hc : c.FirstIsZero)
    (h : encodeBypass c b = .ok d) : c.Refines d := by
  have hrange := hfits.range.1
  rw [encodeBypass_eq_place] at h
  exact place_refines h hc (by omega) (by omega) (by split <;> omega)

/-- A bin that does not terminate the code refines it (R266, R267, R269). -/
theorem codeBin_refines {c d : Coder} {b : Bin} (hfits : c.Fits) (hc : c.FirstIsZero) (hb : b ≠ .terminate true)
    (h : codeBin c b = .ok d) : c.Refines d := by
  cases b with
  | decision i b => exact encodeDecision_refines hfits hc h
  | bypass b => exact encodeBypass_refines hfits hc h
  | terminate b =>
    cases b with
    | true => exact absurd rfl hb
    | false =>
      have hrange := hfits.range.1
      exact narrow_renorm_refines hc h (by omega) le_rfl (by omega)

theorem codeBins_refines {c d : Coder} {bins : List Bin} (hfits : c.Fits) (hc : c.FirstIsZero)
    (hbins : ∀ b ∈ bins, b ≠ .terminate true) (h : codeBins c bins = .ok d) : c.Refines d := by
  induction bins generalizing c with
  | nil => exact Except.ok.inj h ▸ ⟨hc, 0, .refl c⟩
  | cons b bins ih =>
    obtain ⟨e, hbin, hrest⟩ := (bind_ok_iff _ _ _).1 h
    have hstep := codeBin_refines hfits hc (hbins b List.mem_cons_self) hbin
    exact hstep.trans (ih (codeBin_fits hfits hbin).1 hstep.1 (fun x hx => hbins x (List.mem_cons_of_mem _ hx)) hrest)

/-- Settles O50: every bin refines the code, place by place; the ranges are kept by `codeBins_fits`. -/
theorem coderIntervalsNest : Obligations.CoderIntervalsNest := by
  unfold Obligations.CoderIntervalsNest
  intro c d bins hfits hc hbins h
  obtain ⟨hfirst, n, hbelow, habove, hplaces, hbits, hmono⟩ := codeBins_refines hfits hc hbins h
  refine ⟨(codeBins_fits hfits h).1, hfirst, n, hbelow, habove, ?_, hbits⟩
  unfold Coder.places at hplaces
  cases hg : d.first with
  | true => simpa [hmono hg, hg, flag] using hplaces
  | false =>
    cases hf : c.first with
    | true => simpa [hf, hg, flag] using hplaces
    | false => simp [hf, hg, flag] at hplaces ⊢; omega

/-! ### RenormE turn by turn (R265) -/

theorem renormLoop_of_done (n : Nat) {c : Coder} (h : 256 ≤ c.range) : renormLoop n c = .ok c := by
  cases n with
  | zero => rfl
  | succ n => rw [renormLoop, if_neg (by omega)]

theorem renormLoop_succ_of_lt (n : Nat) {c : Coder} (h : c.range < 256) :
    renormLoop (n + 1) c = c.place (2 * c.range) (2 * c.low) >>= renormLoop n := by
  rw [renormLoop, if_pos h, renormStep_eq_place]

theorem range_of_place {c d : Coder} {range low : Nat} (h : c.place range low = .ok d) : d.range = range := by
  rcases place_ok h with ⟨b, l, -, -, rfl⟩ | ⟨-, -, rfl⟩ <;> rfl

/-- Turns past those that the range needs change nothing. -/
theorem renormLoop_succ {n : Nat} {c : Coder} (h : 256 ≤ c.range * 2 ^ n) :
    renormLoop (n + 1) c = renormLoop n c := by
  induction n generalizing c with
  | zero =>
    rw [pow_zero, mul_one] at h
    rw [renormLoop_of_done 1 h, renormLoop_of_done 0 h]
  | succ n ih =>
    by_cases hdone : 256 ≤ c.range
    · rw [renormLoop_of_done _ hdone, renormLoop_of_done _ hdone]
    · rw [renormLoop_succ_of_lt _ (by omega), renormLoop_succ_of_lt _ (by omega)]
      cases hplace : c.place (2 * c.range) (2 * c.low) with
      | error e => simp only [error_bind]
      | ok d =>
        refine ih ?_
        rw [range_of_place hplace]
        rw [pow_succ] at h
        linarith

/-- One turn of RenormE, and then RenormE again. -/
theorem renorm_eq_place {c : Coder} (hpos : 0 < c.range) (h : c.range < 256) :
    renorm c = c.place (2 * c.range) (2 * c.low) >>= renorm := by
  unfold renorm
  rw [renormLoop_succ_of_lt 7 h]
  cases hplace : c.place (2 * c.range) (2 * c.low) with
  | error e => simp only [error_bind]
  | ok d => exact (renormLoop_succ (by rw [range_of_place hplace]; omega)).symm

/-- Settles O46: one turn is one place of the code, by the halves that low lies in. -/
theorem renormalizationLoop : Obligations.RenormalizationLoop := by
  unfold Obligations.RenormalizationLoop
  intro c hpos
  refine ⟨renormLoop_of_done 8, fun hlt => ?_⟩
  rw [renorm_eq_place hpos hlt, Coder.place]
  refine ⟨fun hlow => ?_, fun hhigh => ?_, fun hlow hhigh hcount => ?_, fun hlow hhigh hcount => ?_⟩
  · rw [if_neg (by omega), if_pos (by omega), ok_bind]
  · rw [if_pos (by omega), ok_bind, show 2 * c.low - 1024 = 2 * (c.low - 512) by omega]
  · rw [if_neg (by omega), if_neg (by omega), if_pos hcount, ok_bind,
      show 2 * c.low - 512 = 2 * (c.low - 256) by omega]
  · rw [if_neg (by omega), if_neg (by omega), if_neg (by omega), error_bind]

end Sys2Proof.Machine

/-! SUPPORT. The bits written (R324 to R328): what the bit writer holds after whole bytes and the bits past them, and what
a state that writes them comes to. -/

namespace Sys2Proof.Machine

/-! ### Bits and bytes -/

theorem bitsMsb_eq_map_range (n v : Nat) : bitsMsb n v = (List.range n).map fun i => v.testBit (n - 1 - i) := by
  refine List.ext_getElem (by simp) fun i _ _ => ?_
  simp [bitsMsb]

theorem bitsMsb_succ (n v : Nat) : bitsMsb (n + 1) v = bitsMsb n (v / 2) ++ [v.testBit 0] := by
  simp [bitsMsb, List.range_succ_eq_map, Function.comp_def, Nat.testBit_succ]

/-- The bits of the number of a list of bits are the list. -/
theorem bitsMsb_bitsValue (bits : List Bool) : bitsMsb bits.length (bitsValue bits) = bits := by
  induction bits using List.reverseRecOn with
  | nil => rfl
  | append_singleton bits b ih =>
    have hhalf : (2 * bitsValue bits + flag b) / 2 = bitsValue bits := by
      have hbit : flag b < 2 := by cases b <;> decide
      omega
    have hlow : (2 * bitsValue bits + flag b).testBit 0 = b := by cases b <;> simp [flag]
    rw [List.length_append, List.length_singleton, bitsMsb_succ, bitsValue_concat, hhalf, hlow, ih]

@[simp] theorem bitsOf_nil : bitsOf [] = [] := rfl

/-- A byte of eight bits holds them from bit 7 down (R328). -/
theorem bitsOf_byteOfBits_cons {bits : List Bool} (h : bits.length = 8) (bytes : List Byte) :
    bitsOf (byteOfBits bits :: bytes) = bits ++ bitsOf bytes := by
  have hbyte : (List.range 8).map (fun k => (byteOfBits bits).getLsbD (7 - k)) = bits := by
    calc (List.range 8).map (fun k => (byteOfBits bits).getLsbD (7 - k))
      _ = bitsMsb 8 (bitsValue bits) := by
        rw [bitsMsb_eq_map_range]
        refine List.map_congr_left fun k _ => ?_
        rw [byteOfBits, BitVec.getLsbD_ofNat, decide_eq_true (by omega), Bool.true_and]
        rfl
      _ = bits := by rw [← h, bitsMsb_bitsValue]
  rw [bitsOf, List.flatMap_cons, hbyte]
  rfl

/-! ### The bit writer after bits (R324, R326) -/

theorem emitByte_zeros (w : BitWriter) (b : Byte) :
    (emitByte w b).1.zeros = if b = 0 then (if 2 ≤ w.zeros then 1 else min 2 (w.zeros + 1)) else 0 := by
  by_cases hb : b = 0
  · by_cases hz : 2 ≤ w.zeros <;> simp [emitByte, hb, hz]
  · rw [if_neg hb]
    exact if_neg hb

/-- bw.last_zero after bytes: whether the last of them is zero (R326). -/
def lastZeroAfter (lastZero : Bool) (bytes : List Byte) : Bool :=
  (bytes.map fun b => decide (b = 0)).getLastD lastZero

theorem lastZeroAfter_cons (lastZero : Bool) (b : Byte) (bytes : List Byte) :
    lastZeroAfter lastZero (b :: bytes) = lastZeroAfter (decide (b = 0)) bytes := by
  rw [lastZeroAfter, List.map_cons, List.getLastD_cons, lastZeroAfter]

theorem lastZeroAfter_eq (lastZero : Bool) (bytes : List Byte) : lastZeroAfter lastZero bytes =
    if bytes = [] then lastZero else decide (bytes.getLast? = some 0) := by
  induction bytes using List.reverseRecOn with
  | nil => rfl
  | append_singleton bytes b => simp [lastZeroAfter]

/-- The bit writer w' comes of w by bits that complete these bytes. -/
structure WriterAfter (w : BitWriter) (bits : List Bool) (bytes : List Byte) (w' : BitWriter) : Prop where
  acc : w.acc ++ bits = bitsOf bytes ++ w'.acc
  zeros : w'.zeros = zerosAfter w.zeros bytes
  lastZero : w'.lastZero = lastZeroAfter w.lastZero bytes

theorem putBitsRaw_after {w : BitWriter} (h : w.acc.length ≤ 7) (bits : List Bool) :
    WriterAfter w bits (wholeBytes (w.acc ++ bits)) (putBitsRaw w bits).1 := by
  induction bits generalizing w with
  | nil => exact ⟨by simp [h], by simp [h, zerosAfter], by simp [h, lastZeroAfter]⟩
  | cons b bits ih =>
    obtain ⟨hacc, hzeros, hlast⟩ := ih (w := (putBitRaw w b).1) (by rw [putBitRaw_acc_length h]; omega)
    rw [List.append_cons]
    rcases putBitRaw_cases w b with ⟨-, hput⟩ | ⟨hfull, hput⟩
    · rw [hput] at hacc hzeros hlast
      rw [putBitsRaw_cons, hput]
      exact ⟨(List.append_cons ..).trans hacc, hzeros, hlast⟩
    · have hbits : (w.acc ++ [b]).length = 8 := by simp [hfull]
      rw [hput, emitByte_acc, List.nil_append] at hacc hzeros hlast
      rw [emitByte_zeros] at hzeros
      rw [wholeBytes_append hbits, putBitsRaw_cons, hput]
      refine ⟨?_, hzeros, hlast.trans (lastZeroAfter_cons ..).symm⟩
      rw [bitsOf_byteOfBits_cons hbits, List.append_assoc, ← hacc, List.append_cons]

/-! ### A state that writes bytes, and bits (R321) -/

section
variable {s t : State}

theorem emitted_of_writeAll {bytes : List Byte} (hout : t.out = s.out.writeAll s.wptr (escape s.bw.zeros bytes))
    (hwptr : t.wptr = s.wptr + (escape s.bw.zeros bytes).length) (hfits : BytesFit s bytes) (hdesc : t.desc = s.desc)
    (hzeros : t.bw.zeros = zerosAfter s.bw.zeros bytes) (hlast : t.bw.lastZero = lastZeroAfter s.bw.lastZero bytes)
    (hunit : UnitKept s t) : Emitted s t bytes := by
  have hbyte : ∀ k, t.outByte k = if k < s.wptr then s.outByte k
      else if k < s.wptr + (escape s.bw.zeros bytes).length then (escape s.bw.zeros bytes).getD (k - s.wptr) 0
      else unlistedByte := by
    intro k
    rw [← outByte_of_outBytes ((outBytes_ok_iff s _ _).2 ⟨hfits, rfl⟩) k, State.outByte, hout, hwptr]
    rfl
  refine ⟨hwptr, hwptr ▸ hfits, fun k hk => ?_, fun k hk => ?_, fun k hk => ?_, hdesc, hzeros,
    hlast.trans (lastZeroAfter_eq _ _), hunit⟩
  · rw [hbyte, if_neg (by omega), if_pos (by omega), Nat.add_sub_cancel_left]
  · rw [hbyte, if_pos hk]
  · rw [State.outByte, if_neg (by omega)]
    rfl

/-- A state that takes the bit writer and the output from PutBitRaw of bits has written them. -/
theorem appended_of_putBitsRaw {bits : List Bool} (hacc : s.bw.acc.length ≤ 7) (hfits : BitsFit s bits)
    (hbw : t.bw = (putBitsRaw s.bw bits).1) (hout : t.out = s.out.writeAll s.wptr (putBitsRaw s.bw bits).2)
    (hwptr : t.wptr = s.wptr + (putBitsRaw s.bw bits).2.length) (hdesc : t.desc = s.desc) : Appended s t bits := by
  obtain ⟨hopen, hstart, hhdr, hcount⟩ := putBitsRaw_unit s.bw bits
  obtain ⟨hbits, hzeros, hlast⟩ := putBitsRaw_after hacc bits
  rw [putBitsRaw_bytes hacc] at hout hwptr
  rw [← hbw] at hopen hstart hhdr hcount hbits hzeros hlast
  have hrest := putBitsRaw_acc_length hacc bits
  rw [← hbw] at hrest
  exact ⟨by omega, hcount, _, hbits, emitted_of_writeAll hout hwptr hfits hdesc hzeros hlast ⟨hopen, hstart, hhdr⟩⟩

end

end Sys2Proof.Machine

/-! SUPPORT. The coding commands (R276 to R279): what a command comes to that codes bins and writes their bits, said once,
and the statements on CDEC, CBYP, CBYPN and CTERM. -/

namespace Sys2Proof.Machine

/-! ### Coding bins and writing their bits (R271, R272) -/

/-- The end of a coding command: the CABAC state and RESULT it leaves. -/
def State.endCoding (t : State) (state : CabacState) (result : Word) : State :=
  { t.setCabacState state with result := result }

section
variable {i : Instr} {s t : State} {bins : List Bin} {state : CabacState} {result : Word}

/-- Coding keeps RESULT and the CABAC state, so an end that gives them again changes nothing. -/
theorem endCoding_of_codeAndWrite (h : codeAndWrite bins s = .ok t) :
    t.endCoding state s.result = t.setCabacState state ∧ t.setCabacState s.cabac.state = t := by
  obtain ⟨c, -, hw⟩ := (codeAndWrite_ok_iff _ _ _).1 h
  obtain ⟨-, rfl⟩ := (writeBits_ok_iff _ _ _).1 hw
  exact ⟨rfl, rfl⟩

theorem codedDone_of_codeAndWrite {c : Coder} (hs : s.Ranges) (hfits : BitsFit s c.bits)
    (hw : writeBits (s.storeCoder c) c.bits = .ok t) :
    CodedDone s (t.endCoding state result).retire state c := by
  obtain ⟨-, rfl⟩ := (writeBits_ok_iff _ _ _).1 hw
  refine ⟨by rw [retire_cabac]; rfl, by rw [retire_ctx]; rfl, ?_, fun a => by rw [retire_bram]; rfl,
    by rw [retire_sat]; rfl, ?_, ?_, irqAfter_retire rfl rfl⟩
  · exact appended_of_putBitsRaw hs.writer.1 hfits (by rw [retire_bw]; rfl) (by rw [retire_out]; rfl)
      (by rw [retire_wptr]; rfl) (by rw [retire_desc]; rfl)
  · exact ⟨retire_qpy _, retire_cboff _, retire_croff _⟩
  · constructor <;> simp [State.endCoding]

/-- A command that codes bins, writes their bits and ends so (R271, R272, R324). -/
theorem codesTo_of_effectOf {bytes : Nat} (hs : s.Ranges)
    (heff : effectOf i s = codeAndWrite bins s >>= fun t => .ok (t.endCoding state result))
    (hbytes : 3 * bins.length + 2 ≤ bytes) : CodesTo i s (codeBins s.loadCoder bins) state result bytes where
  completes c hc hfits := by
    obtain ⟨t, hw⟩ := (writeBits_is_ok_iff (s := s.storeCoder c) hs.writer.1 c.bits).2 hfits
    rw [(codeAndWrite_ok_iff _ _ _).2 ⟨c, hc, hw⟩, ok_bind] at heff
    exact ⟨_, exec_of_effectOf heff, codedDone_of_codeAndWrite hs hfits hw, retire_result _⟩
  full c hc hfull := by
    have hw := (writeBits_error_iff (s := s.storeCoder c) hs.writer.1 c.bits .outOverflow).2 ⟨hfull, rfl⟩
    rw [codeAndWrite, hc, ok_bind, hw, error_bind] at heff
    exact commandRefused_of_effectOf heff
  overflow e he := by
    obtain rfl : e = .outstOverflow := errorsMeet_codeBins (p := (· = .outstOverflow)) rfl s.loadCoder bins e he
    rw [codeAndWrite, he, error_bind, error_bind] at heff
    exact ⟨rfl, commandRefused_of_effectOf heff⟩
  room hroom := by
    obtain ⟨t, ht⟩ := codeAndWrite_is_ok hs bins ((Nat.add_le_add_left hbytes _).trans hroom)
    obtain ⟨c, hc, hw⟩ := (codeAndWrite_ok_iff _ _ _).1 ht
    exact ⟨c, hc, (writeBits_is_ok_iff (s := s.storeCoder c) hs.writer.1 c.bits).1 ⟨t, hw⟩⟩

/-- A coding command that leaves the coder active. -/
theorem codesTo_active {bytes : Nat} (hs : s.Ranges) (hmay : MayCode s) (heff : effectOf i s = codeAndWrite bins s)
    (hbytes : 3 * bins.length + 2 ≤ bytes) : CodesTo i s (codeBins s.loadCoder bins) .active s.result bytes := by
  refine codesTo_of_effectOf hs (heff.trans ?_) hbytes
  cases hcode : codeAndWrite bins s with
  | error e => rfl
  | ok t =>
    obtain ⟨hend, hkept⟩ := endCoding_of_codeAndWrite (state := .active) hcode
    rw [ok_bind, hend, ← hmay.1, hkept]

/-! ### The commands' effects, past their checks -/

theorem effectOf_cdec {ctx : BitVec 10} {bin : Bool} (hmay : MayCode s) (hctx : ctx.toNat < 460)
    (hterm : ctx.toNat ≠ 276) : effectOf (.cdec ctx bin) s = codeAndWrite [.decision ctx.toNat bin] s := by
  have hfields : checkFields (.cdec ctx bin) = .ok () :=
    (checkFields_ok_iff _).2 (by simp [Instr.wellFormed, hctx, hterm])
  simp only [effectOf, hfields, (checkCoding_ok_iff s).2 hmay, ok_bind]

theorem effectOf_cbyp {bin : Bool} (hmay : MayCode s) :
    effectOf (.cbyp bin) s = codeAndWrite [.bypass bin] s := by
  simp only [effectOf, (checkCoding_ok_iff s).2 hmay, ok_bind]

theorem effectOf_cbypn {n : BitVec 6} {value : Word} (hmay : MayCode s) (hn : n.toNat ≤ 32) :
    effectOf (.cbypn n value) s = codeAndWrite
      ((List.range n.toNat).map fun i => .bypass (value.getLsbD (n.toNat - 1 - i))) s := by
  have hfields : checkFields (.cbypn n value) = .ok () :=
    (checkFields_ok_iff _).2 (by simp [Instr.wellFormed, hn])
  simp only [effectOf, hfields, (checkCoding_ok_iff s).2 hmay, ok_bind, bitsMsb_eq_map_range, List.map_map]
  rfl

theorem effectOf_cterm_false (hmay : MayCode s) :
    effectOf (.cterm false) s = codeAndWrite [.terminate false] s := by
  simp only [effectOf, (checkCoding_ok_iff s).2 hmay, ok_bind]
  cases codeAndWrite [.terminate false] s <;> rfl

theorem effectOf_cterm_true (hmay : MayCode s) : effectOf (.cterm true) s =
    codeAndWrite [.terminate true] s >>= fun t => .ok (t.endCoding .terminated s.result) := by
  simp only [effectOf, (checkCoding_ok_iff s).2 hmay, ok_bind, if_true]
  cases hcode : codeAndWrite [.terminate true] s with
  | error e => rfl
  | ok t => rw [ok_bind, ok_bind, (endCoding_of_codeAndWrite hcode).1]

end

/-! ### One bin, as the rules print it (R266, R269) -/

theorem transIdxMPS_eq (p : Nat) : transIdxMPS p = if p < 62 then p + 1 else p := by
  unfold transIdxMPS
  split_ifs <;> omega

theorem setIfInBounds_eq_set (ctx : Vector Ctx Config.nCtx) {i : Nat} (h : i < Config.nCtx) (x : Ctx) :
    ctx.setIfInBounds i x = ctx.set i x h :=
  Vector.ext fun j hj => by rw [Vector.getElem_setIfInBounds hj, Vector.getElem_set]

/-- A decision of a context of the bank (R266). -/
theorem encodeDecision_eq (c : Coder) {i : Nat} (h : i < 460) (bin : Bool) :
    let p := (c.ctx[i]).pStateIdx
    let mps := (c.ctx[i]).valMPS
    let rLPS := entry rangeTabLPS p (c.range / 64 % 4)
    encodeDecision c i bin = renorm (if bin = mps then
        { c with range := c.range - rLPS, ctx := c.ctx.set i ⟨if p < 62 then p + 1 else p, mps⟩ }
      else
        { c with range := rLPS, low := c.low + (c.range - rLPS)
                 ctx := c.ctx.set i ⟨transIdxLPS.getD p 0, if p = 0 then !mps else mps⟩ }) := by
  have hctx : ctxAt c.ctx i = c.ctx[i] := by
    rw [ctxAt, Vector.getElem?_eq_getElem h, Option.getD_some]
  intro p mps rLPS
  unfold encodeDecision
  simp only [hctx, transIdxMPS_eq, setIfInBounds_eq_set _ h, ne_eq, ite_not]
  exact (apply_ite renorm _ _ _).symm

theorem encodeTerminate_true_eq (c : Coder) : encodeTerminate c true =
    (renorm { c with range := 2, low := c.low + (c.range - 2) }).map fun d =>
      { d.resolved (d.low.testBit 9) d.range d.low with
        bits := (d.resolved (d.low.testBit 9) d.range d.low).bits ++ [d.low.testBit 8, true] } := by
  unfold encodeTerminate encodeFlush
  dsimp only
  rw [if_pos rfl]
  cases renorm { c with range := 2, low := c.low + (c.range - 2) } <;> rfl

/-! ### The statements -/

/-- Settles O47: the decision is the rule's, and the ranges after it are those every bin keeps. -/
theorem cdecCodesDecision : Obligations.CdecCodesDecision := by
  unfold Obligations.CdecCodesDecision
  intro s ctx bin hctx hterm hs hmay p mps rLPS range coded
  have hcoded : codeBins s.loadCoder [.decision ctx.toNat bin] = coded := by
    rw [codeBins_single, codeBin]
    exact encodeDecision_eq s.loadCoder hctx bin
  rw [← hcoded]
  refine ⟨codesTo_active hs hmay (effectOf_cdec hmay hctx hterm) le_rfl, fun c hc => ?_⟩
  obtain ⟨⟨hlo, hhi⟩, hlow, -, -⟩ := (codeBins_fits (loadCoder_fits hs) hc).1
  refine ⟨hlo, hhi, by omega, fun j hj hne => ?_⟩
  exact codeBins_ctx hj (by simpa using hne.symm) hc

/-- Settles O48: one bypass bin is one place of the code; the bins of CBYPN follow one another. -/
theorem bypassBinsAreCoded : Obligations.BypassBinsAreCoded := by
  unfold Obligations.BypassBinsAreCoded
  intro s hs hmay
  refine ⟨fun bin => ?_, fun n value hn => ?_⟩
  · have hcodes := codesTo_active hs hmay (effectOf_cbyp (bin := bin) hmay) le_rfl
    rw [codeBins_single, codeBin, encodeBypass_eq_place, Coder.place] at hcodes
    exact hcodes
  · exact codesTo_active hs hmay (effectOf_cbypn hmay hn) (by rw [List.length_map, List.length_range]; omega)

/-- Settles O49: with bin 0 RenormE alone, with bin 1 the flush, after which the state is TERMINATED. -/
theorem ctermTerminates : Obligations.CtermTerminates := by
  unfold Obligations.CtermTerminates
  intro s hs hmay
  constructor
  · have hcodes := codesTo_active hs hmay (effectOf_cterm_false hmay) le_rfl
    rw [codeBins_single] at hcodes
    exact hcodes
  · have hcodes := codesTo_of_effectOf hs (effectOf_cterm_true hmay) le_rfl
    rw [codeBins_single, codeBin, encodeTerminate_true_eq] at hcodes
    exact hcodes

end Sys2Proof.Machine

/-! SUPPORT. CINIT (R270, R275), and the isolation of the engine commands (R260): what a command does with other values in
the elements that the engine does not touch. -/

namespace Sys2Proof.Machine

/-! ### The contexts that CINIT computes (R270) -/

/-- The arithmetic shift by four (R10), with the count an `Int` where Mathlib is imported, else a `Nat` (next lemma). -/
@[simp] theorem int_shiftRight_four (z : Int) : z >>> (4 : Int) = z / 16 :=
  (Int.shiftRight_natCast_right z 4).trans (Int.shiftRight_eq_div_pow z 4)

@[simp] theorem int_shiftRight_four_nat (z : Int) : z >>> (4 : Nat) = z / 16 :=
  Int.shiftRight_eq_div_pow z 4

theorem initialContext_eq (m n : Int) (sliceqp : Nat) :
    let pre := max 1 (min 126 (m * min 51 (max 0 (sliceqp : Int)) / 16 + n))
    initialContext m n sliceqp = if pre ≤ 63 then ⟨(63 - pre).toNat, false⟩ else ⟨(pre - 64).toNat, true⟩ := by
  have hclip : ∀ v : Int, clip3 1 126 v = max 1 (min 126 v) := fun v => by
    rw [clip3]
    omega
  simp only [initialContext, hclip]
  simp [clip3]

theorem initialContexts_276 (table : Nat → BitVec 8 × BitVec 8) (sliceqp : Nat) :
    (initialContexts table sliceqp)[276] = ⟨63, false⟩ := by
  simp [initialContexts]

theorem initialContexts_getElem (table : Nat → BitVec 8 × BitVec 8) (sliceqp : Nat) {i : Nat} (h : i < 460)
    (hterm : i ≠ 276) :
    (initialContexts table sliceqp)[i] = initialContext (table i).1.toInt (table i).2.toInt sliceqp := by
  simp [initialContexts, hterm]

/-! ### CINIT (R275) -/

theorem retire_eq (s : State) :
    s.retire = { s with irqPend := s.irqPend ||| if s.fifo = [] then irqIdle else 0 } := by
  unfold State.retire
  by_cases hf : s.fifo = []
  · rw [if_pos (List.isEmpty_iff.2 hf), if_pos hf]
    rfl
  · have hzero : s.irqPend ||| 0 = s.irqPend := BitVec.or_zero
    rw [if_neg (mt List.isEmpty_iff.1 hf), if_neg hf, hzero]

section
variable {s : State} {model : BitVec 2} {sliceqp : BitVec 6} {eng : Bool}

theorem effectOf_cinit (hqp : sliceqp.toNat ≤ 51) (heng : eng = true → model = 0 ∧ sliceqp = 0) :
    effectOf (.cinit model sliceqp eng) s = cinitEffect model sliceqp eng s := by
  have hfields : checkFields (.cinit model sliceqp eng) = .ok () := by
    refine (checkFields_ok_iff _).2 ?_
    cases eng <;> simp_all [Instr.wellFormed]
  rw [effectOf, hfields, ok_bind]

theorem cinitEffect_pending (h : s.bw.nalOpen = true ∧ s.bw.acc ≠ []) :
    cinitEffect model sliceqp eng s = .error .bwAlign := by
  simp [cinitEffect, h]

theorem cinitEffect_starts (h : s.bw.nalOpen = false ∨ s.bw.acc = []) :
    cinitEffect model sliceqp eng s = .ok { s.startCoder with
      ctx := if eng then s.ctx else initialContexts (Config.cabacInitMN model) sliceqp.toNat } := by
  rcases h with h | h <;> simp [cinitEffect, h]

end

/-- Settles O45: the bit-alignment check decides; the contexts are those of the table at the slice QP. -/
theorem cinitStartsCoder : Obligations.CinitStartsCoder := by
  unfold Obligations.CinitStartsCoder
  intro s model sliceqp eng hqp heng
  have heff := effectOf_cinit (s := s) hqp heng
  refine ⟨fun h => commandRefused_of_effectOf (heff.trans (cinitEffect_pending h)), fun h => ?_⟩
  refine ⟨_, exec_of_effectOf (heff.trans (cinitEffect_starts h)), (retire_eq _).trans ?_, ?_, ?_⟩
  · rw [retire_ctx]
    rfl
  · rintro rfl
    rw [retire_ctx, if_pos rfl]
  · rintro rfl
    simp only [retire_ctx, Bool.false_eq_true, if_false]
    refine ⟨initialContexts_276 _ _, fun i hi hterm => ?_⟩
    rw [initialContexts_getElem _ _ hi hterm]
    exact initialContext_eq _ _ _

/-! ### Other values outside the engine (R260) -/

/-- s with the elements outside the engine as r has them: the buffer RAM, the scaling RAM, QP, RESULT, SAT, the descriptors
and CTRL. -/
def State.withOutsideOf (s r : State) : State :=
  { s with bram := r.bram, scal := r.scal, qpy := r.qpy, cboff := r.cboff, croff := r.croff, result := r.result
           sat := r.sat, enable := r.enable, lossless := r.lossless, desc := r.desc }

section
variable (s r : State)

theorem withOutsideOf_retire : (s.withOutsideOf r).retire = s.retire.withOutsideOf r := by
  rw [retire_eq, retire_eq]
  rfl

theorem withOutsideOf_recordError (e : ErrCode) (lo hi : Word) :
    (s.withOutsideOf r).recordError e lo hi = (s.recordError e lo hi).withOutsideOf r := by
  unfold State.recordError
  cases hs : s.err <;> simp [State.withOutsideOf, hs]

@[simp] theorem withOutsideOf_bw : (s.withOutsideOf r).bw = s.bw := rfl

@[simp] theorem checkCoding_withOutsideOf : checkCoding (s.withOutsideOf r) = checkCoding s := rfl

theorem writeBits_withOutsideOf (bits : List Bool) :
    writeBits (s.withOutsideOf r) bits = (·.withOutsideOf r) <$> writeBits s bits := by
  unfold writeBits outBytes
  dsimp only
  rw [apply_ite (Functor.map _)]
  rfl

theorem codeAndWrite_withOutsideOf (bins : List Bin) :
    codeAndWrite bins (s.withOutsideOf r) = (·.withOutsideOf r) <$> codeAndWrite bins s := by
  rw [codeAndWrite, codeAndWrite, map_bind]
  exact bind_congr fun c => writeBits_withOutsideOf (s.storeCoder c) r c.bits

/-- The effect of an engine command does not depend on the elements outside, and leaves them as they are. -/
theorem effectOf_withOutsideOf {i : Instr} (hi : isEngine i = true) :
    effectOf i (s.withOutsideOf r) = (·.withOutsideOf r) <$> effectOf i s := by
  cases i with
  | cinit model sliceqp eng =>
    simp only [effectOf, cinitEffect, map_bind, withOutsideOf_bw]
    cases eng <;> rfl
  | cdec _ _ | cbyp _ | cbypn _ _ =>
    simp only [effectOf, map_bind, checkCoding_withOutsideOf, codeAndWrite_withOutsideOf]
  | cterm bin =>
    simp only [effectOf, map_bind, bind_map_left, checkCoding_withOutsideOf, codeAndWrite_withOutsideOf]
    cases bin <;> rfl
  | _ => cases hi

/-- An engine command commutes with other values outside, whether it completes or is refused. -/
theorem exec_withOutsideOf {i : Instr} {t : State} (hi : isEngine i = true) (h : exec i s = .next t) :
    exec i (s.withOutsideOf r) = .next (t.withOutsideOf r) := by
  rw [exec_eq_finish, effectOf_withOutsideOf s r hi]
  rcases (exec_next_iff i s t).1 h with ⟨u, hu, rfl⟩ | ⟨e, he, rfl⟩
  · rw [hu, ← withOutsideOf_retire]
    rfl
  · rw [he, ← withOutsideOf_recordError]
    rfl

end

/-- Settles O51: the other values are those of a state that differs from s in them alone. -/
theorem engineCommandsAreIsolated : Obligations.EngineCommandsAreIsolated := by
  unfold Obligations.EngineCommandsAreIsolated
  intro i s t hi h bram scal qpy cboff croff result sat en ll desc
  exact exec_withOutsideOf s
    { s with bram := bram, scal := scal, qpy := qpy, cboff := cboff, croff := croff, result := result
             sat := sat, enable := en, lossless := ll, desc := desc } hi h

end Sys2Proof.Machine

/-! SUPPORT. The bins of a residual block (R300 to R306): the recursive lists of the map, the suffix and the levels in
closed form, the contexts they name and how many they are, and the statement on them. -/

namespace Sys2Proof.Machine

/-! ### The suffix (R306) -/

/-- The suffix's loop in closed form. A turn keeps s + 2^k, so the loop ends where k is the logarithm of that sum. -/
theorem suffixLoop_eq {fuel s k : Nat} (h : s + 2 ^ k < 2 ^ (k + fuel)) :
    suffixLoop fuel s k = List.replicate (Nat.log2 (s + 2 ^ k) - k) (.bypass true) ++ .bypass false ::
      (bitsMsb (Nat.log2 (s + 2 ^ k)) (s + 2 ^ k - 2 ^ Nat.log2 (s + 2 ^ k))).map .bypass := by
  induction fuel generalizing s k with
  | zero => rw [Nat.add_zero] at h; omega
  | succ fuel ih =>
    have hpos : s + 2 ^ k ≠ 0 := by have := Nat.two_pow_pos k; omega
    rw [suffixLoop]
    split_ifs with hk
    · have hsame : s - 2 ^ k + 2 ^ (k + 1) = s + 2 ^ k := by omega
      have hlog : k + 1 ≤ Nat.log2 (s + 2 ^ k) := (Nat.le_log2 hpos).2 (by omega)
      rw [ih (by rw [hsame, Nat.add_right_comm]; exact h), hsame,
        show Nat.log2 (s + 2 ^ k) - k = Nat.log2 (s + 2 ^ k) - (k + 1) + 1 by omega, List.replicate_succ,
        List.cons_append]
    · have hlog : Nat.log2 (s + 2 ^ k) = k := (Nat.log2_eq_iff hpos).2 ⟨by omega, by omega⟩
      rw [hlog, Nat.sub_self, Nat.add_sub_cancel, List.replicate_zero, List.nil_append]

theorem suffixBins_eq_suffixSyntax {s : Nat} (h : s + 1 < 2 ^ 17) : suffixBins s = suffixSyntax s := by
  rw [suffixBins, suffixLoop_eq (by simpa using h), bitsMsb_eq_map_range, List.map_map]
  rfl

theorem length_suffixSyntax (s : Nat) : (suffixSyntax s).length = 2 * Nat.log2 (s + 1) + 1 := by
  simp only [suffixSyntax, List.length_append, List.length_replicate, List.length_cons, List.length_map,
    List.length_range]
  omega

theorem decision_not_mem_suffixSyntax (s i : Nat) (b : Bool) : .decision i b ∉ suffixSyntax s := by
  simp [suffixSyntax]

/-! ### The levels (R304, R305) -/

theorem levelBins_eq_levelSyntax (cat eq1 gt1 : Nat) {c : Int} (hlo : -32768 ≤ c) (hhi : c ≤ 32767) :
    levelBins cat eq1 gt1 c = levelSyntax cat eq1 gt1 c := by
  have hinc0 : (if gt1 ≠ 0 then 0 else min 4 (1 + eq1)) = if gt1 = 0 then min 4 (1 + eq1) else 0 := ite_not ..
  have hincN : 4 - (if cat = 3 then 1 else 0) = if cat = 3 then 3 else 4 := by split_ifs <;> rfl
  have hsuffix := suffixBins_eq_suffixSyntax (s := c.natAbs - 1 - 14) (by omega)
  simp only [levelBins, levelSyntax, prefixBins, hinc0, hincN, hsuffix]
  by_cases ha : c.natAbs - 1 < 14
  · simp only [if_pos ha, if_neg (Nat.not_le.2 ha), List.append_nil]
    rfl
  · simp only [if_neg ha, if_pos (Nat.not_lt.1 ha), List.append_nil]
    rfl

/-- The context of bin b of the first part of a level, after eq1 levels of absolute value 1 and gt1 above 1 (R304). -/
def absCtx (cat eq1 gt1 b : Nat) : Nat :=
  absBase cat + if b = 0 then (if gt1 = 0 then min 4 (1 + eq1) else 0) else 5 + min (if cat = 3 then 3 else 4) gt1

theorem absCtx_eq_absBase_add (cat eq1 gt1 b : Nat) : ∃ inc < 10, absCtx cat eq1 gt1 b = absBase cat + inc :=
  ⟨_, by split_ifs <;> omega, rfl⟩

theorem levelSyntax_eq (cat eq1 gt1 : Nat) (c : Int) : levelSyntax cat eq1 gt1 c =
    (List.range (min (c.natAbs - 1) 14)).map (fun b => .decision (absCtx cat eq1 gt1 b) true) ++
      (if c.natAbs - 1 < 14 then [.decision (absCtx cat eq1 gt1 (c.natAbs - 1)) false]
        else suffixSyntax (c.natAbs - 1 - 14)) ++ [.bypass (decide (c < 0))] := rfl

/-- At most 14 bins, then 29 of the suffix for a level of -32768, and the sign. -/
theorem length_levelSyntax_le (cat eq1 gt1 : Nat) {c : Int} (hlo : -32768 ≤ c) (hhi : c ≤ 32767) :
    (levelSyntax cat eq1 gt1 c).length ≤ 44 := by
  have hlog : Nat.log2 (c.natAbs - 1 - 14 + 1) < 15 := (Nat.log2_lt (Nat.succ_ne_zero _)).2 (by omega)
  rw [levelSyntax_eq, List.length_append, List.length_append, List.length_map, List.length_range,
    List.length_singleton]
  split_ifs
  · rw [List.length_singleton]
    omega
  · rw [length_suffixSyntax]
    omega

theorem decision_mem_levelSyntax {cat eq1 gt1 i : Nat} {c : Int} {b : Bool}
    (h : .decision i b ∈ levelSyntax cat eq1 gt1 c) : ∃ inc < 10, i = absBase cat + inc := by
  rw [levelSyntax_eq, List.mem_append, List.mem_append, List.mem_map] at h
  rcases h with (⟨k, -, hk⟩ | h) | h
  · obtain ⟨rfl, -⟩ := Bin.decision.inj hk
    exact absCtx_eq_absBase_add ..
  · split_ifs at h
    · obtain ⟨rfl, -⟩ := Bin.decision.inj (List.mem_singleton.1 h)
      exact absCtx_eq_absBase_add ..
    · exact absurd h (decision_not_mem_suffixSyntax _ _ _)
  · cases List.mem_singleton.1 h

/-- The levels after eq1 levels of absolute value 1 and gt1 above 1. -/
theorem levelsBins_eq {cat eq1 gt1 : Nat} {ls : List Int} (h : ∀ c ∈ ls, c ≠ 0 ∧ -32768 ≤ c ∧ c ≤ 32767) :
    levelsBins cat eq1 gt1 ls = (List.range ls.length).flatMap fun j =>
      levelSyntax cat (eq1 + ((ls.take j).filter fun c => c.natAbs == 1).length)
        (gt1 + ((ls.take j).filter fun c => 1 < c.natAbs).length) (ls.getD j 0) := by
  induction ls generalizing eq1 gt1 with
  | nil => rfl
  | cons c cs ih =>
    obtain ⟨⟨hne, hlo, hhi⟩, hcs⟩ := List.forall_mem_cons.1 h
    rw [levelsBins, levelBins_eq_levelSyntax _ _ _ hlo hhi, List.length_cons, List.range_succ_eq_map,
      List.flatMap_cons, List.flatMap_map]
    congr 1
    split_ifs with hc
    · simp [ih hcs, hc, Nat.add_assoc, Nat.add_comm 1]
    · have hgt : 1 < c.natAbs := by omega
      simp [ih hcs, hc, hgt, Nat.add_assoc, Nat.add_comm 1]

theorem levelsBins_eq_levelsSyntax {cat : Nat} {ls : List Int} (h : ∀ c ∈ ls, c ≠ 0 ∧ -32768 ≤ c ∧ c ≤ 32767) :
    levelsBins cat 0 0 ls = levelsSyntax cat ls := by
  rw [levelsBins_eq h]
  simp only [Nat.zero_add, levelsSyntax]

/-! ### The significance map (R302) -/

/-- The flags of one scan position: whether it is significant, and if so, whether it is the last. -/
def positionFlags (cat i : Nat) (c : Int) (isLast : Bool) : List Bin :=
  .decision (sigCtx cat i) (c != 0) :: if c = 0 then [] else [.decision (lastCtx cat i) isLast]

theorem mapSyntax_eq (cat last : Nat) (cs : List Int) : mapSyntax cat last cs =
    (List.range (min (last + 1) (cs.length - 1))).flatMap fun i => positionFlags cat i (cs.getD i 0) (i == last) := rfl

theorem length_positionFlags_le (cat i : Nat) (c : Int) (isLast : Bool) :
    (positionFlags cat i c isLast).length ≤ 2 := by
  unfold positionFlags
  split_ifs <;> simp

theorem decision_mem_positionFlags {cat i j : Nat} {c : Int} {isLast b : Bool}
    (h : .decision i b ∈ positionFlags cat j c isLast) : i = sigCtx cat j ∨ i = lastCtx cat j := by
  rw [positionFlags, List.mem_cons] at h
  rcases h with h | h
  · exact .inl (Bin.decision.inj h).1
  · split_ifs at h
    · cases h
    · exact .inr (Bin.decision.inj (List.mem_singleton.1 h)).1

theorem mapBins_cons_cons (cat i : Nat) (c d : Int) (rest : List Int) : mapBins cat i (c :: d :: rest) =
    positionFlags cat i c ((d :: rest).all (· = 0)) ++
      if c ≠ 0 ∧ (d :: rest).all (· = 0) = true then [] else mapBins cat (i + 1) (d :: rest) := by
  rw [mapBins, positionFlags]
  by_cases hc : c = 0
  · simp [hc]
  · cases hrest : (d :: rest).all (· = 0) <;> simp [hc]

theorem all_zero_iff (cs : List Int) : cs.all (· = 0) = true ↔ ∀ j, cs.getD j 0 = 0 := by
  induction cs with
  | nil => simp
  | cons c cs ih =>
    rw [List.all_cons, Bool.and_eq_true, decide_eq_true_eq, ih]
    exact Nat.and_forall_add_one (p := fun j => (c :: cs).getD j 0 = 0)

/-- The map from scan position `start` on, the last significant coefficient being `last` places after it. -/
theorem mapBins_eq (cat start : Nat) {last : Nat} {cs : List Int} (hlast : cs.getD last 0 ≠ 0)
    (hzeros : ∀ j, last < j → cs.getD j 0 = 0) : mapBins cat start cs =
      (List.range (min (last + 1) (cs.length - 1))).flatMap fun i =>
        positionFlags cat (start + i) (cs.getD i 0) (i == last) := by
  induction cs generalizing start last with
  | nil => exact absurd rfl hlast
  | cons c cs ih =>
    cases cs with
    | nil => rfl
    | cons d rest =>
      have hlen : (c :: d :: rest).length - 1 = (d :: rest).length - 1 + 1 := rfl
      rw [hlen, Nat.succ_min_succ, List.range_succ_eq_map, List.flatMap_cons, List.flatMap_map, mapBins_cons_cons]
      cases last with
      | zero =>
        have hrest : (d :: rest).all (· = 0) = true := (all_zero_iff _).2 fun j => hzeros (j + 1) (Nat.succ_pos j)
        rw [hrest, if_pos ⟨hlast, rfl⟩, Nat.zero_min]
        rfl
      | succ last =>
        have hrest : (d :: rest).all (· = 0) = false := Bool.eq_false_iff.2 fun h => hlast ((all_zero_iff _).1 h last)
        rw [hrest, if_neg (by simp), ih (start + 1) hlast fun j hj => hzeros (j + 1) (Nat.succ_lt_succ hj)]
        simp [Nat.add_assoc, Nat.add_comm 1]

theorem mapBins_eq_mapSyntax (cat : Nat) {last : Nat} {cs : List Int} (hlast : cs.getD last 0 ≠ 0)
    (hzeros : ∀ j, last < j → cs.getD j 0 = 0) : mapBins cat 0 cs = mapSyntax cat last cs := by
  rw [mapBins_eq cat 0 hlast hzeros, mapSyntax_eq]
  simp only [Nat.zero_add]

/-! ### How many bins, and of which contexts -/

theorem length_flatMap_le {α β : Type} {xs : List α} {f : α → List β} {n : Nat} (h : ∀ x ∈ xs, (f x).length ≤ n) :
    (xs.flatMap f).length ≤ xs.length * n := by
  rw [List.length_flatMap]
  simpa using List.sum_le_card_nsmul (xs.map fun x => (f x).length) n (by simpa using h)

theorem length_mapSyntax_le (cat last : Nat) (cs : List Int) : (mapSyntax cat last cs).length ≤ (cs.length - 1) * 2 := by
  rw [mapSyntax_eq]
  refine (length_flatMap_le fun i _ => length_positionFlags_le ..).trans ?_
  rw [List.length_range]
  omega

theorem decision_mem_mapSyntax {cat last i : Nat} {cs : List Int} {b : Bool}
    (h : .decision i b ∈ mapSyntax cat last cs) : ∃ j < cs.length - 1, i = sigCtx cat j ∨ i = lastCtx cat j := by
  rw [mapSyntax_eq, List.mem_flatMap] at h
  obtain ⟨j, hj, hmem⟩ := h
  rw [List.mem_range] at hj
  exact ⟨j, by omega, decision_mem_positionFlags hmem⟩

theorem length_levelsSyntax_le (cat : Nat) {ls : List Int} (h : ∀ c ∈ ls, -32768 ≤ c ∧ c ≤ 32767) :
    (levelsSyntax cat ls).length ≤ ls.length * 44 := by
  refine (length_flatMap_le (n := 44) fun j hj => ?_).trans_eq (by rw [List.length_range])
  rw [List.mem_range] at hj
  rw [List.getD_eq_getElem _ _ hj]
  obtain ⟨hlo, hhi⟩ := h _ (List.getElem_mem hj)
  exact length_levelSyntax_le _ _ _ hlo hhi

theorem decision_mem_levelsSyntax {cat i : Nat} {ls : List Int} {b : Bool}
    (h : .decision i b ∈ levelsSyntax cat ls) : ∃ inc < 10, i = absBase cat + inc := by
  obtain ⟨j, -, hmem⟩ := List.mem_flatMap.1 h
  exact decision_mem_levelSyntax hmem

/-- The contexts of residual blocks (R300). -/
def IsResidualCtx (i : Nat) : Prop :=
  (85 ≤ i ∧ i ≤ 275) ∨ (402 ≤ i ∧ i ≤ 435)

theorem isResidualCtx_mapCtx : ∀ cat ≤ 5, ∀ j < (scanList cat).length - 1,
    IsResidualCtx (sigCtx cat j) ∧ IsResidualCtx (lastCtx cat j) := by
  unfold IsResidualCtx
  decide +kernel

theorem isResidualCtx_absCtx : ∀ cat ≤ 5, ∀ inc < 10, IsResidualCtx (absBase cat + inc) := by
  unfold IsResidualCtx
  decide +kernel

/-! ### The whole block -/

/-- The bin of coded_block_flag, if it is coded (R301). -/
def flagSyntax (cat cbfinc : Nat) (codeCbf : Bool) (cs : List Int) : List Bin :=
  if codeCbf then [.decision (85 + 4 * cat + cbfinc) (decide (nonZeros cs ≠ 0))] else []

theorem nonZeros_eq_zero_iff (cs : List Int) : nonZeros cs = 0 ↔ ∀ j, cs.getD j 0 = 0 := by
  rw [← all_zero_iff, nonZeros, List.length_eq_zero_iff, List.filter_eq_nil_iff]
  simp

theorem exists_last_of_nonZeros {cs : List Int} (h : nonZeros cs ≠ 0) :
    ∃ last, cs.getD last 0 ≠ 0 ∧ ∀ j, last < j → cs.getD j 0 = 0 := by
  obtain ⟨k, hk⟩ := not_forall.1 (mt (nonZeros_eq_zero_iff cs).2 h)
  have hbeyond : ∀ j, cs.length ≤ j → cs.getD j 0 = 0 := fun j hj => List.getD_eq_default _ _ hj
  have hlt : k ≤ cs.length := not_lt.1 fun hlt => hk (hbeyond k hlt.le)
  refine ⟨Nat.findGreatest (fun j => cs.getD j 0 ≠ 0) cs.length,
    Nat.findGreatest_spec (P := fun j => cs.getD j 0 ≠ 0) hlt hk, fun j hj => ?_⟩
  by_cases hlen : j ≤ cs.length
  · exact not_not.1 (Nat.findGreatest_is_greatest hj hlen)
  · exact hbeyond j (not_le.1 hlen).le

theorem cbfCtx_eq {cat : Nat} (h : cat ≤ 4) (cbfinc : Nat) : cbfCtx cat cbfinc = 85 + 4 * cat + cbfinc := by
  unfold cbfCtx
  interval_cases cat <;> rfl

section
variable {cat cbfinc : Nat} {codeCbf : Bool} {cs : List Int} (hcat : cat ≤ 5) (hflag : ¬(cat = 5 ∧ codeCbf = true))
include hcat hflag

theorem residualBins_eq : residualBins cat cbfinc codeCbf cs = flagSyntax cat cbfinc codeCbf cs ++
    if nonZeros cs = 0 then [] else mapBins cat 0 cs ++ levelsBins cat 0 0 (cs.filter (· ≠ 0)).reverse := by
  have hempty : (cs.filter (· ≠ 0)).isEmpty = decide (nonZeros cs = 0) := by
    rw [Bool.eq_iff_iff, List.isEmpty_iff_length_eq_zero, decide_eq_true_eq, nonZeros]
  have hbin : (if codeCbf then [Bin.decision (cbfCtx cat cbfinc) (!decide (nonZeros cs = 0))] else []) =
      flagSyntax cat cbfinc codeCbf cs := by
    cases codeCbf with
    | false => rfl
    | true =>
      have hcat4 : cat ≤ 4 := by simp at hflag; omega
      simp [flagSyntax, cbfCtx_eq hcat4]
  simp only [residualBins, hempty, hbin, decide_eq_true_eq]

theorem residualBins_of_zero (h : nonZeros cs = 0) :
    residualBins cat cbfinc codeCbf cs = flagSyntax cat cbfinc codeCbf cs := by
  rw [residualBins_eq hcat hflag, if_pos h, List.append_nil]

theorem residualBins_of_last (hcs : ∀ c ∈ cs, -32768 ≤ c ∧ c ≤ 32767) {last : Nat} (hlast : cs.getD last 0 ≠ 0)
    (hzeros : ∀ j, last < j → cs.getD j 0 = 0) : residualBins cat cbfinc codeCbf cs =
      flagSyntax cat cbfinc codeCbf cs ++ mapSyntax cat last cs ++ levelsSyntax cat (cs.filter (· ≠ 0)).reverse := by
  have hne : nonZeros cs ≠ 0 := fun h => hlast ((nonZeros_eq_zero_iff cs).1 h last)
  have hlevels : ∀ c ∈ (cs.filter (· ≠ 0)).reverse, c ≠ 0 ∧ -32768 ≤ c ∧ c ≤ 32767 := by
    intro c hc
    obtain ⟨hmem, hc⟩ := List.mem_filter.1 (List.mem_reverse.1 hc)
    exact ⟨of_decide_eq_true hc, hcs c hmem⟩
  rw [residualBins_eq hcat hflag, if_neg hne, mapBins_eq_mapSyntax cat hlast hzeros,
    levelsBins_eq_levelsSyntax hlevels, List.append_assoc]

/-- Either the flag alone, or the flag, a map and levels. -/
theorem residualBins_cases (hcs : ∀ c ∈ cs, -32768 ≤ c ∧ c ≤ 32767) :
    residualBins cat cbfinc codeCbf cs = flagSyntax cat cbfinc codeCbf cs ∨
      ∃ last, residualBins cat cbfinc codeCbf cs = flagSyntax cat cbfinc codeCbf cs ++ mapSyntax cat last cs ++
        levelsSyntax cat (cs.filter (· ≠ 0)).reverse := by
  by_cases h : nonZeros cs = 0
  · exact .inl (residualBins_of_zero hcat hflag h)
  · obtain ⟨last, hlast, hzeros⟩ := exists_last_of_nonZeros h
    exact .inr ⟨last, residualBins_of_last hcat hflag hcs hlast hzeros⟩

theorem length_residualBins_le (hcs : ∀ c ∈ cs, -32768 ≤ c ∧ c ≤ 32767) :
    (residualBins cat cbfinc codeCbf cs).length ≤ 1 + (cs.length - 1) * 2 + cs.length * 44 := by
  have hflags : (flagSyntax cat cbfinc codeCbf cs).length ≤ 1 := by
    unfold flagSyntax
    split_ifs <;> simp
  rcases residualBins_cases hcat hflag hcs with h | ⟨last, h⟩
  · rw [h]
    omega
  · have hmap := length_mapSyntax_le cat last cs
    have hlevels := length_levelsSyntax_le cat (ls := (cs.filter (· ≠ 0)).reverse) fun c hc =>
      hcs c (List.mem_of_mem_filter (List.mem_reverse.1 hc))
    have hcount : (cs.filter (· ≠ 0)).length ≤ cs.length := List.length_filter_le ..
    rw [List.length_reverse] at hlevels
    rw [h, List.length_append, List.length_append]
    omega

theorem isResidualCtx_of_decision_mem {i : Nat} {b : Bool} (hinc : cbfinc ≤ 3)
    (hlen : cs.length = (scanList cat).length) (hcs : ∀ c ∈ cs, -32768 ≤ c ∧ c ≤ 32767)
    (h : .decision i b ∈ residualBins cat cbfinc codeCbf cs) : IsResidualCtx i := by
  have hflags : .decision i b ∈ flagSyntax cat cbfinc codeCbf cs → IsResidualCtx i := by
    intro hmem
    unfold flagSyntax at hmem
    split_ifs at hmem with hcode
    · obtain ⟨rfl, -⟩ := Bin.decision.inj (List.mem_singleton.1 hmem)
      exact .inl (by omega)
    · cases hmem
  rcases residualBins_cases hcat hflag hcs with heq | ⟨last, heq⟩ <;> rw [heq] at h
  · exact hflags h
  · rcases List.mem_append.1 h with h | h
    · rcases List.mem_append.1 h with h | h
      · exact hflags h
      · obtain ⟨j, hj, hctx⟩ := decision_mem_mapSyntax h
        obtain ⟨hsig, hlast⟩ := isResidualCtx_mapCtx cat hcat j (hlen ▸ hj)
        rcases hctx with rfl | rfl
        · exact hsig
        · exact hlast
    · obtain ⟨inc, hinc, rfl⟩ := decision_mem_levelsSyntax h
      exact isResidualCtx_absCtx cat hcat inc hinc

end

/-- Settles O54: the two closed forms of a block, with or without a last significant coefficient, and their contexts. -/
theorem residualBinsFollowSyntax : Obligations.ResidualBinsFollowSyntax := by
  unfold Obligations.ResidualBinsFollowSyntax
  intro cat cbfinc codeCbf cs hcat hinc hflag hlen hcs
  exact ⟨residualBins_of_zero hcat hflag, fun last _ hlast hzeros => residualBins_of_last hcat hflag hcs hlast hzeros,
    fun i b h => isResidualCtx_of_decision_mem hcat hflag hinc hlen hcs h⟩

end Sys2Proof.Machine

/-! SUPPORT. CRES (R307, R310): what it does with a scanned block that it may code, and the statement on it. -/

namespace Sys2Proof.Machine

theorem int16_of_scannedAt {s : State} {src cat : Nat} {cs : List Int} (h : ScannedAt s src cat cs) :
    ∀ c ∈ cs, -32768 ≤ c ∧ c ≤ 32767 := by
  obtain ⟨-, -, hwords⟩ := h
  intro c hc
  obtain ⟨k, hk, rfl⟩ := List.getElem_of_mem hc
  obtain ⟨w, -, hval, hlo, hhi⟩ := hwords k hk
  rw [← List.getD_eq_getElem cs 0 hk, ← hval]
  exact ⟨hlo, hhi⟩

theorem length_scanList_le_64 (cat : Nat) : (scanList cat).length ≤ 64 := by
  rcases length_scanList_le cat with rfl | h
  · decide
  · omega

section
variable {s : State} {src : BitVec 10} {cat : BitVec 3} {cbfinc : BitVec 2} {codeCbf : Bool} {cs : List Int}

/-- After the checks of the scanned block and of the coder, CRES refuses an empty block without its flag, codes the bins
and counts the coefficients (R310). -/
theorem effectOf_cres (hcat : cat.toNat ≤ 5) (hflag : ¬(cat.toNat = 5 ∧ codeCbf = true))
    (hscan : ScannedAt s src.toNat cat.toNat cs) (hmay : MayCode s) :
    effectOf (.cres src cat cbfinc codeCbf) s = require (nonZeros cs ≠ 0 || codeCbf) .emptyBlock >>= fun _ =>
      codeAndWrite (residualBins cat.toNat cbfinc.toNat codeCbf cs) s >>= fun t =>
        .ok (t.endCoding .active (BitVec.ofNat 32 (nonZeros cs))) := by
  have hfields : checkFields (.cres src cat cbfinc codeCbf) = .ok () :=
    (require_ok_iff _ _).2 (by simpa [hcat, ← imp_iff_not_or] using hflag)
  simp only [effectOf, cresEffect, hfields, scanBlock_of_scannedAt hscan, (checkCoding_ok_iff s).2 hmay, ok_bind]
  refine bind_congr fun _ => ?_
  cases hcode : codeAndWrite (residualBins cat.toNat cbfinc.toNat codeCbf cs) s with
  | error e => rfl
  | ok t =>
    have hkept := (endCoding_of_codeAndWrite (state := .active) hcode).2
    rw [hmay.1] at hkept
    rw [ok_bind, ok_bind, State.endCoding, hkept]
    rfl

end

/-- Settles O53: past its checks CRES codes the bins of its block, which are at most 2943, and counts its coefficients. -/
theorem cresCodesBlock : Obligations.CresCodesBlock := by
  unfold Obligations.CresCodesBlock
  intro s src cat cbfinc codeCbf cs hcat hflag hs hscan hmay
  have heff := effectOf_cres (cbfinc := cbfinc) hcat hflag hscan hmay
  constructor
  · rintro hzero rfl
    rw [hzero] at heff
    exact commandRefused_of_effectOf heff
  · intro hcodes
    have hrequire : (nonZeros cs ≠ 0 || codeCbf) = true := by simpa using hcodes
    rw [hrequire, require_true, ok_bind] at heff
    have hbins := length_residualBins_le (cbfinc := cbfinc.toNat) hcat hflag (int16_of_scannedAt hscan)
    have hlen : cs.length ≤ 64 := hscan.2.1 ▸ length_scanList_le_64 cat.toNat
    exact codesTo_of_effectOf hs heff (by omega)

end Sys2Proof.Machine

/-! SUPPORT. Emulation prevention (R326, R327; log 9): what EmitByte of bytes in turn gives, how a reader undoes it, and
that it leaves no start code after bytes that hold none. -/

namespace Sys2Proof.Machine

/-! ### EmitByte of bytes in turn (R326, R349) -/

theorem emitBytes_bytes (w : BitWriter) (bytes : List Byte) : (emitBytes w bytes).2 = escape w.zeros bytes := by
  induction bytes generalizing w with
  | nil => rfl
  | cons b bytes ih =>
    rw [emitBytes_cons, ih, escape_cons]
    rfl

theorem emitBytes_zeros (w : BitWriter) (bytes : List Byte) :
    (emitBytes w bytes).1.zeros = zerosAfter w.zeros bytes := by
  induction bytes generalizing w with
  | nil => rfl
  | cons b bytes ih =>
    rw [emitBytes_cons, ih, zerosAfter, ← emitByte_zeros]
    rfl

theorem emitBytes_lastZero (w : BitWriter) (bytes : List Byte) :
    (emitBytes w bytes).1.lastZero = lastZeroAfter w.lastZero bytes := by
  induction bytes generalizing w with
  | nil => rfl
  | cons b bytes ih =>
    rw [emitBytes_cons, ih, lastZeroAfter_cons]
    rfl

/-! ### One byte of the payload -/

/-- How many zero bytes, counted up to 2, end a sequence of bytes after b, where z did before it. -/
def zerosNext (z : Nat) (b : Byte) : Nat :=
  if b = 0 then min 2 (z + 1) else 0

theorem zerosNext_of_ne_zero (z : Nat) {b : Byte} (h : b ≠ 0) : zerosNext z b = 0 :=
  if_neg h

theorem one_le_zerosNext_iff (z : Nat) (b : Byte) : 1 ≤ zerosNext z b ↔ b = 0 := by
  unfold zerosNext
  split <;> simp_all

theorem two_le_zerosNext_iff (z : Nat) (b : Byte) : 2 ≤ zerosNext z b ↔ b = 0 ∧ 1 ≤ z := by
  unfold zerosNext
  split <;> simp_all

section
variable {z : Nat} {b : Byte} (bytes : List Byte)

theorem escape_cons_inserted (h : 2 ≤ z ∧ b.toNat ≤ 3) :
    escape z (b :: bytes) = 0x03 :: b :: escape (zerosNext 0 b) bytes :=
  if_pos h

theorem escape_cons_plain (h : ¬(2 ≤ z ∧ b.toNat ≤ 3)) :
    escape z (b :: bytes) = b :: escape (zerosNext z b) bytes :=
  if_neg h

theorem zerosAfter_cons_inserted (h : 2 ≤ z ∧ b.toNat ≤ 3) :
    zerosAfter z (b :: bytes) = zerosAfter (zerosNext 0 b) bytes := by
  simp [zerosAfter, zerosNext, h.1]

theorem zerosAfter_cons_plain (h : ¬(2 ≤ z ∧ b.toNat ≤ 3)) :
    zerosAfter z (b :: bytes) = zerosAfter (zerosNext z b) bytes := by
  by_cases hb : b = 0
  · subst hb
    have hz : ¬2 ≤ z := fun hz => h ⟨hz, by decide⟩
    simp [zerosAfter, zerosNext, hz]
  · rw [zerosAfter, zerosNext, if_neg hb, if_neg hb]

theorem unescape_cons_plain (h : ¬(2 ≤ z ∧ b = 0x03)) :
    unescape z (b :: bytes) = b :: unescape (zerosNext z b) bytes :=
  if_neg h

/-- A reader that has seen two zero bytes drops the 0x03 (R326). -/
theorem unescape_cons_inserted (hz : 2 ≤ z) : unescape z (0x03 :: bytes) = unescape 0 bytes :=
  if_pos ⟨hz, rfl⟩

end

/-- A reader gives the payload back (R326). -/
theorem unescape_escape (z : Nat) (bytes : List Byte) : unescape z (escape z bytes) = bytes := by
  induction bytes generalizing z with
  | nil => rfl
  | cons b bytes ih =>
    by_cases h : 2 ≤ z ∧ b.toNat ≤ 3
    · rw [escape_cons_inserted _ h, unescape_cons_inserted _ h.1, unescape_cons_plain _ (by simp), ih]
    · rw [escape_cons_plain _ h, unescape_cons_plain _ ?_, ih]
      rintro ⟨hz, rfl⟩
      exact h ⟨hz, by decide⟩

/-! ### No start code (R327; log 9) -/

/-- These bytes stand in f from n on. -/
def BytesAt (f : Nat → Byte) (n : Nat) (bytes : List Byte) : Prop :=
  ∀ k < bytes.length, f (n + k) = bytes.getD k 0

theorem bytesAt_cons_iff (f : Nat → Byte) (n : Nat) (b : Byte) (bytes : List Byte) :
    BytesAt f n (b :: bytes) ↔ f n = b ∧ BytesAt f (n + 1) bytes := by
  constructor
  · refine fun h => ⟨by simpa using h 0 (by simp), fun k hk => ?_⟩
    simpa [Nat.add_assoc, Nat.add_comm 1] using h (k + 1) (by simpa using hk)
  · rintro ⟨hb, h⟩ (_ | k) hk
    · simpa using hb
    · simpa [Nat.add_assoc, Nat.add_comm 1] using h k (by simpa using hk)

/-- The first n bytes of f hold no start code, and z zero bytes, counted up to 2, are at their end. -/
structure EndsIn (f : Nat → Byte) (n z : Nat) : Prop where
  noStartCode : ∀ k, k + 2 < n → ¬(f k = 0 ∧ f (k + 1) = 0 ∧ (f (k + 2)).toNat ≤ 2)
  one : 1 ≤ z ↔ 1 ≤ n ∧ f (n - 1) = 0
  two : 2 ≤ z ↔ 2 ≤ n ∧ f (n - 1) = 0 ∧ f (n - 2) = 0

/-- One byte more, which is above 2 after two zero bytes. -/
theorem EndsIn.next {f : Nat → Byte} {n z : Nat} (h : EndsIn f n z) (hb : ¬(2 ≤ z ∧ (f n).toNat ≤ 2)) :
    EndsIn f (n + 1) (zerosNext z (f n)) where
  noStartCode k hk := by
    rcases Nat.lt_succ_iff_lt_or_eq.1 hk with hk | rfl
    · exact h.noStartCode k hk
    · rintro ⟨h0, h1, h2⟩
      exact hb ⟨h.two.2 ⟨Nat.le_add_left _ _, h1, h0⟩, h2⟩
  one := by simp [one_le_zerosNext_iff]
  two := by
    have htwo : 2 ≤ n + 1 ↔ 1 ≤ n := by omega
    rw [two_le_zerosNext_iff, h.one, htwo, Nat.add_sub_cancel]
    exact and_left_comm

/-- Bytes written after emulation prevention add no start code (R326, R327). -/
theorem EndsIn.escape {f : Nat → Byte} {n z : Nat} {bytes : List Byte} (h : EndsIn f n z)
    (hnew : BytesAt f n (escape z bytes)) :
    EndsIn f (n + (Machine.escape z bytes).length) (zerosAfter z bytes) := by
  induction bytes generalizing n z with
  | nil => exact h
  | cons b bytes ih =>
    by_cases hins : 2 ≤ z ∧ b.toNat ≤ 3
    · rw [escape_cons_inserted _ hins, bytesAt_cons_iff, bytesAt_cons_iff] at hnew
      obtain ⟨h3, rfl, hrest⟩ := hnew
      have hinserted := h.next (by simp [h3])
      rw [h3, zerosNext_of_ne_zero z (by decide)] at hinserted
      have hall := ih (hinserted.next (by simp)) hrest
      rw [escape_cons_inserted _ hins, zerosAfter_cons_inserted _ hins, List.length_cons, List.length_cons]
      rwa [Nat.add_right_comm, Nat.add_assoc, Nat.add_right_comm, Nat.add_assoc] at hall
    · rw [escape_cons_plain _ hins, bytesAt_cons_iff] at hnew
      obtain ⟨rfl, hrest⟩ := hnew
      have hall := ih (h.next fun hcode => hins ⟨hcode.1, by omega⟩) hrest
      rw [escape_cons_plain _ hins, zerosAfter_cons_plain _ hins, List.length_cons]
      rwa [Nat.add_right_comm, Nat.add_assoc] at hall

theorem endsIn_zeros {f : Nat → Byte} {z : Nat} (hz : z ≤ 2) (h : ∀ k < z, f k = 0) : EndsIn f z z where
  noStartCode k hk := absurd hz (by omega)
  one := ⟨fun h1 => ⟨h1, h _ (by omega)⟩, And.left⟩
  two := ⟨fun h2 => ⟨h2, h _ (by omega), h _ (by omega)⟩, And.left⟩

/-- Settles O60: a reader undoes each inserted byte; the bytes hold no start code even behind the zero bytes that the
writer has counted. -/
theorem emulationPreventionIsReversible : Obligations.EmulationPreventionIsReversible := by
  unfold Obligations.EmulationPreventionIsReversible
  intro w bytes hz
  rw [emitBytes_bytes]
  refine ⟨rfl, unescape_escape _ _, fun k hk hcode => ?_⟩
  have hshift : ∀ i, (List.replicate w.zeros 0 ++ escape w.zeros bytes).getD (w.zeros + i) 0 =
      (escape w.zeros bytes).getD i 0 := fun i => by
    rw [List.getD_append_right _ _ _ _ (by simp), List.length_replicate, Nat.add_sub_cancel_left]
  have hzeros : EndsIn (fun i => (List.replicate w.zeros 0 ++ escape w.zeros bytes).getD i 0) w.zeros w.zeros :=
    endsIn_zeros hz fun i hi => by simp [List.getElem?_append_left, hi]
  refine (hzeros.escape fun i _ => hshift i).noStartCode (w.zeros + k) (by omega) ?_
  simpa only [hshift, Nat.add_assoc] using hcode

end Sys2Proof.Machine

/-! SUPPORT. The structure of the output (R320 to R334): what the bytes of an open unit, the framing commands and every
other command make of it. -/

namespace Sys2Proof.Machine

/-! ### Units back to back (R333) -/

theorem backToBack_concat_iff (a e : Nat) (ds : List Desc) (d : Desc) :
    backToBack a (ds ++ [d]) e ↔ backToBack a ds d.offset ∧ 1 ≤ d.length ∧ d.offset + d.length = e := by
  induction ds generalizing a with
  | nil => simp only [List.nil_append, backToBack]; constructor <;> (rintro ⟨rfl, h⟩; exact ⟨rfl, h⟩)
  | cons c ds ih => simp only [List.cons_append, backToBack, ih, and_assoc]

theorem backToBack_bounds {a e : Nat} {ds : List Desc} (h : backToBack a ds e) :
    a ≤ e ∧ ∀ d ∈ ds, d.offset < e := by
  induction ds generalizing a with
  | nil => exact ⟨h.le, nofun⟩
  | cons c ds ih =>
    obtain ⟨rfl, hlen, hrest⟩ := h
    obtain ⟨hle, hds⟩ := ih hrest
    refine ⟨by omega, fun d hd => ?_⟩
    rcases List.mem_cons.1 hd with rfl | hd
    · omega
    · exact hds d hd

section
variable {s t : State}

/-! ### What the structure depends on -/

/-- The bit writer, the output memory and the descriptors are the same. -/
structure SameOutput (s t : State) : Prop where
  bw : t.bw = s.bw
  out : t.out = s.out
  wptr : t.wptr = s.wptr
  desc : t.desc = s.desc

theorem SameOutput.outByte (h : SameOutput s t) (k : Nat) : t.outByte k = s.outByte k := by
  simp only [State.outByte, h.out, h.wptr]

theorem SameOutput.refl (s : State) : SameOutput s s :=
  ⟨rfl, rfl, rfl, rfl⟩

theorem SameOutput.trans {u : State} (h : SameOutput s t) (g : SameOutput t u) : SameOutput s u :=
  ⟨g.bw.trans h.bw, g.out.trans h.out, g.wptr.trans h.wptr, g.desc.trans h.desc⟩

theorem State.Stream.of_same (hs : s.Stream) (h : SameOutput s t) : t.Stream := by
  obtain ⟨noStartCode, units, headers, closedEnd, openStart, openEnd⟩ := hs
  constructor <;> simpa only [h.outByte, h.bw, h.wptr, h.desc]

theorem sameOutput_recordError (e : ErrCode) (lo hi : Word) : SameOutput s (s.recordError e lo hi) :=
  ⟨recordError_bw .., recordError_out .., recordError_wptr .., recordError_desc ..⟩

theorem sameOutput_retire : SameOutput s s.retire :=
  ⟨retire_bw _, retire_out _, retire_wptr _, retire_desc _⟩

/-- A state whose output has been discarded, with no unit open. -/
theorem stream_of_empty (hwptr : s.wptr = 0) (hdesc : s.desc = []) (hclosed : s.bw.nalOpen = false) : s.Stream where
  noStartCode k hk := absurd hk (by omega)
  units := by simp [hwptr, hdesc, hclosed, backToBack]
  headers := by simp [hdesc]
  closedEnd _ := .inl hwptr
  openStart h := absurd h (by simp [hclosed])
  openEnd h := absurd h (by simp [hclosed])

/-! ### Bytes of an open unit (R321, R326) -/

theorem EndsIn.congr {f g : Nat → Byte} {n z : Nat} (h : EndsIn f n z) (heq : ∀ k < n, g k = f k) : EndsIn g n z where
  noStartCode k hk := by
    rw [heq k (by omega), heq (k + 1) (by omega), heq (k + 2) hk]
    exact h.noStartCode k hk
  one := h.one.trans (and_congr_right fun hn => by rw [heq _ (by omega)])
  two := h.two.trans (and_congr_right fun hn => by rw [heq _ (by omega), heq _ (by omega)])

/-- The output with a unit open: closed units, then the open one from its header on, whose end the bit writer counts. -/
structure State.OpenStream (s : State) : Prop where
  start : s.bw.nalStart.toNat < s.wptr
  ends : EndsIn s.outByte s.wptr s.bw.zeros
  zeros : s.bw.zeros ≤ 2
  lastZero : s.bw.lastZero = true ↔ 1 ≤ s.bw.zeros
  units : backToBack 0 s.desc s.bw.nalStart.toNat
  headers : ∀ d ∈ s.desc, s.outByte d.offset = d.hdr
  header : s.outByte s.bw.nalStart.toNat = s.bw.hdr ∧ s.bw.hdr ≠ 0
  before : s.bw.nalStart.toNat = 0 ∨ s.outByte (s.bw.nalStart.toNat - 1) ≠ 0

/-- A zero byte at the end of an open unit is not its header. -/
theorem two_le_wptr_of_zero (hstart : s.bw.nalStart.toNat < s.wptr)
    (hheader : s.outByte s.bw.nalStart.toNat = s.bw.hdr ∧ s.bw.hdr ≠ 0) (hzero : s.outByte (s.wptr - 1) = 0) :
    2 ≤ s.wptr := by
  by_contra hlt
  have hone : s.wptr - 1 = s.bw.nalStart.toNat := by omega
  exact hheader.2 (hheader.1 ▸ hone ▸ hzero)

theorem State.OpenStream.stream (h : s.OpenStream) (ho : s.bw.nalOpen = true) : s.Stream where
  noStartCode := h.ends.noStartCode
  units := by simpa only [ho, if_true] using h.units
  headers := h.headers
  closedEnd hc := absurd (ho.symm.trans hc) (by decide)
  openStart _ := ⟨h.header.1, h.header.2, h.before⟩
  openEnd _ := by
    have hpos : 1 ≤ s.wptr := Nat.one_le_of_lt h.start
    have hone : 1 ≤ s.bw.zeros ↔ s.outByte (s.wptr - 1) = 0 := h.ends.one.trans (and_iff_right hpos)
    refine ⟨h.lastZero.trans hone, ?_, ?_⟩
    · rw [Ne, ← hone, Nat.one_le_iff_ne_zero, not_not]
    · have hzeros := h.zeros
      have htwo : s.bw.zeros = 2 ↔ 2 ≤ s.bw.zeros := by omega
      rw [htwo, h.ends.two]
      exact and_iff_right_of_imp fun hzero => two_le_wptr_of_zero h.start h.header hzero.1

theorem State.Stream.openStream (h : s.Stream) (hr : s.Ranges) (ho : s.bw.nalOpen = true) : s.OpenStream := by
  obtain ⟨hstart, -⟩ := hr.opened ho
  obtain ⟨hhdr, hne, hbefore⟩ := h.openStart ho
  obtain ⟨hlast, hzero, htwo⟩ := h.openEnd ho
  have hle := hr.writer.2.1
  have hone : 1 ≤ s.bw.zeros ↔ s.outByte (s.wptr - 1) = 0 := by
    rw [Nat.one_le_iff_ne_zero, Ne, hzero, not_not]
  refine ⟨hstart, ⟨h.noStartCode, hone.trans (and_iff_right (by omega)).symm, ?_⟩, hle, hlast.trans hone.symm,
    by simpa only [ho, if_true] using h.units, h.headers, ⟨hhdr, hne⟩, hbefore⟩
  rw [show 2 ≤ s.bw.zeros ↔ s.bw.zeros = 2 by omega, htwo]
  exact (and_iff_right_of_imp fun hzero => two_le_wptr_of_zero hstart ⟨hhdr, hne⟩ hzero.1).symm

/-- bw.last_zero and bw.zeros agree after bytes when they did before (R326). -/
theorem lastZeroAfter_iff {lastZero : Bool} {z : Nat} (h : lastZero = true ↔ 1 ≤ z) (bytes : List Byte) :
    lastZeroAfter lastZero bytes = true ↔ 1 ≤ zerosAfter z bytes := by
  induction bytes generalizing lastZero z with
  | nil => exact h
  | cons b bytes ih =>
    rw [lastZeroAfter_cons, zerosAfter]
    refine ih ?_
    split_ifs <;> simp_all

/-- Bytes written after emulation prevention keep the structure (R321, R326, R327). -/
theorem State.OpenStream.emitted {bytes : List Byte} (h : s.OpenStream) (he : Emitted s t bytes)
    (hzeros : t.bw.zeros ≤ 2) : t.OpenStream := by
  obtain ⟨-, hstart, hhdr⟩ := he.unit
  have hlt := h.start
  have hold := he.old
  have hunits := (backToBack_bounds h.units).2
  refine ⟨?_, ?_, hzeros, ?_, ?_, fun d hd => ?_, ?_, ?_⟩
  · rw [hstart, he.wptr]; omega
  · rw [he.wptr, he.zeros]
    exact (h.ends.congr hold).escape he.new
  · rw [he.lastZero, ← lastZeroAfter_eq, he.zeros]
    exact lastZeroAfter_iff h.lastZero bytes
  · rw [he.desc, hstart]; exact h.units
  · rw [he.desc] at hd
    rw [hold _ ((hunits d hd).trans hlt), h.headers d hd]
  · rw [hstart, hhdr, hold _ hlt]; exact h.header
  · rw [hstart]
    exact h.before.imp_right fun hb => by rwa [hold _ (by omega)]

theorem appended_of_writeBits {bits : List Bool} (hacc : s.bw.acc.length ≤ 7) (hw : writeBits s bits = .ok t) :
    Appended s t bits := by
  have hfits := (writeBits_is_ok_iff hacc bits).1 ⟨t, hw⟩
  obtain ⟨-, ht⟩ := (writeBits_ok_iff _ _ _).1 hw
  exact appended_of_putBitsRaw hacc hfits (by rw [← ht]) (by rw [← ht]) (by rw [← ht]) (by rw [← ht])

theorem State.Stream.emitted {bytes : List Byte} (h : s.Stream) (hr : s.Ranges) (ho : s.bw.nalOpen = true)
    (he : Emitted s t bytes) (ht : t.Ranges) : t.Stream :=
  ((h.openStream hr ho).emitted he ht.writer.2.1).stream (he.unit.1.trans ho)

theorem State.Stream.writeBits {bits : List Bool} (h : s.Stream) (hr : s.Ranges) (ho : s.bw.nalOpen = true)
    (hw : writeBits s bits = .ok t) : t.Stream := by
  obtain ⟨-, -, bytes, -, he⟩ := appended_of_writeBits hr.writer.1 hw
  exact h.emitted hr ho he (hr.writeBits ho hw)

theorem State.Stream.codes (h : s.Stream) (hr : s.Ranges) (hc : Codes s t) : t.Stream := by
  obtain ⟨⟨-, ho⟩, bins, -, hcode⟩ := hc
  obtain ⟨c, hbins, hw⟩ := (codeAndWrite_ok_iff _ _ _).1 hcode
  have hstored : (s.storeCoder c).Stream := h.of_same ⟨rfl, rfl, rfl, rfl⟩
  exact hstored.writeBits (hr.storeCoder (codeBins_fits (loadCoder_fits hr) hbins).1) ho hw

/-- PUTBYTES through emulation prevention has written its bytes (R349). -/
theorem emitted_of_emitBytes {bytes : List Byte}
    (hout : outBytes { s with bw := (emitBytes s.bw bytes).1 } (emitBytes s.bw bytes).2 = .ok t) :
    Emitted s t bytes := by
  obtain ⟨hopen, hstart, hhdr, -⟩ := emitBytes_unit s.bw bytes
  obtain ⟨hfits, rfl⟩ := (outBytes_ok_iff _ _ _).1 hout
  rw [emitBytes_bytes] at hfits
  exact emitted_of_writeAll (by rw [emitBytes_bytes]) (by rw [emitBytes_bytes]) hfits rfl (emitBytes_zeros _ _)
    (emitBytes_lastZero _ _) ⟨hopen, hstart, hhdr⟩

/-! ### Framing (R340, R342, R334) -/

/-- Bytes without a start code that do not end in 0x00. -/
theorem endsIn_zero_iff (f : Nat → Byte) (n : Nat) : EndsIn f n 0 ↔
    (∀ k, k + 2 < n → ¬(f k = 0 ∧ f (k + 1) = 0 ∧ (f (k + 2)).toNat ≤ 2)) ∧ (n = 0 ∨ f (n - 1) ≠ 0) := by
  constructor
  · refine fun h => ⟨h.noStartCode, ?_⟩
    have hone : ¬(1 ≤ n ∧ f (n - 1) = 0) := mt h.one.2 (by decide)
    rwa [not_and_or, Nat.one_le_iff_ne_zero, not_not] at hone
  · rintro ⟨hcode, hend⟩
    have hone : ¬(1 ≤ n ∧ f (n - 1) = 0) := by rwa [not_and_or, Nat.one_le_iff_ne_zero, not_not]
    exact ⟨hcode, iff_of_false (by decide) hone,
      iff_of_false (by decide) fun ⟨htwo, hzero, _⟩ => hone ⟨Nat.one_le_of_lt htwo, hzero⟩⟩

/-- With no unit open the closed ones are the whole output, which does not end in 0x00 (R329, R333). -/
theorem stream_closed_iff (hc : s.bw.nalOpen = false) : s.Stream ↔
    EndsIn s.outByte s.wptr 0 ∧ backToBack 0 s.desc s.wptr ∧ ∀ d ∈ s.desc, s.outByte d.offset = d.hdr := by
  have hne : ¬s.bw.nalOpen = true := by simp [hc]
  rw [endsIn_zero_iff]
  constructor
  · rintro ⟨noStartCode, units, headers, closedEnd, -, -⟩
    exact ⟨⟨noStartCode, closedEnd hc⟩, by rwa [if_neg hne] at units, headers⟩
  · rintro ⟨⟨noStartCode, closedEnd⟩, units, headers⟩
    exact ⟨noStartCode, by rwa [if_neg hne], headers, fun _ => closedEnd, fun ho => absurd ho hne,
      fun ho => absurd ho hne⟩

/-- A unit opened: its header is not 0, and follows a closed unit that does not end in 0x00 (R329, R340). -/
theorem State.Stream.openNal {hdr : Byte} (h : s.Stream) (hc : s.bw.nalOpen = false) (hne : hdr ≠ 0)
    (hout : outBytes s [hdr] = .ok t) :
    State.OpenStream { t with bw := ⟨true, [], 0, false, BitVec.ofNat 32 s.wptr, 0, hdr⟩ } := by
  obtain ⟨hends, hunits, hheaders⟩ := (stream_closed_iff hc).1 h
  have hbyte := outByte_of_outBytes hout
  have hold : ∀ k < s.wptr, t.outByte k = s.outByte k := fun k hk => by rw [hbyte, if_pos hk]
  have hnew : t.outByte s.wptr = hdr := by simp [hbyte]
  have hbefore := hends.congr hold
  have hafter := hbefore.next (by simp)
  rw [hnew, zerosNext_of_ne_zero 0 hne] at hafter
  obtain ⟨hfit, rfl⟩ := (outBytes_ok_iff _ _ _).1 hout
  have hstart : (BitVec.ofNat 32 s.wptr).toNat = s.wptr := by
    rw [List.length_singleton, Config.outSize] at hfit
    rw [BitVec.toNat_ofNat]
    omega
  refine ⟨?_, hafter, Nat.zero_le _, by simp, ?_, fun d hd => ?_, ⟨?_, hne⟩, ?_⟩ <;> simp only [hstart]
  · exact Nat.lt_succ_self _
  · exact hunits
  · exact (hold _ ((backToBack_bounds hunits).2 d hd)).trans (hheaders d hd)
  · exact hnew
  · exact ((endsIn_zero_iff _ _).1 hbefore).2

/-- A unit closed: its last byte is not 0x00, for a 0x03 follows one that is (R329, R342). -/
theorem State.OpenStream.closeNal (h : s.OpenStream)
    (hout : outBytes s (if s.bw.lastZero then [0x03] else []) = .ok t) : t.closeNal.Stream := by
  have hbyte := outByte_of_outBytes hout
  have hold : ∀ k < s.wptr, t.outByte k = s.outByte k := fun k hk => by rw [hbyte, if_pos hk]
  have hbefore := h.ends.congr hold
  have hends : EndsIn t.outByte t.wptr 0 := by
    obtain ⟨-, ht⟩ := (outBytes_ok_iff _ _ _).1 hout
    cases hlast : s.bw.lastZero with
    | true =>
      have hnew : t.outByte s.wptr = 0x03 := by simp [hbyte, hlast]
      have hafter := hbefore.next (by simp [hnew])
      rw [hnew, zerosNext_of_ne_zero _ (by decide)] at hafter
      have hwptr : t.wptr = s.wptr + 1 := by simp [← ht, hlast]
      rwa [hwptr]
    | false =>
      have hzeros : s.bw.zeros = 0 := by
        have hno := mt h.lastZero.2 (by simp [hlast])
        omega
      have hwptr : t.wptr = s.wptr := by simp [← ht, hlast]
      rwa [hwptr, ← hzeros]
  have hlt := h.start
  have hle : s.wptr ≤ t.wptr := (outputExtended_of_outBytes (w := s.bw) hout).1
  obtain ⟨hbw, hdesc⟩ : t.bw = s.bw ∧ t.desc = s.desc := by
    obtain ⟨-, rfl⟩ := (outBytes_ok_iff _ _ _).1 hout
    exact ⟨rfl, rfl⟩
  refine (stream_closed_iff rfl).2 ⟨hends, ?_, fun d hd => ?_⟩
  · rw [closeNal_desc, backToBack_concat_iff, hbw, hdesc]
    exact ⟨h.units, by dsimp only; omega, Nat.add_sub_of_le (hlt.le.trans hle)⟩
  · rw [closeNal_desc, hbw, hdesc] at hd
    change t.outByte d.offset = d.hdr
    rcases List.mem_append.1 hd with hd | hd
    · rw [hold _ (((backToBack_bounds h.units).2 d hd).trans hlt), h.headers d hd]
    · obtain rfl := List.mem_singleton.1 hd
      rw [hold _ hlt]
      exact h.header.1

/-- A unit aborted leaves the closed units before it (R334). -/
theorem State.OpenStream.abortNal (h : s.OpenStream) : s.abortNal.Stream := by
  have hlt := h.start
  have hold : ∀ k < s.bw.nalStart.toNat, s.abortNal.outByte k = s.outByte k := fun k hk => by
    simp only [State.outByte, State.abortNal, Memory.read_truncate, if_pos hk, if_pos (hk.trans hlt)]
  refine (stream_closed_iff rfl).2 ⟨EndsIn.congr ?_ hold, h.units, fun d hd => ?_⟩
  · exact (endsIn_zero_iff _ _).2 ⟨fun k hk => h.ends.noStartCode k (hk.trans hlt), h.before⟩
  · rw [hold _ ((backToBack_bounds h.units).2 d hd), h.headers d hd]

/-! ### Commands -/

/-- The header byte as a number (R322). -/
theorem nalHeader_eq (refIdc : BitVec 2) (nalType : BitVec 5) :
    nalHeader refIdc nalType = BitVec.ofNat 8 (refIdc.toNat * 32 + nalType.toNat) := by
  have htype : nalType.toNat < 2 ^ 5 := nalType.isLt
  apply BitVec.eq_of_toNat_eq
  have hpair : (refIdc ++ nalType).toNat = refIdc.toNat * 32 + nalType.toNat := by
    rw [BitVec.toNat_append, ← Nat.shiftLeft_add_eq_or_of_lt htype, Nat.shiftLeft_eq]
  have hzero : nalHeader refIdc nalType = 0#1 ++ (refIdc ++ nalType) := BitVec.append_assoc
  have href := refIdc.isLt
  rw [hzero, BitVec.toNat_append, hpair, BitVec.toNat_ofNat, BitVec.toNat_ofNat, Nat.zero_mod, Nat.zero_shiftLeft,
    Nat.zero_or, Nat.mod_eq_of_lt (by omega)]

theorem nalHeader_ne_zero (refIdc : BitVec 2) {nalType : BitVec 5} (h : nalType ≠ 0) :
    nalHeader refIdc nalType ≠ 0 := by
  have href := refIdc.isLt
  have htype := nalType.isLt
  intro hzero
  have hsum : (refIdc.toNat * 32 + nalType.toNat) % 2 ^ 8 = 0 := by
    rw [← BitVec.toNat_ofNat, ← nalHeader_eq, hzero]
    rfl
  have htype0 : nalType.toNat = 0 := by omega
  exact h (BitVec.eq_of_toNat_eq htype0)

theorem wellFormed_of_effectOf {i : Instr} (h : effectOf i s = .ok t) : i.wellFormed = true := by
  by_contra hwf
  obtain ⟨e, he⟩ := exists_checkFields_error (Bool.eq_false_iff.2 hwf)
  rw [effectOf_of_checkFields he] at h
  cases h

/-- A command that completes keeps the structure of the output. -/
theorem State.Stream.effectOf {i : Instr} (h : s.Stream) (hr : s.Ranges) (heff : effectOf i s = .ok t) : t.Stream := by
  have hcompletes := completes_of_effectOf heff
  have ht := hcompletes.ranges hr
  cases hcompletes with
  | nop => exact h
  | setqp _ => exact h.of_same ⟨rfl, rfl, rfl, rfl⟩
  | forward _ _ => exact h.of_same ⟨rfl, rfl, rfl, rfl⟩
  | inverse _ _ => exact h.of_same ⟨rfl, rfl, rfl, rfl⟩
  | rlscan _ => exact h.of_same ⟨rfl, rfl, rfl, rfl⟩
  | cinit => exact h.of_same ⟨rfl, rfl, rfl, rfl⟩
  | code _ codes => exact h.codes hr codes
  | terminate codes => exact (h.codes hr codes).of_same ⟨rfl, rfl, rfl, rfl⟩
  | cres codes => exact (h.codes hr codes).of_same ⟨rfl, rfl, rfl, rfl⟩
  | nalb closed _ header =>
    have hwf := wellFormed_of_effectOf heff
    exact (h.openNal closed (nalHeader_ne_zero _ (by simpa [Instr.wellFormed] using hwf)) header).stream rfl
  | nale isOpen _ _ =>
    simp only [Machine.effectOf, naleEffect, bind_ok_iff, Unique.exists_iff, PUnit.default_eq_unit,
      Except.ok.injEq] at heff
    obtain ⟨-, -, -, u, hout, hu⟩ := heff
    exact hu ▸ (h.openStream hr isOpen).closeNal hout
  | nalx isOpen => exact (h.openStream hr isOpen).abortNal
  | bits _ may written => exact h.writeBits hr may.1 written
  | bytes may _ written => exact h.emitted hr may.1 (emitted_of_emitBytes written) ht

theorem State.Stream.exec {i : Instr} (h : s.Stream) (hr : s.Ranges) (hstep : exec i s = .next t) : t.Stream := by
  rcases (exec_next_iff i s t).1 hstep with ⟨u, hu, rfl⟩ | ⟨e, -, rfl⟩
  · exact (h.effectOf hr hu).of_same sameOutput_retire
  · exact h.of_same (sameOutput_recordError _ _ _)

end

end Sys2Proof.Machine

/-! SUPPORT. Host accesses keep the output or discard it whole (R341, R401), and so every step keeps its structure. -/

namespace Sys2Proof.Machine

section
variable {s t : State}

/-! ### Host accesses -/

theorem SameOutput.accessError (h : SameOutput s t) (e : ErrCode) (a : BitVec 17) (v : Word) :
    SameOutput s (t.accessError e a v) :=
  h.trans (sameOutput_recordError ..)

theorem sameOutput_answer (s : State) (w : Word) : SameOutput s (s.answer w) :=
  ⟨rfl, rfl, rfl, rfl⟩

theorem ReadBusOnly.sameOutput (h : ReadBusOnly s t) : SameOutput s t := by
  rw [h]
  exact ⟨rfl, rfl, rfl, rfl⟩

theorem sameOutput_hostRead (n : Nat) (a : BitVec 17) : SameOutput s (hostRead s n a) := by
  unfold hostRead
  split
  · cases target a.toNat with
    | bram k => exact (readBusOnly_readBram s k).sameOutput
    | unmapped => exact (sameOutput_answer s 0).accessError ..
    | _ => exact ⟨rfl, rfl, rfl, rfl⟩
  · exact (sameOutput_answer s 0).accessError ..

/-- Nothing is in the output, and no unit is open. -/
structure NoOutput (s : State) : Prop where
  wptr : s.wptr = 0
  desc : s.desc = []
  closed : s.bw.nalOpen = false

theorem noOutput_resetOutput : NoOutput s.resetOutput where
  wptr := resetOutput_wptr s
  desc := resetOutput_desc s
  closed := by
    rw [resetOutput_bw]
    cases ho : s.bw.nalOpen <;> simp [ho]

/-- What a host access may do to the output: nothing, or discard it whole (R341, R401). -/
def KeepsOrDiscards (s t : State) : Prop :=
  SameOutput s t ∨ NoOutput t

theorem keepsOrDiscards_writeCtrl (a : BitVec 17) (v : Word) : KeepsOrDiscards s (writeCtrl s a v) := by
  unfold writeCtrl
  split
  · exact .inr ⟨rfl, rfl, rfl⟩
  · split
    · exact .inl ((SameOutput.refl s).accessError ..)
    · cases v.getLsbD 9 with
      | true =>
        obtain ⟨hwptr, hdesc, hclosed⟩ := noOutput_resetOutput (s := if v.getLsbD 8 then s.clearError else s)
        exact .inr ⟨hwptr, hdesc, hclosed⟩
      | false => cases v.getLsbD 8 <;> exact .inl ⟨rfl, rfl, rfl, rfl⟩

theorem keepsOrDiscards_writeReg (a : BitVec 17) (v : Word) (r : Reg) : KeepsOrDiscards s (writeReg s a v r) := by
  cases r with
  | ctrl => exact keepsOrDiscards_writeCtrl a v
  | status => exact .inl ⟨rfl, rfl, rfl, rfl⟩
  | qp =>
    left
    simp only [writeReg, writeQp]
    split_ifs
    · exact (SameOutput.refl s).accessError ..
    · exact ⟨rfl, rfl, rfl, rfl⟩
    · exact (SameOutput.refl s).accessError ..
  | cmdHi => exact .inl ⟨rfl, rfl, rfl, rfl⟩
  | cmdLo =>
    left
    simp only [writeReg, pushCommand]
    split_ifs
    · exact ⟨rfl, rfl, rfl, rfl⟩
    · have hstage : SameOutput s { s with cmdHiStage := 0 } := ⟨rfl, rfl, rfl, rfl⟩
      exact hstage.accessError ..
  | irqEn => exact .inl ⟨rfl, rfl, rfl, rfl⟩
  | irqPend => exact .inl ⟨rfl, rfl, rfl, rfl⟩
  | _ => exact .inl ((SameOutput.refl s).accessError ..)

theorem keepsOrDiscards_hostWrite (n : Nat) (a : BitVec 17) (v : Word) : KeepsOrDiscards s (hostWrite s n a v) := by
  unfold hostWrite
  split
  · cases target a.toNat with
    | reg r => exact keepsOrDiscards_writeReg a v r
    | bram k =>
      simp only [writeBram]
      split_ifs
      · exact .inl ((SameOutput.refl s).accessError ..)
      · exact .inl ⟨rfl, rfl, rfl, rfl⟩
    | scaling k =>
      simp only [writeScaling]
      split_ifs
      · exact .inl ((SameOutput.refl s).accessError ..)
      · exact .inl ((SameOutput.refl s).accessError ..)
      · exact .inl ⟨rfl, rfl, rfl, rfl⟩
    | _ => exact .inl ((SameOutput.refl s).accessError ..)
  · exact .inl ((SameOutput.refl s).accessError ..)

theorem State.Stream.hostStep (h : s.Stream) (ht : KeepsOrDiscards s t) : t.Stream := by
  rcases ht with hsame | ⟨hwptr, hdesc, hclosed⟩
  · exact h.of_same hsame
  · exact stream_of_empty hwptr hdesc hclosed

/-! ### The engine and the whole system -/

theorem State.Stream.engineStep (h : s.Stream) (hr : s.Ranges) (hstep : engineStep s = .next t) : t.Stream := by
  rcases engineStep_cases s with ⟨-, heq⟩ | ⟨c, rest, e, -, -, -, heq⟩ | ⟨c, rest, i, -, hf, -, heq⟩ <;>
    rw [heq] at hstep
  · exact Host.Outcome.next.inj hstep ▸ h
  · have htail : State.Stream { s with fifo := rest } := h.of_same ⟨rfl, rfl, rfl, rfl⟩
    exact Host.Outcome.next.inj hstep ▸ htail.of_same (sameOutput_recordError e c.lo c.hi)
  · have htail : State.Stream { s with fifo := rest } := h.of_same ⟨rfl, rfl, rfl, rfl⟩
    exact htail.exec { hr with fifo := le_trans (by simp [hf]) hr.fifo } hstep

end

/-- Settles O28: the ranges by O27; the structure of the output by the kind of the next event: the engine's command, a
host access, or the reset input. -/
theorem stepsKeepStream : Obligations.StepsKeepStream := by
  unfold Obligations.StepsKeepStream
  intro s t hs hstep
  refine ⟨stepsKeepRanges s t hs.ranges hstep, ?_⟩
  have hlater : ∀ rest, State.Stream { s with agenda := rest } := fun _ => hs.stream.of_same ⟨rfl, rfl, rfl, rfl⟩
  rcases hag : s.agenda with _ | ⟨e, rest⟩
  · rw [step_of_agenda_nil s hag] at hstep
    exact hs.stream.engineStep hs.ranges hstep
  · cases e with
    | engineTurn =>
      rw [step_of_engineTurn s rest hag] at hstep
      exact (hlater rest).engineStep { hs.ranges with } hstep
    | read n a =>
      rw [step_of_read s rest hag] at hstep
      exact Host.Outcome.next.inj hstep ▸ (hlater rest).of_same (sameOutput_hostRead n a)
    | write n a v =>
      rw [step_of_write s rest hag] at hstep
      exact Host.Outcome.next.inj hstep ▸ (hlater rest).hostStep (keepsOrDiscards_hostWrite n a v)
    | resetInput =>
      rw [step_of_resetInput s rest hag] at hstep
      exact Host.Outcome.next.inj hstep ▸ stream_of_empty rfl rfl rfl

end Sys2Proof.Machine

/-! SUPPORT. The checks of the bit-producing commands (R335, R271), the framing commands NALB, NALE and NALX (R340 to
R343), and OUT_RESET (R341). -/

namespace Sys2Proof.Machine

section
variable {i : Instr} {s : State}

/-! ### The checks of the state, in their order (R271, R335) -/

theorem checkCoding_not_active (h : s.cabac.state ≠ .active) : checkCoding s = .error .cabacState := by
  simp [checkCoding, h]

theorem checkCoding_not_open (h : s.cabac.state = .active) (ho : s.bw.nalOpen = false) :
    checkCoding s = .error .nalState := by
  simp [checkCoding, h, ho]

theorem checkRawBits_not_open (ho : s.bw.nalOpen = false) : checkRawBits s = .error .nalState := by
  simp [checkRawBits, ho]

theorem checkRawBits_active (ho : s.bw.nalOpen = true) (h : s.cabac.state = .active) :
    checkRawBits s = .error .cabacState := by
  simp [checkRawBits, h, ho]

/-- The command makes this check right after that of its fields. -/
def ChecksFirst (i : Instr) (s : State) (check : Except ErrCode Unit) : Prop :=
  ∃ rest, effectOf i s = checkFields i >>= fun _ => check >>= rest

theorem ChecksFirst.refused {check : Except ErrCode Unit} {e : ErrCode} (h : ChecksFirst i s check)
    (hwf : i.wellFormed = true) (hcheck : check = .error e) : CommandRefused i s (errorNumber e) := by
  obtain ⟨rest, heff⟩ := h
  rw [(checkFields_ok_iff i).2 hwf, ok_bind, hcheck, error_bind] at heff
  exact commandRefused_of_effectOf heff

theorem checksFirst_coding (s : State) (h : codesBins i = true) : ChecksFirst i s (checkCoding s) := by
  cases i with
  | cdec ctx bin => exact ⟨_, rfl⟩
  | cbyp bin => exact ⟨_, rfl⟩
  | cbypn n value => exact ⟨_, rfl⟩
  | cterm bin => exact ⟨_, rfl⟩
  | _ => cases h

theorem checksFirst_raw (s : State) (h : isRaw i = true) : ChecksFirst i s (checkRawBits s) := by
  cases i with
  | putb n value => exact ⟨_, rfl⟩
  | putue value => exact ⟨_, rfl⟩
  | putse value => exact ⟨_, rfl⟩
  | align => exact ⟨_, rfl⟩
  | trail => exact ⟨_, rfl⟩
  | putbytes src count => exact ⟨_, rfl⟩
  | _ => cases h

/-- CRES checks the state once its source block has been read (R307). -/
theorem cres_refused {src : BitVec 10} {cat : BitVec 3} {cbfinc : BitVec 2} {codeCbf : Bool} {cs : List Int}
    {e : ErrCode} (hcat : cat.toNat ≤ 5) (hflag : ¬(cat.toNat = 5 ∧ codeCbf = true))
    (hscan : ScannedAt s src.toNat cat.toNat cs) (hcheck : checkCoding s = .error e) :
    CommandRefused (.cres src cat cbfinc codeCbf) s (errorNumber e) := by
  have hfields : checkFields (.cres src cat cbfinc codeCbf) = .ok () :=
    (require_ok_iff _ _).2 (by simpa [hcat, ← imp_iff_not_or] using hflag)
  refine commandRefused_of_effectOf ?_
  simp only [effectOf, cresEffect, hfields, scanBlock_of_scannedAt hscan, hcheck, ok_bind, error_bind]

end

/-- Settles O52: the state checks of a raw bit command and of a coding command come right after the check of the fields,
those of CRES after the reading of its block. -/
theorem bitCommandsCheckState : Obligations.BitCommandsCheckState := by
  unfold Obligations.BitCommandsCheckState
  refine ⟨fun i s hwf => ⟨fun hi => ?_, fun hi => ?_⟩, fun s src cat cbfinc codeCbf cs hcat hflag hscan => ?_⟩
  · have hfirst := checksFirst_coding s hi
    exact ⟨fun h => hfirst.refused hwf (checkCoding_not_active h),
      fun h ho => hfirst.refused hwf (checkCoding_not_open h ho)⟩
  · have hfirst := checksFirst_raw s hi
    exact ⟨fun ho => hfirst.refused hwf (checkRawBits_not_open ho),
      fun ho h => hfirst.refused hwf (checkRawBits_active ho h)⟩
  · exact ⟨fun h => cres_refused hcat hflag hscan (checkCoding_not_active h),
      fun h ho => cres_refused hcat hflag hscan (checkCoding_not_open h ho)⟩

/-! ### OutByte, of all its bytes or none (R321) -/

theorem outByte_retire (s : State) (k : Nat) : s.retire.outByte k = s.outByte k :=
  sameOutput_retire.outByte k

theorem outBytes_overflow {s : State} {bytes : List Byte} (h : Config.outSize < s.wptr + bytes.length) :
    outBytes s bytes = .error .outOverflow :=
  (outBytes_error_iff _ _ _).2 ⟨h, rfl⟩

theorem outBytes_fits {s : State} {bytes : List Byte} (h : s.wptr + bytes.length ≤ Config.outSize) :
    outBytes s bytes = .ok { s with out := s.out.writeAll s.wptr bytes, wptr := s.wptr + bytes.length } :=
  (outBytes_ok_iff _ _ _).2 ⟨h, rfl⟩

/-- Only the new bytes change; the bytes past them read 0x00 as before (R47). -/
theorem outByte_of_outBytes_eq {s t : State} {bytes : List Byte} (h : outBytes s bytes = .ok t) (k : Nat) :
    t.outByte k =
      if s.wptr ≤ k ∧ k < s.wptr + bytes.length then bytes.getD (k - s.wptr) 0 else s.outByte k := by
  rw [outByte_of_outBytes h]
  by_cases hk : k < s.wptr
  · rw [if_pos hk, if_neg (by omega)]
  · have hold : s.outByte k = unlistedByte := if_neg hk
    rw [if_neg hk, hold]
    exact if_congr (and_iff_right (Nat.le_of_not_lt hk)).symm rfl rfl

theorem outByte_of_outBytes_single {s t : State} {b : Byte} (h : outBytes s [b] = .ok t) (k : Nat) :
    t.outByte k = if k = s.wptr then b else s.outByte k := by
  rw [outByte_of_outBytes_eq h, List.length_singleton]
  by_cases hk : k = s.wptr
  · simp [hk]
  · rw [if_neg (by omega), if_neg hk]

/-! ### NALB (R340) -/

section
variable {s : State} {refIdc : BitVec 2} {nalType : BitVec 5}

theorem effectOf_nalb (h : nalType ≠ 0) : effectOf (.nalb refIdc nalType) s = nalbEffect refIdc nalType s := by
  have hfields : checkFields (.nalb refIdc nalType) = .ok () :=
    (checkFields_ok_iff _).2 (by simpa [Instr.wellFormed] using h)
  rw [effectOf, hfields, ok_bind]

theorem nalbEffect_open (ho : s.bw.nalOpen = true) : nalbEffect refIdc nalType s = .error .nalState := by
  simp [nalbEffect, ho]

theorem nalbEffect_full (ho : s.bw.nalOpen = false) (hd : s.desc.length = 64) :
    nalbEffect refIdc nalType s = .error .descOverflow := by
  simp [nalbEffect, ho, State.nalCount, hd]

/-- With no unit open and a free descriptor, NALB writes its header byte (R340). -/
theorem nalbEffect_header (ho : s.bw.nalOpen = false) (hd : s.desc.length ≠ 64) :
    nalbEffect refIdc nalType s = outBytes s [nalHeader refIdc nalType] >>= fun t =>
      .ok { t with bw := ⟨true, [], 0, false, BitVec.ofNat 32 s.wptr, 0, nalHeader refIdc nalType⟩ } := by
  simp [nalbEffect, ho, State.nalCount, hd]

end

/-- Settles O55: the checks in their order; the header byte is written at the old wptr. -/
theorem nalbOpensUnit : Obligations.NalbOpensUnit := by
  unfold Obligations.NalbOpensUnit
  intro s refIdc nalType hne
  have heff := effectOf_nalb (s := s) (refIdc := refIdc) hne
  refine ⟨fun ho => commandRefused_of_effectOf (heff.trans (nalbEffect_open ho)),
    fun ho hd => commandRefused_of_effectOf (heff.trans (nalbEffect_full ho hd)), fun ho hd hfull => ?_,
    fun ho hd hroom => ?_⟩
  · have hout : outBytes s [nalHeader refIdc nalType] = .error .outOverflow :=
      outBytes_overflow (Nat.lt_succ_of_le hfull)
    rw [nalbEffect_header ho hd, hout, error_bind] at heff
    exact commandRefused_of_effectOf heff
  · intro hdr
    have hout := outBytes_fits (s := s) (bytes := [hdr]) hroom
    rw [nalbEffect_header ho hd, nalHeader_eq, hout, ok_bind] at heff
    refine ⟨_, exec_of_effectOf heff, (retire_eq _).trans (by rw [retire_out]; rfl), fun k => ?_⟩
    exact (outByte_retire _ k).trans (outByte_of_outBytes_single hout k)

/-! ### NALE (R342) -/

section
variable {s : State}

theorem naleEffect_not_open (ho : s.bw.nalOpen = false) : naleEffect s = .error .nalState := by
  simp [naleEffect, ho]

theorem naleEffect_pending (ho : s.bw.nalOpen = true) (hacc : s.bw.acc ≠ []) : naleEffect s = .error .bwAlign := by
  simp [naleEffect, ho, hacc]

theorem naleEffect_active (ho : s.bw.nalOpen = true) (hacc : s.bw.acc = []) (h : s.cabac.state = .active) :
    naleEffect s = .error .cabacState := by
  simp [naleEffect, ho, hacc, h]

/-- The bytes NALE appends: a 0x03 after a trailing zero byte (R329). -/
def closingBytes (s : State) : List Byte :=
  if s.bw.lastZero then [0x03] else []

theorem naleEffect_closes (ho : s.bw.nalOpen = true) (hacc : s.bw.acc = []) (h : s.cabac.state ≠ .active) :
    naleEffect s = outBytes s (closingBytes s) >>= fun t => .ok t.closeNal := by
  simp [naleEffect, ho, hacc, h, closingBytes]

theorem length_closingBytes : (closingBytes s).length = if s.bw.lastZero then 1 else 0 := by
  unfold closingBytes
  split <;> rfl

theorem outByte_of_closingBytes {t : State} (h : outBytes s (closingBytes s) = .ok t) (k : Nat) :
    t.outByte k = if k = s.wptr ∧ s.bw.lastZero = true then 0x03 else s.outByte k := by
  cases hlast : s.bw.lastZero with
  | true =>
    rw [closingBytes, hlast] at h
    simpa using outByte_of_outBytes_single h k
  | false =>
    rw [closingBytes, hlast] at h
    rw [outByte_of_outBytes_eq h, if_neg (by simp), if_neg (by simp)]

end

/-- Settles O56: the checks in their order; then the closing byte, if any, and the record of the unit. -/
theorem naleClosesUnit : Obligations.NaleClosesUnit := by
  unfold Obligations.NaleClosesUnit
  intro s
  refine ⟨fun ho => commandRefused_of_effectOf (i := .nale) (naleEffect_not_open ho),
    fun ho hacc => commandRefused_of_effectOf (i := .nale) (naleEffect_pending ho hacc),
    fun ho hacc h => commandRefused_of_effectOf (i := .nale) (naleEffect_active ho hacc h), fun ho hacc h => ?_⟩
  intro last
  have heff : effectOf .nale s = outBytes s (closingBytes s) >>= fun t => .ok t.closeNal := naleEffect_closes ho hacc h
  have hlast : s.wptr + (closingBytes s).length = last := by rw [length_closingBytes]
  refine ⟨fun hfull => ?_, fun hroom => ?_⟩
  · rw [outBytes_overflow (hlast ▸ hfull), error_bind] at heff
    exact commandRefused_of_effectOf heff
  · have hout := outBytes_fits (s := s) (bytes := closingBytes s) (hlast ▸ hroom)
    have hbyte := outByte_of_closingBytes hout
    rw [hout, hlast, ok_bind] at heff
    rw [hlast] at hbyte
    refine ⟨_, exec_of_effectOf heff, (retire_eq _).trans (by rw [retire_out]; rfl), fun k => ?_⟩
    exact (outByte_retire _ k).trans (hbyte k)

/-! ### NALX (R343) -/

theorem nalxEffect_not_open {s : State} (ho : s.bw.nalOpen = false) : nalxEffect s = .error .nalState := by
  simp [nalxEffect, ho]

theorem nalxEffect_aborts {s : State} (ho : s.bw.nalOpen = true) : nalxEffect s = .ok s.abortNal := by
  simp [nalxEffect, ho]

/-- The bytes before the aborted unit stay, and the rest reads 0x00 (R334, R47). -/
theorem outByte_abortNal {s : State} (h : s.bw.nalStart.toNat ≤ s.wptr) (k : Nat) :
    s.abortNal.outByte k = if k < s.bw.nalStart.toNat then s.outByte k else 0 := by
  by_cases hk : k < s.bw.nalStart.toNat
  · simp only [State.outByte, State.abortNal, Memory.read_truncate, if_pos hk, if_pos (hk.trans_le h)]
  · rw [if_neg hk]
    exact if_neg hk

/-- Settles O57: an open unit is all there is to check; the abort is that of R334. -/
theorem nalxAbortsUnit : Obligations.NalxAbortsUnit := by
  unfold Obligations.NalxAbortsUnit
  intro s
  refine ⟨fun ho => commandRefused_of_effectOf (i := .nalx) (nalxEffect_not_open ho), fun ho hstart => ?_⟩
  have heff : effectOf .nalx s = .ok s.abortNal := nalxEffect_aborts ho
  refine ⟨_, exec_of_effectOf heff, (retire_eq _).trans (by rw [retire_out]; rfl), fun k => ?_⟩
  exact (outByte_retire _ k).trans (outByte_abortNal hstart k)

/-! ### OUT_RESET (R341) -/

section
variable {s : State} {v : Word}

theorem writeCtrl_outReset_busy (a : BitVec 17) (h9 : v.getLsbD 9 = true) (h10 : v.getLsbD 10 = false)
    (hbusy : s.fifo ≠ []) : writeCtrl s a v = s.accessError .hostBusyWrite a v := by
  rw [writeCtrl, h9, h10, (busy_iff s).2 hbusy]
  simp only [Bool.false_eq_true, if_false, Bool.or_true, Bool.true_and, if_true]

theorem writeCtrl_outReset_idle (a : BitVec 17) (h9 : v.getLsbD 9 = true) (h10 : v.getLsbD 10 = false)
    (hidle : s.fifo = []) : writeCtrl s a v =
      { (if v.getLsbD 8 then s.clearError else s).resetOutput with
        enable := v.getLsbD 0, lossless := v.getLsbD 1 } := by
  rw [writeCtrl, h9, h10, (not_busy_iff s).2 hidle]
  simp only [Bool.false_eq_true, if_false, Bool.false_and, if_true]

/-- CLR_ERR with an empty queue clears the error registers and nothing else (R378). -/
theorem clearError_of_idle (clear : Bool) (hidle : s.fifo = []) : (if clear then s.clearError else s) =
    { s with err := s.err && !clear, errcode := if clear then 0 else s.errcode
             errinfoLo := if clear then 0 else s.errinfoLo, errinfoHi := if clear then 0 else s.errinfoHi } := by
  cases clear with
  | true => simp [State.clearError, ← hidle]
  | false => simp

theorem resetOutput_eq (s : State) : s.resetOutput =
    { s with cabac := { s.cabac with state := .idle }, out := [], wptr := 0, desc := []
             bw := if s.bw.nalOpen then ⟨false, [], 0, false, 0, 0, 0⟩
                   else { s.bw with nalStart := 0, nalBits := 0 } } := by
  unfold State.resetOutput
  split <;> rfl

end

/-- Settles O22: BUSY is tested on the state before the write (log 13); then CLR_ERR, and the reset of the output. -/
theorem outResetDiscardsOutput : Obligations.OutResetDiscardsOutput := by
  unfold Obligations.OutResetDiscardsOutput
  intro s rest v hwrite h9 h10
  have hstep : step s = .next (writeCtrl { s with agenda := rest } 0x00004 v) := step_write_reg hwrite rfl rfl
  constructor
  · intro hbusy
    rw [writeCtrl_outReset_busy (s := { s with agenda := rest }) _ h9 h10 hbusy] at hstep
    exact ⟨_, hstep, refused_accessError_busAddr _ _ (by decide) v⟩
  · intro hidle
    rw [writeCtrl_outReset_idle (s := { s with agenda := rest }) _ h9 h10 hidle, resetOutput_eq,
      clearError_of_idle (s := { s with agenda := rest }) _ hidle] at hstep
    exact ⟨_, hstep, rfl, fun k => rfl⟩

end Sys2Proof.Machine

/-! SUPPORT. The raw bit commands (R344 to R349): what each comes to past its checks, and the statements on them. -/

namespace Sys2Proof.Machine

/-! ### What a raw bit command leaves (R321, R92) -/

section
variable {i : Instr} {s t : State} {bits : List Bool}

theorem Emitted.of_same {u : State} {bytes : List Byte} (h : Emitted s t bytes) (hsame : SameOutput t u) :
    Emitted s u bytes := by
  obtain ⟨wptr, fits, new, old, beyond, desc, zeros, lastZero, unit⟩ := h
  constructor <;> simpa only [UnitKept, hsame.outByte, hsame.bw, hsame.wptr, hsame.desc]

theorem Appended.of_same {u : State} (h : Appended s t bits) (hsame : SameOutput t u) : Appended s u bits := by
  obtain ⟨hacc, hcount, bytes, hbits, he⟩ := h
  rw [← hsame.bw] at hacc hcount hbits
  exact ⟨hacc, hcount, bytes, hbits, he.of_same hsame⟩

/-- All but the bit writer and the output is kept, and IDLE set with the last command. -/
structure RestKept (s t : State) : Prop where
  cabac : t.cabac = s.cabac
  ctx : t.ctx = s.ctx
  bram : BramKept s t
  flags : FlagsKept s t
  qp : QpKept s t
  host : HostSideKept s t
  irq : IrqAfter s t 0

theorem restKept_of_outBytes {w : BitWriter} {bytes : List Byte} (h : outBytes { s with bw := w } bytes = .ok t) :
    RestKept s t.retire := by
  obtain ⟨-, rfl⟩ := (outBytes_ok_iff _ _ _).1 h
  refine ⟨retire_cabac _, retire_ctx _, fun a => by rw [retire_bram], ⟨retire_result _, retire_sat _⟩,
    ⟨retire_qpy _, retire_cboff _, retire_croff _⟩, ?_, irqAfter_retire rfl rfl⟩
  constructor <;> simp

theorem rawDone_of_writeBits (hacc : s.bw.acc.length ≤ 7) (hw : writeBits s bits = .ok t) :
    RawDone s t.retire bits :=
  { restKept_of_outBytes hw with bits := (appended_of_writeBits hacc hw).of_same sameOutput_retire }

/-- A command that comes to writing bits completes exactly where they fit. -/
theorem writesBits_of_effectOf (hacc : s.bw.acc.length ≤ 7) (heff : effectOf i s = writeBits s bits) :
    WritesBits i s bits where
  completes hfits := by
    obtain ⟨t, hw⟩ := (writeBits_is_ok_iff hacc bits).2 hfits
    exact ⟨_, exec_of_effectOf (heff.trans hw), rawDone_of_writeBits hacc hw⟩
  full hfull := commandRefused_of_effectOf (heff.trans ((writeBits_error_iff hacc bits .outOverflow).2 ⟨hfull, rfl⟩))

/-- After bits up to a byte boundary no bit is pending. -/
theorem acc_of_exec_aligned (hacc : s.bw.acc.length ≤ 7) (heff : effectOf i s = writeBits s bits)
    (hbits : (s.bw.acc.length + bits.length) % 8 = 0) (hstep : exec i s = .next t) (herr : t.err = false) :
    t.bw.acc = [] := by
  rcases (exec_next_iff i s t).1 hstep with ⟨u, hu, rfl⟩ | ⟨e, -, rfl⟩
  · obtain ⟨-, rfl⟩ := (writeBits_ok_iff _ _ _).1 (heff.symm.trans hu)
    rw [retire_bw]
    exact List.length_eq_zero_iff.1 ((putBitsRaw_acc_length hacc bits).trans hbits)
  · rw [recordError_err] at herr
    cases herr

/-! ### The bits of each command (R344 to R348, R330, R331) -/

theorem effectOf_putb {n : BitVec 6} {value : Word} (hmay : MayWriteRaw s) (hn : n.toNat ≤ 32) :
    effectOf (.putb n value) s =
      writeBits s ((List.range n.toNat).map fun i => value.getLsbD (n.toNat - 1 - i)) := by
  have hfields : checkFields (.putb n value) = .ok () := (checkFields_ok_iff _).2 (by simp [Instr.wellFormed, hn])
  simp only [effectOf, hfields, (checkRawBits_ok_iff s).2 hmay, ok_bind, bitsMsb_eq_map_range]
  rfl

/-- ue(v) with the count of its leading zeros given by the range of the codeNum (R330). -/
theorem ueBits_eq {k lz : Nat} (hlo : 2 ^ lz ≤ k + 1) (hhi : k + 1 < 2 ^ (lz + 1)) : ueBits k =
    List.replicate lz false ++ (List.range (lz + 1)).map fun i => (k + 1).testBit (lz - i) := by
  have hlog : Nat.log2 (k + 1) = lz := (Nat.log2_eq_iff (Nat.succ_ne_zero k)).2 ⟨hlo, hhi⟩
  simp only [ueBits, hlog, bitsMsb_eq_map_range, Nat.add_sub_cancel]

theorem seCodeNum_eq {v : Int} {k : Nat} (h : (k : Int) = if 0 < v then 2 * v - 1 else -2 * v) : seCodeNum v = k := by
  unfold seCodeNum
  split_ifs at h ⊢ <;> omega

theorem effectOf_putue {value : Word} (hmay : MayWriteRaw s) (hvalue : value.toNat ≠ 2 ^ 32 - 1) :
    effectOf (.putue value) s = writeBits s (ueBits value.toNat) := by
  simp only [effectOf, (checkRawBits_ok_iff s).2 hmay, ok_bind, decide_eq_true hvalue, require_true]

theorem effectOf_putue_refused (hmay : MayWriteRaw s) : effectOf (.putue 0xFFFFFFFF) s = .error .valueRange := by
  simp only [effectOf, (checkRawBits_ok_iff s).2 hmay, ok_bind]
  rfl

theorem effectOf_putse {value : Word} (hmay : MayWriteRaw s) (hvalue : value.toInt ≠ -2 ^ 31) :
    effectOf (.putse value) s = writeBits s (ueBits (seCodeNum value.toInt)) := by
  simp only [effectOf, (checkRawBits_ok_iff s).2 hmay, ok_bind, decide_eq_true hvalue, require_true]

theorem effectOf_putse_refused (hmay : MayWriteRaw s) : effectOf (.putse 0x80000000) s = .error .valueRange := by
  simp only [effectOf, (checkRawBits_ok_iff s).2 hmay, ok_bind]
  rfl

theorem effectOf_align (hmay : MayWriteRaw s) (hacc : s.bw.acc.length ≤ 7) :
    effectOf .align s = writeBits s (List.replicate ((8 - s.bw.acc.length) % 8) false) := by
  simp only [effectOf, (checkRawBits_ok_iff s).2 hmay, ok_bind, padding, State.bitpos,
    Nat.mod_eq_of_lt (Nat.lt_succ_of_le hacc)]

theorem effectOf_trail (hmay : MayWriteRaw s) (hacc : s.bw.acc.length ≤ 7) :
    effectOf .trail s = writeBits s (true :: List.replicate (7 - s.bw.acc.length) false) := by
  have hlen : (8 - (s.bw.acc.length + 1) % 8) % 8 = 7 - s.bw.acc.length := by omega
  simp only [effectOf, (checkRawBits_ok_iff s).2 hmay, ok_bind, padding, State.bitpos, hlen]

end

/-- Settles O58: past its checks each command comes to writing its bits. -/
theorem rawBitCommandsWrite : Obligations.RawBitCommandsWrite := by
  unfold Obligations.RawBitCommandsWrite
  intro s hacc hmay
  have halign := effectOf_align hmay hacc
  have htrail := effectOf_trail hmay hacc
  have hbound : ∀ lz ≤ 31, 2 ^ (lz + 1) ≤ 2 ^ 32 := fun lz hlz => Nat.pow_le_pow_right (by decide) (by omega)
  refine ⟨fun n value hn => writesBits_of_effectOf hacc (effectOf_putb hmay hn), fun value lz hlo hhi hlz => ?_,
    fun value k lz hk hlo hhi hlz => ?_, commandRefused_of_effectOf (effectOf_putue_refused hmay),
    commandRefused_of_effectOf (effectOf_putse_refused hmay), writesBits_of_effectOf hacc halign,
    writesBits_of_effectOf hacc htrail, fun i hi t hstep herr => ?_⟩
  · have hvalue : value.toNat ≠ 2 ^ 32 - 1 := by have := hbound lz hlz; omega
    exact writesBits_of_effectOf hacc ((effectOf_putue hmay hvalue).trans (by rw [ueBits_eq hlo hhi]))
  · have hvalue : value.toInt ≠ -2 ^ 31 := by
      intro hmin
      have := hbound lz hlz
      rw [hmin, if_neg (by decide)] at hk
      omega
    exact writesBits_of_effectOf hacc ((effectOf_putse hmay hvalue).trans (by rw [seCodeNum_eq hk, ueBits_eq hlo hhi]))
  · simp only [List.mem_cons, List.not_mem_nil, or_false] at hi
    rcases hi with rfl | rfl
    · exact acc_of_exec_aligned hacc halign (by rw [List.length_replicate]; omega) hstep herr
    · exact acc_of_exec_aligned hacc htrail (by rw [List.length_cons, List.length_replicate]; omega) hstep herr

/-! ### PUTBYTES (R349) -/

section
variable {s : State} {src : BitVec 10} {count : BitVec 11}

/-- The payload bytes of words: their low bytes (R349). -/
def payloadOf (ws : List Word) : List Byte :=
  ws.map fun w => w.extractLsb' 0 8

theorem effectOf_putbytes (hcount : count.toNat ≤ 1024) (hmay : MayWriteRaw s) : effectOf (.putbytes src count) s =
    require (s.bw.acc.length = 0) .bwAlign >>= fun _ =>
      require (count.toNat = 0 || src.toNat + count.toNat ≤ 1024) .bramRange >>= fun _ =>
        readWords s.bram (blockAddrs src.toNat count.toNat) >>= fun ws =>
          outBytes { s with bw := (emitBytes s.bw (payloadOf ws)).1 } (emitBytes s.bw (payloadOf ws)).2 := by
  have hfields : checkFields (.putbytes src count) = .ok () :=
    (checkFields_ok_iff _).2 (by simp [Instr.wellFormed, hcount])
  simp only [effectOf, hfields, ok_bind, putbytesEffect, (checkRawBits_ok_iff s).2 hmay]
  rfl

/-- PUTBYTES with no bit pending and its source inside the buffer RAM (R349). -/
theorem effectOf_putbytes_aligned (hcount : count.toNat ≤ 1024) (hmay : MayWriteRaw s) (hacc : s.bw.acc = [])
    (hrange : count.toNat = 0 ∨ src.toNat + count.toNat ≤ 1024) : effectOf (.putbytes src count) s =
      readWords s.bram (blockAddrs src.toNat count.toNat) >>= fun ws =>
        outBytes { s with bw := (emitBytes s.bw (payloadOf ws)).1 } (emitBytes s.bw (payloadOf ws)).2 := by
  have hcheck : (count.toNat = 0 || src.toNat + count.toNat ≤ 1024 : Bool) = true := by simpa using hrange
  rw [effectOf_putbytes hcount hmay, hcheck, hacc]
  rfl

theorem bytesFit_iff {bytes : List Byte} :
    BytesFit s bytes ↔ s.wptr + (emitBytes s.bw bytes).2.length ≤ Config.outSize := by
  rw [emitBytes_bytes, BytesFit]

end

/-- Settles O59: the checks in their order; the bytes read go through emulation prevention. -/
theorem putbytesWritesPayload : Obligations.PutbytesWritesPayload := by
  unfold Obligations.PutbytesWritesPayload
  intro s src count hcount hmay
  refine ⟨fun hacc => ?_, fun hacc hpos hrange => ?_, fun hacc hrange ⟨j, hj, hnone⟩ => ?_,
    fun hacc hrange ws hlen hread => ?_⟩
  · have heff := effectOf_putbytes (src := src) hcount hmay
    rw [decide_eq_false (mt List.length_eq_zero_iff.1 hacc)] at heff
    exact commandRefused_of_effectOf heff
  · have heff := effectOf_putbytes (src := src) hcount hmay
    have hcheck : (count.toNat = 0 || src.toNat + count.toNat ≤ 1024 : Bool) = false := by
      rw [Bool.or_eq_false_iff, decide_eq_false_iff_not, decide_eq_false_iff_not]
      omega
    rw [hcheck, hacc] at heff
    exact commandRefused_of_effectOf heff
  · have heff := effectOf_putbytes_aligned hcount hmay hacc (.inr hrange)
    have hmem : src.toNat + j ∈ blockAddrs src.toNat count.toNat := (mem_blockAddrs _ _ _).2 (by omega)
    rw [(readWords_error_iff _ _ .uninitRead).2 ⟨rfl, _, hmem, hnone⟩] at heff
    exact commandRefused_of_effectOf heff
  · intro bytes
    have heff := effectOf_putbytes_aligned hcount hmay hacc hrange
    rw [readWords_blockAddrs hlen fun k hk => by rw [hread k (hlen ▸ hk), List.getD_eq_getElem _ _ hk], ok_bind] at heff
    change effectOf _ s = outBytes { s with bw := (emitBytes s.bw bytes).1 } (emitBytes s.bw bytes).2 at heff
    refine ⟨fun hfits => ?_, fun hfull => ?_⟩
    · have hroom := bytesFit_iff.1 hfits
      have hout := outBytes_fits (s := { s with bw := (emitBytes s.bw bytes).1 }) hroom
      obtain ⟨-, -, -, hsame, hbits⟩ := emitBytes_unit s.bw bytes
      obtain ⟨cabac, ctx, bram, flags, qp, host, irq⟩ := restKept_of_outBytes hout
      refine ⟨_, exec_of_effectOf (heff.trans hout), (emitted_of_emitBytes hout).of_same sameOutput_retire, ?_, ?_,
        cabac, ctx, bram, flags, qp, host, irq⟩
      · rw [retire_bw]
        exact hsame.trans hacc
      · rw [retire_bw, ← hlen, ← List.length_map (as := ws) fun w => w.extractLsb' 0 8]
        exact hbits
    · have hover := mt bytesFit_iff.2 hfull
      exact commandRefused_of_effectOf (heff.trans (outBytes_overflow (Nat.lt_of_not_le hover)))

end Sys2Proof.Machine

/-! SUPPORT. The control commands (R360, R361): which values SETQP admits, what it stores, and its refusal. -/

namespace Sys2Proof.Machine

section
variable {qpy : BitVec 6} {cboff croff : BitVec 5} (s : State)

theorem qpAdmitted_iff (q : Nat) (cb cr : Int) :
    qpAdmitted q cb cr = true ↔ q ≤ 51 ∧ -12 ≤ cb ∧ cb ≤ 12 ∧ -12 ≤ cr ∧ cr ≤ 12 := by
  simp only [qpAdmitted, within, Bool.and_eq_true, decide_eq_true_eq, and_assoc]

theorem effectOf_setqp : effectOf (.setqp qpy cboff croff) s =
    require (qpAdmitted qpy.toNat cboff.toInt croff.toInt) .qpRange >>= fun _ =>
      .ok (s.setQp qpy.toNat cboff.toInt croff.toInt) := rfl

theorem effectOf_setqp_admitted (h : qpAdmitted qpy.toNat cboff.toInt croff.toInt = true) :
    effectOf (.setqp qpy cboff croff) s = .ok (s.setQp qpy.toNat cboff.toInt croff.toInt) := by
  rw [effectOf_setqp, h, require_true, ok_bind]

theorem effectOf_setqp_refused (h : qpAdmitted qpy.toNat cboff.toInt croff.toInt = false) :
    effectOf (.setqp qpy cboff croff) s = .error .qpRange := by
  rw [effectOf_setqp, h, require_false, error_bind]

end

/-- A completed command leaves its effect, and sets IDLE with an empty queue (R380). -/
theorem exec_eq_retired {i : Instr} {s u : State} (h : effectOf i s = .ok u) :
    exec i s = .next { u with irqPend := u.irqPend ||| if u.fifo = [] then irqIdle else 0 } := by
  rw [exec_of_effectOf h, retire_eq]

/-- Settles O32: NOP has no effect of its own; SETQP checks its three values and stores them. -/
theorem nopAndSetqpComplete : Obligations.NopAndSetqpComplete := by
  unfold Obligations.NopAndSetqpComplete
  intro s qpy cboff croff legal
  have hadmitted : qpAdmitted qpy.toNat cboff.toInt croff.toInt = true ↔ legal := qpAdmitted_iff _ _ _
  refine ⟨exec_eq_retired (i := .nop) rfl, fun hlegal => ?_, fun hillegal => ?_⟩
  · exact exec_eq_retired (effectOf_setqp_admitted s (hadmitted.2 hlegal))
  · have hrefused := Bool.eq_false_iff.2 (mt hadmitted.1 hillegal)
    exact commandRefused_of_effectOf (effectOf_setqp_refused s hrefused)

end Sys2Proof.Machine

/-! SUPPORT. Errors and interrupts (60_exceptions.md): which errors a command can raise (R371), what the engine's step on
the command at the FIFO head comes to, what a recorded error keeps (R374), and the writes of CTRL that recover from it
(R378). -/

namespace Sys2Proof.Machine

/-! ### Every step answers a next state -/

theorem exec_is_next (i : Instr) (s : State) : ∃ t, exec i s = .next t := by
  rw [exec_eq_finish]
  exact finish_is_next i s _

theorem engineStep_is_next (s : State) : ∃ t, engineStep s = .next t := by
  rcases engineStep_cases s with ⟨-, heq⟩ | ⟨c, rest, e, -, -, -, heq⟩ | ⟨c, rest, i, -, -, -, heq⟩ <;> rw [heq]
  · exact ⟨_, rfl⟩
  · exact ⟨_, rfl⟩
  · exact exec_is_next i _

/-- Settles O8: a command ends in `finish`, and a host access or a reset is a function of the state. -/
theorem everyStepAnswersNext : Obligations.EveryStepAnswersNext := by
  unfold Obligations.EveryStepAnswersNext
  intro s
  rcases hag : s.agenda with _ | ⟨e, rest⟩
  · exact step_of_agenda_nil s hag ▸ engineStep_is_next s
  · cases e with
    | engineTurn => exact step_of_engineTurn s rest hag ▸ engineStep_is_next _
    | read n a => exact ⟨_, step_of_read s rest hag⟩
    | write n a v => exact ⟨_, step_of_write s rest hag⟩
    | resetInput => exact ⟨_, step_of_resetInput s rest hag⟩

/-! ### The errors that a command can raise (R371) -/

/-- The errors of commands; the other five are the host's. -/
def isCommandError : ErrCode → Bool
  | .cmdqOverflow | .hostBusyWrite | .mmioAlign | .mmioAccess | .cfgValue => false
  | _ => true

theorem errorNumber_of_isCommandError {e : ErrCode} (h : isCommandError e = true) :
    1 ≤ (errorNumber e).toNat ∧ (errorNumber e).toNat ≤ 0x10 := by
  revert h
  cases e <;> decide

/-- A computation that answers no error but those of commands. -/
abbrev OnlyCommandErrors {α : Type} (x : Except ErrCode α) : Prop :=
  ErrorsMeet (isCommandError · = true) x

theorem onlyCommandErrors_decode (c : Command) : OnlyCommandErrors (decode c) := by
  intro e h
  unfold decode at h
  split at h
  · cases h; rfl
  · split at h <;> cases h
    rfl

theorem onlyCommandErrors_checkFields (i : Instr) : OnlyCommandErrors (checkFields i) := by
  cases i with
  | nop | cbyp _ | cterm _ | nale | nalx | putue _ | putse _ | align | trail => exact .ok ()
  | cinit model sliceqp eng => exact .bind (errorsMeet_require _ rfl) fun _ => errorsMeet_require _ rfl
  | _ => exact errorsMeet_require _ rfl

section
variable (s : State) (m : Bram)

theorem onlyCommandErrors_readWords (as : List Nat) : OnlyCommandErrors (readWords m as) := by
  intro e h
  obtain ⟨rfl, -⟩ := (readWords_error_iff m as e).1 h
  rfl

theorem onlyCommandErrors_readBlock (src dst len : Nat) : OnlyCommandErrors (readBlock m src dst len) :=
  .bind (errorsMeet_require _ rfl) fun _ => .bind (errorsMeet_require _ rfl) fun _ => onlyCommandErrors_readWords m _

theorem onlyCommandErrors_scanBlock (src cat : Nat) : OnlyCommandErrors (scanBlock m src cat) :=
  .bind (errorsMeet_require _ rfl) fun _ => .bind (onlyCommandErrors_readWords m _) fun _ =>
    .bind (errorsMeet_require _ rfl) fun _ => .ok _

theorem onlyCommandErrors_outBytes (bytes : List Byte) : OnlyCommandErrors (outBytes s bytes) := by
  intro e h
  obtain ⟨-, rfl⟩ := (outBytes_error_iff s bytes e).1 h
  rfl

theorem onlyCommandErrors_checkRawBits : OnlyCommandErrors (checkRawBits s) :=
  .bind (errorsMeet_require _ rfl) fun _ => errorsMeet_require _ rfl

theorem onlyCommandErrors_checkCoding : OnlyCommandErrors (checkCoding s) :=
  .bind (errorsMeet_require _ rfl) fun _ => errorsMeet_require _ rfl

theorem onlyCommandErrors_codeAndWrite (bins : List Bin) : OnlyCommandErrors (codeAndWrite bins s) :=
  .bind (errorsMeet_codeBins (p := (isCommandError · = true)) rfl _ _) fun _ => onlyCommandErrors_outBytes _ _

theorem onlyCommandErrors_code (bins : List Bin) : OnlyCommandErrors (do checkCoding s; codeAndWrite bins s) :=
  .bind (onlyCommandErrors_checkCoding s) fun _ => onlyCommandErrors_codeAndWrite s bins

theorem onlyCommandErrors_forwardBlock (i : Instr) (o : TOps) (len : Nat) (bound : Int)
    (levels : List Int → List (Int × Bool)) : OnlyCommandErrors (forwardBlock i o len bound levels s) :=
  .bind (onlyCommandErrors_checkFields i) fun _ => .bind (onlyCommandErrors_readBlock _ _ _ _) fun _ =>
    .bind (errorsMeet_require _ rfl) fun _ => .ok _

theorem onlyCommandErrors_inverseBlock (i : Instr) (o : TOps) (len : Nat) (residuals : List Word → List Word) :
    OnlyCommandErrors (inverseBlock i o len residuals s) :=
  .bind (onlyCommandErrors_checkFields i) fun _ => .bind (onlyCommandErrors_readBlock _ _ _ _) fun _ =>
    .bind (errorsMeet_require _ rfl) fun _ => .ok _

/-- No command raises an error of the host's. -/
theorem onlyCommandErrors_effectOf (i : Instr) : OnlyCommandErrors (effectOf i s) := by
  have hfields := onlyCommandErrors_checkFields i
  cases i with
  | nop => exact .ok _
  | setqp qpy cboff croff => exact .bind hfields fun _ => .ok _
  | tq4 o | tq8 o | tqldc o | tqcdc o => exact onlyCommandErrors_forwardBlock s _ _ _ _ _
  | dq4 o | dq8 o | dqldc o | dqcdc o => exact onlyCommandErrors_inverseBlock s _ _ _ _
  | rlscan src dst cat =>
    exact .bind hfields fun _ => .bind (onlyCommandErrors_scanBlock _ _ _) fun _ =>
      .bind (errorsMeet_require _ rfl) fun _ => .ok _
  | cinit model sliceqp eng => exact .bind hfields fun _ => .bind (errorsMeet_require _ rfl) fun _ => .ok _
  | cdec ctx bin => exact .bind hfields fun _ => onlyCommandErrors_code s _
  | cbyp bin => exact onlyCommandErrors_code s _
  | cbypn n value => exact .bind hfields fun _ => onlyCommandErrors_code s _
  | cterm bin =>
    exact .bind (onlyCommandErrors_checkCoding s) fun _ => .bind (onlyCommandErrors_codeAndWrite s _) fun _ => .ok _
  | cres src cat cbfinc codeCbf =>
    exact .bind hfields fun _ => .bind (onlyCommandErrors_scanBlock _ _ _) fun _ =>
      .bind (onlyCommandErrors_checkCoding s) fun _ => .bind (errorsMeet_require _ rfl) fun _ =>
        .bind (onlyCommandErrors_codeAndWrite s _) fun _ => .ok _
  | nalb refIdc nalType =>
    exact .bind hfields fun _ => .bind (errorsMeet_require _ rfl) fun _ => .bind (errorsMeet_require _ rfl) fun _ =>
      .bind (onlyCommandErrors_outBytes s _) fun _ => .ok _
  | nale =>
    exact .bind (errorsMeet_require _ rfl) fun _ => .bind (errorsMeet_require _ rfl) fun _ =>
      .bind (errorsMeet_require _ rfl) fun _ => .bind (onlyCommandErrors_outBytes s _) fun _ => .ok _
  | nalx => exact .bind (errorsMeet_require _ rfl) fun _ => .ok _
  | putb n value =>
    exact .bind hfields fun _ => .bind (onlyCommandErrors_checkRawBits s) fun _ => onlyCommandErrors_outBytes _ _
  | putue value | putse value =>
    exact .bind (onlyCommandErrors_checkRawBits s) fun _ => .bind (errorsMeet_require _ rfl) fun _ =>
      onlyCommandErrors_outBytes _ _
  | align | trail => exact .bind (onlyCommandErrors_checkRawBits s) fun _ => onlyCommandErrors_outBytes _ _
  | putbytes src count =>
    exact .bind hfields fun _ => .bind (onlyCommandErrors_checkRawBits s) fun _ =>
      .bind (errorsMeet_require _ rfl) fun _ => .bind (errorsMeet_require _ rfl) fun _ =>
        .bind (onlyCommandErrors_readWords _ _) fun _ => onlyCommandErrors_outBytes _ _

end

/-! ### The engine's step on the command at the FIFO head -/

section
variable {s t : State} {c : Command} {rest : List Command}

/-- Where no error was recorded, a refusal records its own (R372). -/
theorem Refused.eq_of_clear {code : Byte} {lo hi : Word} (h : Refused s t code lo hi) (herr : s.err = false) :
    t = { s with err := true, errcode := code, errinfoLo := lo, errinfoHi := hi, irqPend := s.irqPend ||| 1 } := by
  simpa only [Refused, herr, Bool.false_eq_true, if_false] using h

/-- The command at the FIFO head completes and retires, or it leaves the FIFO with an error of its own (R80, R372). -/
theorem step_atHead_cases (h : AtHead s c rest) (hstep : step s = .next t) :
    (∃ i u, decode c = .ok i ∧ Completes { s with fifo := rest } i u ∧ u.retire = t) ∨
      ∃ e, isCommandError e = true ∧ Refused { s with fifo := rest } t (errorNumber e) c.lo c.hi := by
  cases hdec : decode c with
  | error e =>
    obtain ⟨t', hstep', hrefused⟩ := step_of_decode_error h hdec
    obtain rfl := Host.Outcome.next.inj (hstep.symm.trans hstep')
    exact .inr ⟨e, onlyCommandErrors_decode c e hdec, hrefused⟩
  | ok i =>
    obtain ⟨hagenda, hen, herr, hfifo⟩ := h
    rw [step_of_agenda_nil s hagenda, engineStep_of_decode hen herr hfifo hdec] at hstep
    rcases (exec_next_iff i _ t).1 hstep with ⟨u, hu, hret⟩ | ⟨e, he, rfl⟩
    · exact .inl ⟨i, u, rfl, completes_of_effectOf hu, hret⟩
    · rw [encode_of_decode hdec]
      exact .inr ⟨e, onlyCommandErrors_effectOf _ i e he, refused_recordError _ e c.lo c.hi⟩

/-- A completed command leaves no error recorded. -/
theorem Completes.err_retire {i : Instr} {u : State} (h : Completes s i u) (herr : s.err = false) :
    u.retire.err = false := by
  rw [retire_err, h.ownWritesOnly.host.err, herr]

end

/-- Settles O7: a completed command records no error, and a refused one is the record of its own; an engine with an error
recorded waits. -/
theorem commandErrorChangesNothingElse : Obligations.CommandErrorChangesNothingElse := by
  unfold Obligations.CommandErrorChangesNothingElse
  refine ⟨fun s t c rest h hstep hterr => ?_, fun s herr hagenda => ?_⟩
  · have ⟨_, _, hserr, _⟩ := h
    rcases step_atHead_cases h hstep with ⟨i, u, -, hu, rfl⟩ | ⟨e, he, hrefused⟩
    · exact absurd hterr (Bool.eq_false_iff.1 (hu.err_retire hserr))
    · obtain rfl := hrefused.eq_of_clear hserr
      exact ⟨rfl, errorNumber_of_isCommandError he⟩
  · rw [step_of_agenda_nil s hagenda, engineStep_of_waits (.inr (.inl herr))]

/-! ### What a command sets in IRQ_PEND (R380, R381) -/

section
variable {s u : State}

theorem irqPend_of_outBytes {w : BitWriter} {bytes : List Byte} (h : outBytes { s with bw := w } bytes = .ok u) :
    u.irqPend = s.irqPend := by
  obtain ⟨-, rfl⟩ := (outBytes_ok_iff _ _ _).1 h
  rfl

theorem Codes.irqPend (h : Codes s u) : u.irqPend = s.irqPend := by
  obtain ⟨c, bits, hw⟩ := h.exists_writeBits
  exact irqPend_of_outBytes (s := s.storeCoder c) hw

/-- Of its own, a command sets no pending bit, but for NALE. -/
theorem Completes.irqPend_of_ne {i : Instr} (h : Completes s i u) (hi : i ≠ .nale) : u.irqPend = s.irqPend := by
  cases h with
  | nop | setqp _ | forward _ _ | inverse _ _ | rlscan _ | cinit | nalx _ => rfl
  | code _ codes | terminate codes | cres codes => exact codes.irqPend
  | nalb _ _ header =>
    have hpend := irqPend_of_outBytes (w := s.bw) header
    exact hpend
  | nale _ _ _ => exact absurd rfl hi
  | bits _ _ written => exact irqPend_of_outBytes written
  | bytes _ _ written => exact irqPend_of_outBytes written

/-- NALE sets NALDONE (R342). -/
theorem Completes.irqPend_nale (h : Completes s .nale u) : u.irqPend = s.irqPend ||| irqNalDone := by
  cases h with
  | nale _ _ ends => rw [closeNal_irqPend, irqPend_of_outBytes (w := s.bw) ends]
  | forward family _ | inverse family _ | code family _ | bits family _ _ => cases family

/-- The words of NALE, and of no other command. -/
theorem eq_nale_iff_of_decode {c : Command} {i : Instr} (h : decode c = .ok i) : i = .nale ↔ c = ⟨0x84000000, 0⟩ := by
  have hnale : encode .nale = ⟨0x84000000, 0⟩ := by decide
  constructor
  · rintro rfl
    rw [← encode_of_decode h, hnale]
  · rintro rfl
    rw [← hnale, decode_encode] at h
    exact (Except.ok.inj h).symm

/-- The pending bits that a command sets of its own, by its words. -/
theorem Completes.irqPend_of_decode {c : Command} {i : Instr} (h : Completes s i u) (hdec : decode c = .ok i) :
    u.irqPend = s.irqPend ||| if c = ⟨0x84000000, 0⟩ then irqNalDone else 0 := by
  split
  next hc =>
    obtain rfl := (eq_nale_iff_of_decode hdec).2 hc
    exact h.irqPend_nale
  next hc =>
    rw [h.irqPend_of_ne (mt (eq_nale_iff_of_decode hdec).1 hc)]
    exact BitVec.or_zero.symm

end

/-- Settles O10: NALDONE is NALE's own, IDLE comes of its retirement (R380), and ERR of the error's record. -/
theorem commandsSetTheirInterrupts : Obligations.CommandsSetTheirInterrupts := by
  unfold Obligations.CommandsSetTheirInterrupts
  intro s t c rest h hstep
  have ⟨_, _, hserr, _⟩ := h
  rcases step_atHead_cases h hstep with ⟨i, u, hdec, hu, rfl⟩ | ⟨e, -, hrefused⟩
  · refine ⟨fun _ => ?_, fun hterr => absurd hterr (Bool.eq_false_iff.1 (hu.err_retire hserr))⟩
    rw [retire_irqPend, hu.ownWritesOnly.host.fifo, hu.irqPend_of_decode hdec, BitVec.or_assoc, BitVec.or_assoc,
      BitVec.or_comm (if c = _ then _ else _)]
    rfl
  · obtain rfl := hrefused.eq_of_clear hserr
    exact ⟨nofun, fun _ => rfl⟩

/-! ### The first error stays (R374) -/

/-- The error registers are kept, and IRQ_PEND.ERR is not set. -/
structure ErrorRecordKept (s t : State) : Prop where
  err : t.err = s.err
  errcode : t.errcode = s.errcode
  errinfoLo : t.errinfoLo = s.errinfoLo
  errinfoHi : t.errinfoHi = s.errinfoHi
  pending : s.irqPend.getLsbD 0 = false → t.irqPend.getLsbD 0 = false

section
variable {s t : State} {a : BitVec 17} {v : Word}

theorem ErrorRecordKept.refl (s : State) : ErrorRecordKept s s :=
  ⟨rfl, rfl, rfl, rfl, id⟩

/-- A further error is not recorded. -/
theorem ErrorRecordKept.accessError (h : ErrorRecordKept s t) (herr : s.err = true) (e : ErrCode) (a : BitVec 17)
    (v : Word) : ErrorRecordKept s (t.accessError e a v) := by
  rw [State.accessError, recordError_of_err (h.err.trans herr)]
  exact h

theorem errorRecordKept_accessError (herr : s.err = true) (e : ErrCode) (a : BitVec 17) (v : Word) :
    ErrorRecordKept s (s.accessError e a v) :=
  (ErrorRecordKept.refl s).accessError herr e a v

theorem ReadBusOnly.errorRecordKept (h : ReadBusOnly s t) : ErrorRecordKept s t := by
  rw [h]
  exact ⟨rfl, rfl, rfl, rfl, id⟩

theorem errorRecordKept_hostRead (herr : s.err = true) (n : Nat) (a : BitVec 17) :
    ErrorRecordKept s (hostRead s n a) := by
  have hanswer : ∀ w, ErrorRecordKept s (s.answer w) := fun _ => ⟨rfl, rfl, rfl, rfl, id⟩
  unfold hostRead
  split
  · cases target a.toNat with
    | bram k => exact (readBusOnly_readBram s k).errorRecordKept
    | unmapped => exact (hanswer 0).accessError herr _ _ _
    | _ => exact hanswer _
  · exact (hanswer 0).accessError herr _ _ _

theorem errorRecordKept_writeCtrl (herr : s.err = true) (a : BitVec 17) (h8 : v.getLsbD 8 = false)
    (h10 : v.getLsbD 10 = false) : ErrorRecordKept s (writeCtrl s a v) := by
  simp only [writeCtrl, h8, h10, Bool.false_eq_true, if_false]
  split
  · exact errorRecordKept_accessError herr _ _ _
  · split
    · rw [resetOutput_eq]
      exact ⟨rfl, rfl, rfl, rfl, id⟩
    · exact ⟨rfl, rfl, rfl, rfl, id⟩

theorem errorRecordKept_writeQp (herr : s.err = true) (a : BitVec 17) (v : Word) :
    ErrorRecordKept s (writeQp s a v) := by
  simp only [writeQp]
  split_ifs
  · exact errorRecordKept_accessError herr _ _ _
  · exact ⟨rfl, rfl, rfl, rfl, id⟩
  · exact errorRecordKept_accessError herr _ _ _

theorem errorRecordKept_pushCommand (herr : s.err = true) (a : BitVec 17) (v : Word) :
    ErrorRecordKept s (pushCommand s a v) := by
  unfold pushCommand
  split
  · exact ⟨rfl, rfl, rfl, rfl, id⟩
  · have hstage : ErrorRecordKept s { s with cmdHiStage := 0 } := ⟨rfl, rfl, rfl, rfl, id⟩
    exact hstage.accessError herr _ _ _

theorem errorRecordKept_writeBram (herr : s.err = true) (k : Nat) (a : BitVec 17) (v : Word) :
    ErrorRecordKept s (writeBram s k a v) := by
  unfold writeBram
  split
  · exact errorRecordKept_accessError herr _ _ _
  · exact ⟨rfl, rfl, rfl, rfl, id⟩

theorem errorRecordKept_writeScaling (herr : s.err = true) (k : Nat) (a : BitVec 17) (v : Word) :
    ErrorRecordKept s (writeScaling s k a v) := by
  unfold writeScaling
  split_ifs
  · exact errorRecordKept_accessError herr _ _ _
  · exact errorRecordKept_accessError herr _ _ _
  · exact ⟨rfl, rfl, rfl, rfl, id⟩

theorem errorRecordKept_writeReg (herr : s.err = true) (a : BitVec 17) {r : Reg}
    (hctrl : r = .ctrl → v.getLsbD 8 = false ∧ v.getLsbD 10 = false) : ErrorRecordKept s (writeReg s a v r) := by
  cases r with
  | ctrl => exact errorRecordKept_writeCtrl herr a (hctrl rfl).1 (hctrl rfl).2
  | qp => exact errorRecordKept_writeQp herr a v
  | cmdLo => exact errorRecordKept_pushCommand herr a v
  | irqPend => exact ⟨rfl, rfl, rfl, rfl, fun h => by rw [writeReg, BitVec.getLsbD_and, h, Bool.false_and]⟩
  | status | cmdHi | irqEn => exact ⟨rfl, rfl, rfl, rfl, id⟩
  | _ => exact errorRecordKept_accessError herr _ _ _

/-- Only the word at 0x00004 names CTRL (R84). -/
theorem eq_of_target_ctrl (h4 : a.toNat % 4 = 0) (h : target a.toNat = .reg .ctrl) : a = 0x00004 := by
  have hword : ∀ k < 21, target (4 * k) = .reg .ctrl → k = 1 := by decide
  by_cases hreg : a.toNat < 0x54
  · obtain ⟨k, hk⟩ := Nat.dvd_of_mod_eq_zero h4
    obtain rfl := hword k (by omega) (hk ▸ h)
    exact BitVec.eq_of_toNat_eq hk
  · rw [target, if_neg hreg] at h
    split_ifs at h

theorem errorRecordKept_hostWrite (herr : s.err = true) {n : Nat}
    (hctrl : n = 4 → a = 0x00004 → v.getLsbD 8 = false ∧ v.getLsbD 10 = false) :
    ErrorRecordKept s (hostWrite s n a v) := by
  unfold hostWrite
  split
  next haligned =>
    obtain ⟨hn, h4⟩ : n = 4 ∧ a.toNat % 4 = 0 := by simpa [accessAligned] using haligned
    cases ht : target a.toNat with
    | reg r => exact errorRecordKept_writeReg herr a fun hr => hctrl hn (eq_of_target_ctrl h4 (hr ▸ ht))
    | bram k => exact errorRecordKept_writeBram herr k a v
    | scaling k => exact errorRecordKept_writeScaling herr k a v
    | _ => exact errorRecordKept_accessError herr _ _ _
  next => exact errorRecordKept_accessError herr _ _ _

end

/-- Settles O9, by the kind of the event: a halted engine waits, and a host access keeps the error's record. -/
theorem firstErrorIsSticky : Obligations.FirstErrorIsSticky := by
  unfold Obligations.FirstErrorIsSticky
  intro s t e rest herr hagenda hreset hctrl hstep
  have hkept : ErrorRecordKept { s with agenda := rest } t := by
    cases e with
    | engineTurn =>
      have hwaits := engineStep_of_waits (s := { s with agenda := rest }) (.inr (.inl herr))
      rw [step_of_engineTurn s rest hagenda, hwaits] at hstep
      exact Host.Outcome.next.inj hstep ▸ .refl _
    | read n a =>
      rw [step_of_read s rest hagenda] at hstep
      exact Host.Outcome.next.inj hstep ▸ errorRecordKept_hostRead (s := { s with agenda := rest }) herr n a
    | write n a v =>
      rw [step_of_write s rest hagenda] at hstep
      exact Host.Outcome.next.inj hstep ▸
        errorRecordKept_hostWrite (s := { s with agenda := rest }) herr fun hn ha => hctrl v (hn ▸ ha ▸ rfl)
    | resetInput => exact absurd rfl hreset
  obtain ⟨hterr, hcode, hlo, hhi, hpending⟩ := hkept
  exact ⟨hterr.trans herr, hcode, hlo, hhi, hpending⟩

/-! ### CLR_ERR (R378) -/

/-- A write of CTRL that neither resets nor changes LOSSLESS while BUSY is not refused. -/
theorem writeCtrl_accepted {s : State} {v : Word} (a : BitVec 17) (h9 : v.getLsbD 9 = false)
    (h10 : v.getLsbD 10 = false) (h : s.fifo = [] ∨ v.getLsbD 1 = s.lossless) : writeCtrl s a v =
      { (if v.getLsbD 8 then s.clearError else s) with enable := v.getLsbD 0, lossless := v.getLsbD 1 } := by
  have haccepted : (s.busy && (v.getLsbD 1 != s.lossless || v.getLsbD 9)) = false := by
    rcases h with hidle | hsame
    · simp [(not_busy_iff s).2 hidle]
    · rw [hsame, h9, bne_self_eq_false, Bool.or_false, Bool.and_false]
  rw [writeCtrl, h10, haccepted, h9]
  simp only [Bool.false_eq_true, if_false]

/-- Settles O21, by the accepted write of CTRL at the state with the event taken. -/
theorem clearErrorRecovers : Obligations.ClearErrorRecovers := by
  unfold Obligations.ClearErrorRecovers
  intro s rest v hwrite h9 h10 hkept
  have hstep : step s = .next (writeCtrl { s with agenda := rest } 0x00004 v) := step_write_reg hwrite rfl rfl
  rw [writeCtrl_accepted (s := { s with agenda := rest }) _ h9 h10 hkept] at hstep
  exact ⟨fun h8 => by rw [hstep, h8]; rfl, fun h8 => by rw [hstep, h8]; rfl⟩

end Sys2Proof.Machine

/-! SUPPORT. Reset (R400 to R402), and what a host write leaves alone while commands are queued (R411). -/

namespace Sys2Proof.Machine

/-! ### Reset (R400 to R402) -/

/-- CTRL.SOFT_RESET is tested before BUSY and the other bits (R401). -/
theorem writeCtrl_softReset (s : State) (a : BitVec 17) {v : Word} (h10 : v.getLsbD 10 = true) :
    writeCtrl s a v = s.resetBlock :=
  if_pos h10

/-- Settles O20: both ways end in `resetBlock`, at the state with the event taken. -/
theorem resetByPinOrByCtrl : Obligations.ResetByPinOrByCtrl := by
  unfold Obligations.ResetByPinOrByCtrl
  rintro s rest (hpin | ⟨v, h10, hwrite⟩)
  · exact step_of_resetInput s rest hpin
  · have hstep : step s = .next (writeCtrl { s with agenda := rest } 0x00004 v) := step_write_reg hwrite rfl rfl
    rw [hstep, writeCtrl_softReset _ _ h10]
    rfl

theorem reset_ctx (i : Nat) (h : i < 460) : State.reset.ctx[i] = ⟨0, false⟩ :=
  Vector.getElem_replicate h

theorem reset_scal (i : Nat) (h : i < 224) : State.reset.scal[i] = 16 :=
  Vector.getElem_replicate h

/-- Settles O25: the vectors by `reset_ctx` and `reset_scal`; every other element has its value in `State.reset`, which
lists no word of the buffer RAM and no byte of the output (log 12). -/
theorem resetValues : Obligations.ResetValues :=
  have hbram : ∀ a, State.reset.bram.read a = none := fun _ => rfl
  have hout : ∀ k, State.reset.outByte k = 0 := fun _ => rfl
  ⟨rfl, rfl, rfl, rfl, rfl, rfl, rfl, rfl, rfl, rfl, rfl, rfl, rfl, rfl, rfl, reset_ctx, reset_scal, hbram, rfl, hout,
    rfl, rfl, rfl, rfl, rfl⟩

/-! ### Host writes while commands are queued (R411) -/

/-- From s to t, a host write of v keeps what the queued commands read and the output; the queue it keeps, adds one
command to (R38), or empties by CLR_ERR (R378). -/
structure QueueInputsKept (n : Nat) (a : BitVec 17) (v : Word) (s t : State) : Prop where
  bram : t.bram = s.bram
  scal : t.scal = s.scal
  qp : QpKept s t
  lossless : t.lossless = s.lossless
  output : SameOutput s t
  queue : t.fifo = s.fifo ∨ t.fifo = s.fifo ++ [⟨v, s.cmdHiStage⟩] ∨
    (t.fifo = [] ∧ n = 4 ∧ a = 0x00004 ∧ v.getLsbD 8 = true)

section
variable {n : Nat} {a : BitVec 17} {v : Word} {s t : State}

theorem QueueInputsKept.refl (s : State) : QueueInputsKept n a v s s :=
  ⟨rfl, rfl, ⟨rfl, rfl, rfl⟩, rfl, .refl s, .inl rfl⟩

theorem SameOutput.outputKept (h : SameOutput s t) : OutputKept s t :=
  ⟨h.wptr, h.desc, h.outByte⟩

/-- A recorded error changes the error registers and IRQ_PEND only (R372). -/
theorem QueueInputsKept.accessError (h : QueueInputsKept n a v s t) (e : ErrCode) :
    QueueInputsKept n a v s (t.accessError e a v) where
  bram := (recordError_bram ..).trans h.bram
  scal := (recordError_scal ..).trans h.scal
  qp := by simpa [QpKept, State.accessError] using h.qp
  lossless := (recordError_lossless ..).trans h.lossless
  output := h.output.accessError e a v
  queue := (recordError_fifo t e _ v).symm ▸ h.queue

theorem QueueInputsKept.of_refused {e : ErrCode} (h : t = s.accessError e a v) : QueueInputsKept n a v s t :=
  h ▸ (QueueInputsKept.refl s).accessError e

/-- BUSY refuses a change of LOSSLESS, with the rest of the write (R32, log 13). -/
theorem writeCtrl_changesLossless_busy (a : BitVec 17) (h10 : v.getLsbD 10 = false) (hbusy : s.fifo ≠ [])
    (hchange : v.getLsbD 1 ≠ s.lossless) : writeCtrl s a v = s.accessError .hostBusyWrite a v := by
  rw [writeCtrl, h10, (busy_iff s).2 hbusy, bne_iff_ne.2 hchange]
  simp only [Bool.false_eq_true, if_false, Bool.true_or, Bool.true_and, if_true]

theorem queueInputsKept_writeCtrl (hbusy : s.fifo ≠ []) (h10 : v.getLsbD 10 = false) :
    QueueInputsKept 4 0x00004 v s (writeCtrl s 0x00004 v) := by
  by_cases hsame : v.getLsbD 1 = s.lossless
  · cases h9 : v.getLsbD 9 with
    | true => exact .of_refused (writeCtrl_outReset_busy _ h9 h10 hbusy)
    | false =>
      rw [writeCtrl_accepted _ h9 h10 (.inr hsame)]
      cases h8 : v.getLsbD 8 with
      | true => exact ⟨rfl, rfl, ⟨rfl, rfl, rfl⟩, hsame, ⟨rfl, rfl, rfl, rfl⟩, .inr (.inr ⟨rfl, rfl, rfl, h8⟩)⟩
      | false => exact ⟨rfl, rfl, ⟨rfl, rfl, rfl⟩, hsame, ⟨rfl, rfl, rfl, rfl⟩, .inl rfl⟩
  · exact .of_refused (writeCtrl_changesLossless_busy _ h10 hbusy hsame)

theorem queueInputsKept_pushCommand : QueueInputsKept n a v s (pushCommand s a v) := by
  unfold pushCommand
  split
  · exact ⟨rfl, rfl, ⟨rfl, rfl, rfl⟩, rfl, ⟨rfl, rfl, rfl, rfl⟩, .inr (.inl rfl)⟩
  · have hstage : QueueInputsKept n a v s { s with cmdHiStage := 0 } :=
      { QueueInputsKept.refl s with output := ⟨rfl, rfl, rfl, rfl⟩ }
    exact hstage.accessError _

/-- The writes that touch an input of a command are refused while BUSY; a write of CTRL is told apart by its bits. -/
theorem queueInputsKept_writeReg (hbusy : s.fifo ≠ []) {r : Reg}
    (hctrl : r = .ctrl → n = 4 ∧ a = 0x00004 ∧ v.getLsbD 10 = false) :
    QueueInputsKept n a v s (writeReg s a v r) := by
  cases r with
  | ctrl =>
    obtain ⟨rfl, rfl, h10⟩ := hctrl rfl
    exact queueInputsKept_writeCtrl hbusy h10
  | qp => exact .of_refused (writeQp_busy a hbusy)
  | cmdLo => exact queueInputsKept_pushCommand
  | status | cmdHi | irqEn | irqPend => exact { QueueInputsKept.refl s with output := ⟨rfl, rfl, rfl, rfl⟩ }
  | _ => exact .of_refused rfl

theorem queueInputsKept_hostWrite (hbusy : s.fifo ≠ [])
    (hreset : ¬(n = 4 ∧ a = 0x00004 ∧ v.getLsbD 10 = true)) : QueueInputsKept n a v s (hostWrite s n a v) := by
  unfold hostWrite
  split
  next haligned =>
    obtain ⟨hn, h4⟩ : n = 4 ∧ a.toNat % 4 = 0 := by simpa [accessAligned] using haligned
    cases ht : target a.toNat with
    | reg r =>
      refine queueInputsKept_writeReg hbusy fun hr => ?_
      have ha := eq_of_target_ctrl h4 (hr ▸ ht)
      exact ⟨hn, ha, Bool.eq_false_iff.2 fun h10 => hreset ⟨hn, ha, h10⟩⟩
    | bram k => exact .of_refused (writeBram_busy a hbusy)
    | scaling k => exact .of_refused (writeScaling_busy a hbusy)
    | _ => exact .of_refused rfl
  next => exact .of_refused rfl

end

/-- Settles O23: the first part by `queueInputsKept_hostWrite` at the state with the event taken. -/
theorem busyWritesKeepInputs : Obligations.BusyWritesKeepInputs := by
  unfold Obligations.BusyWritesKeepInputs
  constructor
  · intro s t n a v rest hwrite hbusy hreset hstep
    rw [step_of_write s rest hwrite] at hstep
    have hkept : QueueInputsKept n a v { s with agenda := rest } t :=
      Host.Outcome.next.inj hstep ▸ queueInputsKept_hostWrite (s := { s with agenda := rest }) hbusy hreset
    obtain ⟨hbram, hscal, hqp, hlossless, houtput, hqueue⟩ := hkept
    exact ⟨hbram, hscal, hqp, hlossless, houtput.outputKept, hqueue⟩
  · intro s v rest hwrite hbusy h10 hchange
    have hstep : step s = .next (writeCtrl { s with agenda := rest } 0x00004 v) := step_write_reg hwrite rfl rfl
    rw [writeCtrl_changesLossless_busy (s := { s with agenda := rest }) _ h10 hbusy hchange] at hstep
    exact ⟨_, hstep, refused_accessError_busAddr _ _ (by decide) v⟩

end Sys2Proof.Machine
